-- ==== Sys2Proof/Word.lean ====
section
/-! DEFINITION. The word types of the device and the size of the guest address space
(spec/00_scope.md R9, R5 row ADDR_BITS; spec/20_memory.md R60). -/

namespace Sys2Proof

/-- A byte is 8 bits (R9). -/
abbrev Byte := BitVec 8

/-- A `u32` wire field (R9). -/
abbrev Word32 := BitVec 32

/-- A `u64` wire field, a guest physical address, a register write value: `ADDR_BITS = 64` bits (R9, R5). -/
abbrev Word64 := BitVec 64

/-- Guest physical addresses are `0 .. 2^64 - 1` (R60), `ADDR_BITS = 64` (R5). -/
abbrev addressSpace : Nat := 2 ^ 64

end Sys2Proof
end

