-- ==== Sys2Proof/Config.lean ====
section
/-! DEFINITION. The implementation parameters of spec/00_scope.md rule R5: every row is a field of `Params`, a fixed row
with the one value the source gives; and the free values, which the spec leaves open and the machine goes on. -/

namespace Sys2Proof

/-- `IRQ_MODE` (R5, R217): the interrupt mechanism, chosen at construction. -/
inductive IrqMode where
  | message
  | level
deriving DecidableEq, Repr

/-- `BYTE_ORDER` (R5, R11). -/
inductive ByteOrder where
  | littleEndian
  | bigEndian
deriving DecidableEq, Repr

/-- `SIZE_BYTES` (R5, D1): the two widths the wire type `size` is considered at (R96, N3). -/
inductive SizeWidth where
  | four
  | eight
deriving DecidableEq, Repr

/-- `OVERRUN_POLICY` (R5, R186, R187). -/
inductive OverrunPolicy where
  | fillThenFail
  | precheck
deriving DecidableEq, Repr

/-- `LEVEL_LINE_MODEL` (R5, R214, R215). -/
inductive LineModel where
  | perDirectionOr
  | singleLatchLiteral
deriving DecidableEq, Repr

/-! ### The fixed rows: the values the source gives -/

namespace Config

/-- `MAX_BUFFERS` (R5). -/
abbrev maxBuffers : Nat := 64
/-- `WINDOW_BYTES` (R5). -/
abbrev windowBytes : Nat := 16384
/-- `TAG_WINDOW` (R5). -/
abbrev tagWindow : Nat := 64
/-- `BUF_BYTES` (R5). -/
abbrev bufBytes : Nat := 16
/-- `REG_OUT` (R5). -/
abbrev regOut : Word64 := 0x00
/-- `REG_IN` (R5). -/
abbrev regIn : Word64 := 0x08
/-- `REG_ACK`, also the first offset of the tag window (R5). -/
abbrev regAck : Word64 := 0x10
/-- `ADDR_BITS` (R5): the width of `Word64`. -/
abbrev addrBits : Nat := 64

end Config

/-- A row of R5 of kind fixed: a configuration field whose value is the one the source gives. -/
structure Given {α : Type} (v : α) where
  val : α
  given : val = v
deriving DecidableEq, Repr

/-- The field of a fixed row, at its value. -/
def fixed {α : Type} (v : α) : Given v := ⟨v, rfl⟩

/-- The rows of R5, each a field: what one instance of the device is built with. No command but `CONSTRUCT` changes any
of it, and `CONSTRUCT` changes `tag` and `irqMode` only (R281, R282). -/
structure Params where
  /-- `MAX_BUFFERS` (fixed). -/
  maxBuffers : Given Config.maxBuffers := fixed _
  /-- `WINDOW_BYTES` (fixed). -/
  windowBytes : Given Config.windowBytes := fixed _
  /-- `REG_OUT` (fixed). -/
  regOut : Given Config.regOut := fixed _
  /-- `REG_IN` (fixed). -/
  regIn : Given Config.regIn := fixed _
  /-- `REG_ACK`, also the first offset of the tag window (fixed). -/
  regAck : Given Config.regAck := fixed _
  /-- `TAG_WINDOW` (fixed). -/
  tagWindow : Given Config.tagWindow := fixed _
  /-- `ADDR_BITS` (fixed). -/
  addrBits : Given Config.addrBits := fixed _
  /-- `BUF_BYTES` (fixed). -/
  bufBytes : Given Config.bufBytes := fixed _
  /-- `TAG` (open, R231): any finite byte sequence. -/
  tag : List Byte
  /-- `IRQ_MODE` (open). -/
  irqMode : IrqMode
  /-- `SIZE_BYTES`. -/
  sizeBytes : SizeWidth
  /-- `BYTE_ORDER`. -/
  byteOrder : ByteOrder
  /-- `STATUS_PENDING`. -/
  statusPending : Word32
  /-- `STATUS_DONE`. -/
  statusDone : Word32
  /-- `NOTIFY_MASK`. -/
  notifyMask : Word32
  /-- `OVERRUN_POLICY`. -/
  overrunPolicy : OverrunPolicy
  /-- `LEVEL_LINE_MODEL`. -/
  lineModel : LineModel
  /-- `REGION_BYTES` (open, R61). -/
  regionBytes : Nat
deriving DecidableEq, Repr

/-- The spec's own values of the decided rows of R5, and the fixed rows. The open rows: no tag, `Level` (the mode of the
spec's test vectors) and the largest region. DESIGN CHOICE, log 4 (unsafe). -/
def Params.spec : Params where
  tag := []
  irqMode := .level
  sizeBytes := .eight
  byteOrder := .littleEndian
  statusPending := 0
  statusDone := 1
  notifyMask := 0xFFFFFFFF
  overrunPolicy := .fillThenFail
  lineModel := .perDirectionOr
  regionBytes := 2 ^ 64

/-- What R5, R61 and R99 ask of the parameters: the region holds the tag window, which ends at 0x50, and the two status
values differ. -/
def Params.wf (p : Params) : Bool :=
  decide (p.regAck.val.toNat + p.tagWindow.val ≤ p.regionBytes) && decide (p.statusPending ≠ p.statusDone)

/-- `SIZE_BYTES` as a number. -/
def SizeWidth.bytes : SizeWidth → Nat
  | .four => 4
  | .eight => 8

/-- `HDR_BYTES = 8 + 2 · SIZE_BYTES` (R5). -/
def Params.hdrBytes (p : Params) : Nat := 8 + 2 * p.sizeBytes.bytes

/-- The number of guest physical addresses, `2^ADDR_BITS` (R5, R60). -/
def Params.addressSpace (p : Params) : Nat := 2 ^ p.addrBits.val

namespace Config

/-- FREE VALUE (R66, U9; log 10): whether byte `k` of the `n`-th failed access was stored. -/
opaque freeStored : Nat → Nat → Bool

/-- FREE VALUE (R162, U10; log 10): how many bytes of the `n`-th failed access the backend took, up to all of them. -/
opaque freeTaken : Nat → Nat

end Config

end Sys2Proof
end

