-- ==== Sys2Proof/Syntax.lean ====
section
/-! DEFINITION. The commands (spec/30_encoding.md R90), one constructor for each row of spec/opcode_table.json, and the
transaction tuples that are their encodings (R91, R92, R101, R102, R105). -/

namespace Sys2Proof

/-- The admitted access widths: 1, 2, 4, 8 (R91, R104). -/
inductive AccessWidth where
  | w1
  | w2
  | w4
  | w8
deriving DecidableEq, Repr

/-- The width in bytes. -/
def AccessWidth.bytes : AccessWidth → Nat
  | .w1 => 1
  | .w2 => 2
  | .w4 => 4
  | .w8 => 8

/-- A handle for a backend endpoint, which `H` supplies at construction (R282); the device never looks inside it. -/
abbrev Endpoint := Nat

/-- One command of the device: R90, one constructor for each row of spec/opcode_table.json (R107 splits `TAG_READ`
into three masked rows; their free low offset bits are the operand). -/
inductive Instr where
  /-- Write at 0x00 (R160). -/
  | outSubmit (value : Word64) (width : AccessWidth)
  /-- Write at 0x08 (R180). -/
  | inRegister (value : Word64) (width : AccessWidth)
  /-- Write at 0x10 (R213). -/
  | ack (value : Word64) (width : AccessWidth)
  /-- Write at any other offset (R122). -/
  | nopWr (offset value : Word64) (width : AccessWidth)
  /-- Read at 0x10 to 0x1F (R230). -/
  | tagReadLow (index : BitVec 4) (width : AccessWidth)
  /-- Read at 0x20 to 0x3F (R230). -/
  | tagReadMid (index : BitVec 5) (width : AccessWidth)
  /-- Read at 0x40 to 0x4F (R230). -/
  | tagReadHigh (index : BitVec 4) (width : AccessWidth)
  /-- Read at any other offset (R123). -/
  | rdZero (offset : Word64) (width : AccessWidth)
  /-- Backend call without argument (R183). -/
  | capq
  /-- Backend call with bytes (R184). -/
  | deliver (bytes : List Byte)
  /-- Host reset (R280). -/
  | reset
  /-- Host construction (R282); `none`: the backend is missing. -/
  | construct (tag : List Byte) (mode : IrqMode) (backend : Option Endpoint)
deriving DecidableEq, Repr

/-- What arrives at a port, before decoding: the transaction tuple of one of the five formats. The width is the
number the bus presents, admitted or not. -/
inductive Transaction where
  /-- Format `MMIO_WR` (R91). -/
  | mmioWr (offset value : Word64) (width : Nat)
  /-- Format `MMIO_RD` (R92). -/
  | mmioRd (offset : Word64) (width : Nat)
  /-- Format `BE_CALL` (R101). -/
  | beCall
  /-- Format `BE_DATA` (R101). -/
  | beData (bytes : List Byte)
  /-- Format `HOST`, `RESET` (R102). -/
  | hostReset
  /-- Format `HOST`, `CONSTRUCT` (R102). -/
  | hostConstruct (tag : List Byte) (mode : IrqMode) (backend : Option Endpoint)
deriving DecidableEq, Repr

/-- Why a transaction is no command of the device: it does not reach it (R104, U14). -/
inductive DecodeError where
  /-- The width is none of 1, 2, 4, 8 (R104). -/
  | widthNotAdmitted
  /-- The offset lies beyond `REGION_BYTES` (R61). -/
  | beyondRegion
  /-- The value needs more bits than the access has (R91). -/
  | valueWiderThanAccess
  /-- A delivery of `2^(8·SIZE_BYTES)` bytes or more (R101). -/
  | deliveryTooLong
deriving DecidableEq, Repr

end Sys2Proof
end

