-- ==== Sys2Proof/WellFormed.lean ====
section
/-! DEFINITION. Which commands have an encoding: the ranges that spec/30_encoding.md R91 to R93, R101 and R104 put on
the operands. -/

namespace Sys2Proof

/-- The value written is below `2^(8·width)` (R91). -/
def valueFits (value : Word64) (width : AccessWidth) : Bool :=
  decide (value.toNat < 2 ^ (8 * width.bytes))

/-- The access lies in the register region (R61). -/
def inRegion (p : Params) (offset : Word64) : Bool :=
  decide (offset.toNat < p.regionBytes)

/-- The tag window, `REG_ACK ≤ offset < REG_ACK + TAG_WINDOW` (R40, R93). -/
def inTagWindow (p : Params) (offset : Word64) : Bool :=
  decide (p.regAck.val.toNat ≤ offset.toNat) && decide (offset.toNat < p.regAck.val.toNat + p.tagWindow.val)

/-- One of the three command registers (R36). -/
def isCommandRegister (p : Params) (offset : Word64) : Bool :=
  offset == p.regOut.val || offset == p.regIn.val || offset == p.regAck.val

/-- A delivery's length is below `2^(8·SIZE_BYTES)` (R101). -/
def deliveryFits (p : Params) (bytes : List Byte) : Bool :=
  decide (bytes.length < 2 ^ (8 * p.sizeBytes.bytes))

/-- The operands are in the ranges the spec gives them. -/
def Instr.wf (p : Params) : Instr → Bool
  | .outSubmit value width => inRegion p p.regOut.val && valueFits value width
  | .inRegister value width => inRegion p p.regIn.val && valueFits value width
  | .ack value width => inRegion p p.regAck.val && valueFits value width
  | .nopWr offset value width => inRegion p offset && valueFits value width && !isCommandRegister p offset
  | .tagReadLow index _ => decide (p.regAck.val.toNat + index.toNat < p.regionBytes)
  | .tagReadMid index _ => decide (p.regAck.val.toNat + (0x10 + index.toNat) < p.regionBytes)
  | .tagReadHigh index _ => decide (p.regAck.val.toNat + (p.tagWindow.val - 0x10 + index.toNat) < p.regionBytes)
  | .rdZero offset _ => inRegion p offset && !inTagWindow p offset
  | .capq => true
  | .deliver bytes => deliveryFits p bytes
  | .reset => true
  | .construct _ _ _ => true

/-- The tag index of a `TAG_READ`: `offset - 0x10` (R230). The first row is the first 16 offsets of the window, the third
the last 16 (R107). -/
def Instr.tagIndex : Instr → Option Nat
  | .outSubmit _ _ => none
  | .inRegister _ _ => none
  | .ack _ _ => none
  | .nopWr _ _ _ => none
  | .tagReadLow index _ => some index.toNat
  | .tagReadMid index _ => some (0x10 + index.toNat)
  | .tagReadHigh index _ => some (Config.tagWindow - 0x10 + index.toNat)
  | .rdZero _ _ => none
  | .capq => none
  | .deliver _ => none
  | .reset => none
  | .construct _ _ _ => none

end Sys2Proof
end

