-- ==== Sys2Proof/Decode.lean ====
section
/-! DEFINITION. The register decoder (spec/30_encoding.md R93, R107; spec/40_register_decoder.md R120, R121): from a
transaction tuple to a command, total, refusing by name what does not reach the device (R104); the encoder; and the
reading of a bare opcode-table word that the host asks for. -/

namespace Sys2Proof

/-- One masked row of spec/opcode_table.json: it is hit when `(offset & mask) = want` (R93, R107). -/
structure OpRow where
  want : Word64
  mask : Word64
deriving DecidableEq, Repr

/-- `(offset & mask) = match` (R93). -/
def OpRow.hits (r : OpRow) (offset : Word64) : Bool := (offset &&& r.mask) == r.want

/-- Row `OUT_SUBMIT`: offset `REG_OUT`. -/
def rowOutSubmit (p : Params) : OpRow := ⟨p.regOut.val, 0xFFFFFFFFFFFFFFFF⟩
/-- Row `IN_REGISTER`: offset `REG_IN`. -/
def rowInRegister (p : Params) : OpRow := ⟨p.regIn.val, 0xFFFFFFFFFFFFFFFF⟩
/-- Row `ACK`: offset `REG_ACK`. -/
def rowAck (p : Params) : OpRow := ⟨p.regAck.val, 0xFFFFFFFFFFFFFFFF⟩
/-- First row `TAG_READ`, the first 16 offsets of the tag window: match 0x10. -/
def rowTagReadLow (p : Params) : OpRow := ⟨p.regAck.val, 0xFFFFFFFFFFFFFFF0⟩
/-- Second row `TAG_READ`, the next 32 offsets: match 0x20. -/
def rowTagReadMid (p : Params) : OpRow := ⟨p.regAck.val + 0x10, 0xFFFFFFFFFFFFFFE0⟩
/-- Third row `TAG_READ`, the last 16 offsets of the tag window: match 0x40. -/
def rowTagReadHigh (p : Params) : OpRow := ⟨p.regAck.val + BitVec.ofNat 64 (p.tagWindow.val - 0x10), 0xFFFFFFFFFFFFFFF0⟩

/-- The width the bus presents, if it is admitted (R104). -/
def admittedWidth (n : Nat) : Option AccessWidth :=
  if n = 1 then some .w1
  else if n = 2 then some .w2
  else if n = 4 then some .w4
  else if n = 8 then some .w8
  else none

/-- `WR` dispatch (R93, R120): the rows of format `MMIO_WR` in priority order, `NOP_WR` last. -/
def decodeWrite (p : Params) (offset value : Word64) (width : AccessWidth) : Instr :=
  if (rowOutSubmit p).hits offset then .outSubmit value width
  else if (rowInRegister p).hits offset then .inRegister value width
  else if (rowAck p).hits offset then .ack value width
  else .nopWr offset value width

/-- `RD` dispatch (R93, R121): the rows of format `MMIO_RD` in priority order, `RD_ZERO` last. The tag index is what
the row's mask leaves free of the offset. -/
def decodeRead (p : Params) (offset : Word64) (width : AccessWidth) : Instr :=
  if (rowTagReadLow p).hits offset then .tagReadLow (offset.setWidth 4) width
  else if (rowTagReadMid p).hits offset then .tagReadMid (offset.setWidth 5) width
  else if (rowTagReadHigh p).hits offset then .tagReadHigh (offset.setWidth 4) width
  else .rdZero offset width

/-- The decoder (R93): total, and refusing by name the transactions that never reach the device (R61, R91, R101,
R104). -/
def decode (p : Params) : Transaction → Except DecodeError Instr
  | .mmioWr offset value width =>
    match admittedWidth width with
    | none => .error .widthNotAdmitted
    | some w =>
      if !inRegion p offset then .error .beyondRegion
      else if !valueFits value w then .error .valueWiderThanAccess
      else .ok (decodeWrite p offset value w)
  | .mmioRd offset width =>
    match admittedWidth width with
    | none => .error .widthNotAdmitted
    | some w => if !inRegion p offset then .error .beyondRegion else .ok (decodeRead p offset w)
  | .beCall => .ok .capq
  | .beData bytes => if !deliveryFits p bytes then .error .deliveryTooLong else .ok (.deliver bytes)
  | .hostReset => .ok .reset
  | .hostConstruct tag mode backend => .ok (.construct tag mode backend)

/-- The encoder: the transaction tuple of a command (R90 to R92, R101, R102, R105), at the rows' offsets. -/
def encode (p : Params) : Instr → Transaction
  | .outSubmit value width => .mmioWr (rowOutSubmit p).want value width.bytes
  | .inRegister value width => .mmioWr (rowInRegister p).want value width.bytes
  | .ack value width => .mmioWr (rowAck p).want value width.bytes
  | .nopWr offset value width => .mmioWr offset value width.bytes
  | .tagReadLow index width => .mmioRd ((rowTagReadLow p).want + index.setWidth 64) width.bytes
  | .tagReadMid index width => .mmioRd ((rowTagReadMid p).want + index.setWidth 64) width.bytes
  | .tagReadHigh index width => .mmioRd ((rowTagReadHigh p).want + index.setWidth 64) width.bytes
  | .rdZero offset width => .mmioRd offset width.bytes
  | .capq => .beCall
  | .deliver bytes => .beData bytes
  | .reset => .hostReset
  | .construct tag mode backend => .hostConstruct tag mode backend

/-- The transaction a bare row word of spec/opcode_table.json stands for. The word is an offset only: it names neither
the direction nor the operands. DESIGN CHOICE (log 2): a command register's offset is an 8-byte write of 0; an offset
of a `TAG_READ` row, or at or above 0x50, is an 8-byte read; any other offset is an 8-byte write of 0. A row without an
offset has fewer than 64 bits; its word then selects `CAPQ`, an empty `DELIVER`, `RESET` or `CONSTRUCT` by 0, 1, 2, 3. -/
def tableTransaction (nbits w : Nat) : Option Transaction :=
  if nbits < 64 then
    match w with
    | 0 => some .beCall
    | 1 => some (.beData [])
    | 2 => some .hostReset
    | 3 => some (.hostConstruct [] .level (some 0))
    | _ => none
  else
    let offset : Word64 := BitVec.ofNat 64 w
    if isCommandRegister Params.spec offset then some (.mmioWr offset 0 8)
    else if decide (Config.regAck.toNat ≤ offset.toNat) then some (.mmioRd offset 8)
    else some (.mmioWr offset 0 8)

/-- The command the decoder reads from a bare row word of spec/opcode_table.json (log 2). -/
def decodeTableWord (nbits w : Nat) : Option Instr :=
  match tableTransaction nbits w with
  | none => none
  | some t =>
    match decode Params.spec t with
    | .ok i => some i
    | .error _ => none

end Sys2Proof
end

