-- ==== Sys2Proof/Machine/State.lean ====
section
/-! DEFINITION. The state: the device's own state (spec/10_state.md R20), its configuration, guest memory and the
backend's stream, the inputs of the agents around it, and the model's record of its outputs; the reset values (R43). -/

namespace Sys2Proof.Machine

/-- An SGL header (R96), also the cached header `in_hdr` (R27): the raw words. With `SIZE_BYTES = 4` the two `size`
fields hold 32-bit values, zero-extended. -/
structure Header where
  notifyFlags : Word32
  status : Word32
  actualLength : Word64
  bufferCount : Word64
deriving DecidableEq, Repr

/-- A buffer entry `{base, length}` (R97). -/
structure Buffer where
  base : Word64
  length : Word64
deriving DecidableEq, Repr

/-- The complete persistent state of one device instance (R20). -/
structure Device where
  /-- `out_pending` (R22). -/
  outPending : Bool
  /-- `in_pending` (R23). -/
  inPending : Bool
  /-- `irq_line` (R24). -/
  irqLine : Bool
  /-- `in_valid` (R25). -/
  inValid : Bool
  /-- `in_desc_addr` (R26). -/
  inDescAddr : Word64
  /-- `in_hdr` (R27). -/
  inHdr : Header
  /-- `in_buf[0 .. MAX_BUFFERS-1]` (R28). -/
  inBuf : Vector Buffer Config.maxBuffers
  /-- `cur_idx` (R29). -/
  curIdx : Nat
  /-- `cur_off` (R30). -/
  curOff : Word64
  /-- `total_capacity` (R31). -/
  totalCapacity : Nat
  /-- `stale_count` (R32). -/
  staleCount : Nat
deriving DecidableEq, Repr

/-- Guest memory: address and byte, addresses strictly rising, no entry equal to what an unlisted address reads as. -/
abbrev Memory := List Host.Cell

/-- Bytes some guest processor stores, in order. -/
abbrev Stores := List (Word64 × Byte)

/-- The error kinds E1 to E5 with the information reported (R240). The information beyond the kind is the table's
suggestion (U19; log 17). -/
inductive Report where
  /-- E1: descriptor address, `buffer_count`. -/
  | malformedDescriptor (address count : Word64)
  /-- E2: `n`, bytes scattered before the stop. -/
  | overrun (length scattered : Nat)
  /-- E3: buffer index, offset in the buffer. -/
  | backendWriteFailure (buffer offset : Nat)
  /-- E4: old and new descriptor address. -/
  | staleRegistration (old new : Word64)
  /-- E5: address, length. -/
  | guestAccessFailure (address length : Nat)
deriving DecidableEq, Repr

/-- What the device does at its ports, and what it answers: the model's record, no state of the device (R33, R74;
log 12). -/
inductive Event where
  /-- A `MemRead` put to `M`: the bytes answered, or `none` for FAIL (R66). -/
  | memRead (address length : Nat) (answer : Option (List Byte))
  /-- A `MemWrite` put to `M`: answered OK or FAIL (R66). -/
  | memWrite (address : Nat) (bytes : List Byte) (ok : Bool)
  /-- A `BeWrite` answered OK (R162). -/
  | beWrite (bytes : List Byte)
  /-- A `BeWrite` answered FAIL, of which the backend took the first `taken` bytes, a number the device does not see
  (R162, U10; log 10). -/
  | beWriteFailed (bytes : List Byte) (taken : Nat)
  /-- `MsiSend` (R211): no payload. -/
  | msiSend
  /-- The interrupt line changes to this level (R212, R214, R215). -/
  | lineChange (level : Bool)
  /-- `Report(kind, info)` on `P_ERR` (R247). -/
  | report (r : Report)
  /-- The value a register read returns to `G` (R92). -/
  | readReturned (value : Word64)
  /-- The natural `CAPQ` returns to `B` (R101). -/
  | capacityReturned (n : Nat)
  /-- Construction failed: no device exists (R282). -/
  | constructionFailed
deriving DecidableEq, Repr

/-- What `M` does with one access it is asked for (R66, R312, U13). -/
inductive MemVerdict where
  | grants
  | refuses
  | never
deriving DecidableEq, Repr

/-- One access to guest memory from `M`'s side (R66, R74; log 7, log 9): the guest stores that land before it, the bytes
a read sees otherwise than memory holds them (a race), and the answer. -/
structure MemTurn where
  guestStores : Stores
  seen : Stores
  verdict : MemVerdict
deriving DecidableEq, Repr

/-- What `B` does with one `BeWrite` (R162, R312, U13). -/
inductive BeTurn where
  | takes
  | fails
  | never
deriving DecidableEq, Repr

/-- What comes next, in the order the lock lets it in (R12, U17): a command at a port, or plain guest stores to memory
between two commands (R74, R312). -/
inductive Arrival where
  | command (t : Transaction)
  | guestStores (stores : Stores)
deriving DecidableEq, Repr

/-- The machine: the device and what its rules read and write around it. -/
structure State where
  /-- The device's own state (R20). -/
  dev : Device
  /-- The parameters (R5). -/
  cfg : Params
  /-- The backend endpoint; `none`: no device has been constructed (R248, R282). -/
  backend : Option Endpoint
  /-- Guest physical memory (R60). -/
  mem : Memory
  /-- The outbound stream: the concatenation of all successfully written sequences (R63). -/
  outStream : List Byte
  /-- What arrives next (R12). -/
  arrivals : List Arrival
  /-- How `M` and racing guest stores treat the next accesses; an empty list: quiet, granting (log 7). -/
  memTurns : List MemTurn
  /-- How `B` answers the next writes; an empty list: takes (log 8). -/
  beTurns : List BeTurn
  /-- The model's record of outputs, oldest first (R33, R74; log 12). -/
  history : List Event
  /-- The model's own counter of free values drawn (log 10). -/
  freeDraws : Nat
deriving DecidableEq, Repr

/-- Where the machine is stuck: a port call that never returns (R297, R311, U13), or a loop that would not end. -/
inductive Fault where
  /-- `M` never answers an access: raised by `OUT_SUBMIT`, `IN_REGISTER`, `DELIVER` (R312). Safe: the device does not
  go on either. -/
  | memoryNeverAnswers
  /-- `B` never answers a `BeWrite`: raised by `OUT_SUBMIT` (R297). Safe: the device does not go on either. -/
  | backendNeverAnswers
  /-- `cur_off` lies beyond the current buffer: raised by `DELIVER` in states that R42 excludes, where the loop of R184
  would not end (log 14). Safe. -/
  | cursorBeyondBuffer
deriving DecidableEq, Repr

/-- Why a step has no meaning. -/
inductive Refusal where
  /-- Raised by exec for a command that has no meaning yet: none. Safe. -/
  | notModelled (mnemonic : String)
  /-- Raised by step: the transaction never reaches the device (R104, U14; log 16). Safe. -/
  | notADeviceAccess (e : DecodeError)
  /-- Raised by step: a command before construction (R282, R312: not specified; log 15). Safe. -/
  | noDevice
  /-- Raised by step: construction of a device that exists (R282, R312: not specified; log 15). Safe. -/
  | alreadyConstructed
deriving DecidableEq, Repr

/-- The cached header after reset (R43). -/
def Header.zero : Header := ⟨0, 0, 0, 0⟩

/-- The device's state after `RESET` and after construction (R43). The entries of `in_buf`, which R43 leaves
unspecified, are zero: DESIGN CHOICE, log 5. -/
def Device.reset : Device where
  outPending := false
  inPending := false
  irqLine := false
  inValid := false
  inDescAddr := 0
  inHdr := Header.zero
  inBuf := Vector.replicate Config.maxBuffers ⟨0, 0⟩
  curIdx := 0
  curOff := 0
  totalCapacity := 0
  staleCount := 0

/-- The machine right after reset, for any parameters and any backend: nothing in memory, nothing arriving. -/
def State.resetWith (cfg : Params) (backend : Option Endpoint) : State where
  dev := Device.reset
  cfg := cfg
  backend := backend
  mem := []
  outStream := []
  arrivals := []
  memTurns := []
  beTurns := []
  history := []
  freeDraws := 0

/-- The machine right after reset: a constructed device (R43) with the spec's parameters and endpoint 0 (log 4). -/
def State.reset : State := State.resetWith Params.spec (some 0)

end Sys2Proof.Machine
end

