-- ==== Sys2Proof/Machine/Flags.lean ====
section
/-! DEFINITION. Every flag and status computation: the notify flag (spec/30_encoding.md R100), the status tests (R99,
spec/43_inbound_engine.md R181, R183, R184), the acknowledge bits (R95), the pending flags by direction
(spec/44_notification.md R210) and the level of the line (R214, R215). -/

namespace Sys2Proof.Machine

/-- The two directions of `Notify` and `ACK` (R210). -/
inductive Direction where
  | out
  | inn
deriving DecidableEq, Repr

/-- `notify = ((notify_flags & NOTIFY_MASK) ≠ 0)` (R100). -/
def notifyRequested (p : Params) (notifyFlags : Word32) : Bool := notifyFlags &&& p.notifyMask != 0

/-- The registration is live, or unfinished: `in_valid = 1` and `in_hdr.status = STATUS_PENDING` (R181). -/
def Device.live (p : Params) (d : Device) : Bool := d.inValid && d.inHdr.status == p.statusPending

/-- `ACK_OUT`, bit 0 (R95). -/
def ackOut (value : Word64) : Bool := value.getLsbD 0

/-- `ACK_IN`, bit 1 (R95). -/
def ackIn (value : Word64) : Bool := value.getLsbD 1

/-- The direction's pending flag. -/
def Device.pending (d : Device) : Direction → Bool
  | .out => d.outPending
  | .inn => d.inPending

/-- The direction's pending flag, written. -/
def Device.setPending (d : Device) (dir : Direction) (b : Bool) : Device :=
  match dir with
  | .out => { d with outPending := b }
  | .inn => { d with inPending := b }

/-- The level `LineAfterAck` leaves in `Level` mode, on the device after the flag was cleared (R214, R215); `was` is the
flag before. -/
def lineLevelAfterAck (m : LineModel) (dir : Direction) (was : Bool) (d : Device) : Bool :=
  match m, dir with
  | .perDirectionOr, _ => d.outPending || d.inPending
  | .singleLatchLiteral, .out => d.irqLine && !was
  | .singleLatchLiteral, .inn => d.irqLine

/-- The registered buffers: the entries of `in_buf` that are ever read (R28). -/
def Device.registered (d : Device) : List Buffer := d.inBuf.toList.take d.inHdr.bufferCount.toNat

/-- The exact sum of buffer lengths, without wrap (R31, R79). -/
def sumLengths (bufs : List Buffer) : Nat := (bufs.map fun b => b.length.toNat).sum

/-- The unconsumed capacity from the cursor onward (R183). -/
def unconsumed (bufs : List Buffer) (curOff : Nat) : Nat :=
  match bufs with
  | [] => 0
  | b :: rest => (b.length.toNat - curOff) + sumLengths rest

/-- What `CAPQ` answers (R183). -/
def capacity (p : Params) (d : Device) : Nat :=
  if !d.inValid || d.inHdr.status == p.statusDone then 0
  else unconsumed (d.registered.drop d.curIdx) d.curOff.toNat

end Sys2Proof.Machine
end

