-- ==== Sys2Proof/Machine/Ops.lean ====
section
/-! DEFINITION. The named operations over guest memory, the backend and the record; ending a command by an error
(`raise`, spec/60_exceptions.md R247) as one shared operation; and the interrupt's raise and its return, the
acknowledge (spec/44_notification.md R210 to R215, spec/60_exceptions.md R254). -/

namespace Sys2Proof.Machine

/-! ### Guest memory as data -/

/-- What an unlisted byte reads as: 0. DESIGN CHOICE, log 6 (unsafe). -/
def Memory.blank : Byte := 0

/-- The byte at an address. -/
def Memory.byteAt : Memory → Nat → Byte
  | [], _ => Memory.blank
  | (k, b) :: rest, a => if k = a then b else Memory.byteAt rest a

/-- One byte written, keeping the canonical form. -/
def Memory.put (m : Memory) (a : Nat) (b : Byte) : Memory :=
  match m with
  | [] => if b = Memory.blank then [] else [(a, b)]
  | (k, c) :: rest =>
    if a < k then (if b = Memory.blank then (k, c) :: rest else (a, b) :: (k, c) :: rest)
    else if a = k then (if b = Memory.blank then rest else (a, b) :: rest)
    else (k, c) :: Memory.put rest a b

/-- Every entry of the list lies above `lo`, strictly rising, inside the address space, none blank. -/
def Memory.wfAbove : Option Nat → Memory → Bool
  | _, [] => true
  | lo, (k, b) :: rest =>
    (match lo with | none => true | some l => decide (l < k)) && decide (k < addressSpace) && decide (b ≠ Memory.blank)
      && Memory.wfAbove (some k) rest

/-- The canonical form: addresses strictly rising and below `2^64`, no entry equal to what an unlisted one reads as. -/
def Memory.wf (m : Memory) : Bool := Memory.wfAbove none m

/-- The `n` bytes from `a` upward. -/
def Memory.bytesAt (m : Memory) (a : Nat) : Nat → List Byte
  | 0 => []
  | n + 1 => m.byteAt a :: Memory.bytesAt m (a + 1) n

/-- The bytes written from `a` upward, in order. -/
def Memory.putBytes (m : Memory) (a : Nat) : List Byte → Memory
  | [] => m
  | b :: rest => Memory.putBytes (m.put a b) (a + 1) rest

/-- The bytes `k`, `k + 1`, … of a failed write, of which the free value says which were stored (R66, U9; log 10). -/
def Memory.putSome (m : Memory) (draw k a : Nat) : List Byte → Memory
  | [] => m
  | b :: rest => Memory.putSome (if Config.freeStored draw k then m.put a b else m) draw (k + 1) (a + 1) rest

/-- Guest stores land, in order (R74). -/
def Memory.putStores (m : Memory) : Stores → Memory
  | [] => m
  | (a, b) :: rest => Memory.putStores (m.put a.toNat b) rest

/-- The byte a racing read sees at `a`: the raced value, if any, else what memory holds (R68, R74, U11; log 9). -/
def Memory.seenAt (m : Memory) (seen : Stores) (a : Nat) : Byte :=
  match seen with
  | [] => m.byteAt a
  | (k, b) :: rest => if k.toNat = a then b else Memory.seenAt m rest a

/-- The `n` bytes a racing read sees from `a` upward. -/
def Memory.seenBytes (m : Memory) (seen : Stores) (a : Nat) : Nat → List Byte
  | 0 => []
  | n + 1 => m.seenAt seen a :: Memory.seenBytes m seen (a + 1) n

/-! ### The course of a command -/

/-- How a part of a command ends: it is done and the command goes on; it ended the command by a `raise` (R13: aborts);
or a port call never returns. -/
inductive Run (α : Type) where
  | done (a : α) (s : State)
  | aborted (s : State)
  | stuck (f : Fault)
deriving Repr

/-- One part of a command after another (R72). -/
def Run.andThen {α β : Type} (r : Run α) (k : α → State → Run β) : Run β :=
  match r with
  | .done a s => k a s
  | .aborted s => .aborted s
  | .stuck f => .stuck f

/-- A command that completes and one that aborts both leave the device idle in a next state (R13). -/
def Run.outcome (r : Run Unit) : Host.Outcome State Fault Refusal :=
  match r with
  | .done _ s => .next s
  | .aborted s => .next s
  | .stuck f => .fault f

/-- An event is recorded (R33, R74; log 12). -/
def State.record (s : State) (e : Event) : State := { s with history := s.history ++ [e] }

/-- `report <Kind>(info)`: the event, and the command goes on (R10). -/
def report (r : Report) (s : State) : State := s.record (.report r)

/-- Error entry, `raise <Kind>(info)`: the command ends here, the event is emitted, every effect already made stands,
the device is idle; nothing is saved and no status changes (R10, R247). -/
def raise {α : Type} (r : Report) (s : State) : Run α := .aborted (report r s)

/-! ### Port `P_GMEM` -/

/-- A turn of `M` in which nothing races and the access is granted. -/
def MemTurn.quiet : MemTurn := ⟨[], [], .grants⟩

/-- The next turn of `M` is taken; the guest stores that precede the access have landed (R74; log 7). -/
def takeMemTurn (s : State) : MemTurn × State :=
  match s.memTurns with
  | [] => (MemTurn.quiet, s)
  | t :: rest => (t, { s with memTurns := rest, mem := s.mem.putStores t.guestStores })

/-- `MemRead(addr, n)` (R66): `none` is FAIL. A range past `2^64` is not attempted. -/
def memRead (addr n : Nat) (s : State) : Run (Option (List Byte)) :=
  if s.cfg.addressSpace < addr + n then .done none s
  else
    match takeMemTurn s with
    | (t, s) =>
      match t.verdict with
      | .never => .stuck .memoryNeverAnswers
      | .refuses => .done none (s.record (.memRead addr n none))
      | .grants =>
        .done (some (s.mem.seenBytes t.seen addr n)) (s.record (.memRead addr n (some (s.mem.seenBytes t.seen addr n))))

/-- `MemWrite(addr, n, v)` with `n = len(v)` (R66): `false` is FAIL. A range past `2^64` is not attempted; of a refused
write any subset of the bytes is stored, which one is a free value (log 10). -/
def memWrite (addr : Nat) (v : List Byte) (s : State) : Run Bool :=
  if s.cfg.addressSpace < addr + v.length then .done false s
  else
    match takeMemTurn s with
    | (t, s) =>
      match t.verdict with
      | .never => .stuck .memoryNeverAnswers
      | .refuses =>
        .done false ({ s with mem := s.mem.putSome s.freeDraws 0 addr v, freeDraws := s.freeDraws + 1 }.record
          (.memWrite addr v false))
      | .grants => .done true ({ s with mem := s.mem.putBytes addr v }.record (.memWrite addr v true))

/-- `MemRead`, and `raise GuestAccessFailure(addr, n)` on FAIL (R66, R245). -/
def fetch (addr n : Nat) (s : State) : Run (List Byte) :=
  (memRead addr n s).andThen fun r s =>
    match r with
    | some bytes => .done bytes s
    | none => raise (.guestAccessFailure addr n) s

/-- `MemWrite`, and `raise GuestAccessFailure(addr, n)` on FAIL (R66, R245). -/
def store (addr : Nat) (v : List Byte) (s : State) : Run Unit :=
  (memWrite addr v s).andThen fun ok s =>
    if ok then .done () s else raise (.guestAccessFailure addr v.length) s

/-! ### Port `P_BETX` -/

/-- The next turn of `B` is taken (log 8). -/
def takeBeTurn (s : State) : BeTurn × State :=
  match s.beTurns with
  | [] => (.takes, s)
  | t :: rest => (t, { s with beTurns := rest })

/-- `BeWrite(w)` (R63, R162): OK appends all of `w` to the outbound stream; `false` is FAIL, of which the backend took
a free number of bytes from none to all (log 10). -/
def beWrite (w : List Byte) (s : State) : Run Bool :=
  match takeBeTurn s with
  | (t, s) =>
    match t with
    | .never => .stuck .backendNeverAnswers
    | .fails =>
      .done false ({ s with freeDraws := s.freeDraws + 1 }.record
        (.beWriteFailed w (min w.length (Config.freeTaken s.freeDraws))))
    | .takes => .done true ({ s with outStream := s.outStream ++ w }.record (.beWrite w))

/-- `BeWrite`, and `raise BackendWriteFailure(i, done)` on FAIL (R165). -/
def push (w : List Byte) (buffer offset : Nat) (s : State) : Run Unit :=
  (beWrite w s).andThen fun ok s =>
    if ok then .done () s else raise (.backendWriteFailure buffer offset) s

/-! ### Port `P_IRQ`: the raise, and its return -/

/-- The line is driven to a level; an edge is recorded only where it changes (R212). -/
def driveLine (level : Bool) (s : State) : State :=
  if s.dev.irqLine = level then s
  else { s with dev := { s.dev with irqLine := level } }.record (.lineChange level)

/-- `IrqRaise()` (R211, R212). -/
def irqRaise (s : State) : State :=
  match s.cfg.irqMode with
  | .message => s.record .msiSend
  | .level => driveLine true s

/-- `Notify(dir)` (R210): the coalescing raise. -/
def notify (dir : Direction) (s : State) : State :=
  if s.dev.pending dir then s
  else { irqRaise s with dev := (irqRaise s).dev.setPending dir true }

/-- `Notify(dir)` if the header's notify flag asks for it (R163, R188). -/
def notifyIf (wanted : Bool) (dir : Direction) (s : State) : State := if wanted then notify dir s else s

/-- `LineAfterAck(dir, was)` (R214, R215): nothing in `Message` mode. -/
def lineAfterAck (dir : Direction) (was : Bool) (s : State) : State :=
  match s.cfg.irqMode with
  | .message => s
  | .level => driveLine (lineLevelAfterAck s.cfg.lineModel dir was s.dev) s

/-- The return from an interrupt (R254): one direction's flag is cleared and the line follows (R213). -/
def acknowledge (dir : Direction) (s : State) : State :=
  lineAfterAck dir (s.dev.pending dir) { s with dev := s.dev.setPending dir false }

/-! ### Which commands the host lets in -/

/-- The duties of `H` around construction (R282, R312; log 15): nothing before `CONSTRUCT`, and `CONSTRUCT` once. -/
def notLetIn (s : State) (i : Instr) : Option Refusal :=
  match i, s.backend with
  | .construct _ _ _, none => none
  | .construct _ _ _, some _ => some .alreadyConstructed
  | _, some _ => none
  | _, none => some .noDevice

end Sys2Proof.Machine
end

