-- ==== Sys2Proof/Machine/Operands.lean ====
section
/-! DEFINITION. The operands in guest memory: the wire fields (spec/00_scope.md R11), the header and buffer formats
(spec/30_encoding.md R96, R97), the descriptor fetch `DecodeSGL` and the write-back `EncodeHeader`
(spec/41_descriptor_codec.md R140 to R144); and the registration (spec/43_inbound_engine.md R180). -/

namespace Sys2Proof.Machine

/-- `Σ s[i] · 256^i`. -/
def decLittle : List Byte → Nat
  | [] => 0
  | b :: rest => b.toNat + 256 * decLittle rest

/-- `dec_N(s)` with `N = len(s)` (R11). -/
def dec (o : ByteOrder) (bytes : List Byte) : Nat :=
  match o with
  | .littleEndian => decLittle bytes
  | .bigEndian => decLittle bytes.reverse

/-- The `n` low bytes of `v`, least significant first. -/
def encLittle : Nat → Nat → List Byte
  | 0, _ => []
  | n + 1, v => BitVec.ofNat 8 v :: encLittle n (v / 256)

/-- `enc_N(v)` (R11). -/
def enc (o : ByteOrder) (n v : Nat) : List Byte :=
  match o with
  | .littleEndian => encLittle n v
  | .bigEndian => (encLittle n v).reverse

/-- The bytes `[i, i + n)` of a sequence (R9). -/
def slice (bytes : List Byte) (i n : Nat) : List Byte := (bytes.drop i).take n

/-- The header read from its `HDR_BYTES` bytes (R96, R140). -/
def decodeHeader (p : Params) (r : List Byte) : Header where
  notifyFlags := BitVec.ofNat 32 (dec p.byteOrder (slice r 0 4))
  status := BitVec.ofNat 32 (dec p.byteOrder (slice r 4 4))
  actualLength := BitVec.ofNat 64 (dec p.byteOrder (slice r 8 p.sizeBytes.bytes))
  bufferCount := BitVec.ofNat 64 (dec p.byteOrder (slice r (8 + p.sizeBytes.bytes) p.sizeBytes.bytes))

/-- The header's `HDR_BYTES` bytes (R96, R142). -/
def headerBytes (p : Params) (h : Header) : List Byte :=
  enc p.byteOrder 4 h.notifyFlags.toNat ++ enc p.byteOrder 4 h.status.toNat
    ++ enc p.byteOrder p.sizeBytes.bytes h.actualLength.toNat ++ enc p.byteOrder p.sizeBytes.bytes h.bufferCount.toNat

/-- One buffer entry read from its 16 bytes (R97). -/
def decodeBuffer (p : Params) (q : List Byte) : Buffer where
  base := BitVec.ofNat 64 (dec p.byteOrder (slice q 0 8))
  length := BitVec.ofNat 64 (dec p.byteOrder (slice q 8 8))

/-- `count` buffer entries read from `16 · count` bytes, in list order (R97, R140). -/
def decodeBuffers (p : Params) (q : List Byte) : Nat → List Buffer
  | 0 => []
  | n + 1 => decodeBuffer p q :: decodeBuffers p (q.drop p.bufBytes.val) n

/-- The list fetch of `DecodeSGL`: omitted when `buffer_count = 0` (R67, R140). -/
def fetchList (a count : Nat) (s : State) : Run (List Buffer) :=
  if count = 0 then .done [] s
  else
    (fetch (a + s.cfg.hdrBytes) (s.cfg.bufBytes.val * count) s).andThen fun q s =>
      .done (decodeBuffers s.cfg q count) s

/-- `DecodeSGL(a)` (R140): header fetch, the bound of R141, list fetch. -/
def decodeSGL (a : Word64) (s : State) : Run (Header × List Buffer) :=
  (fetch a.toNat s.cfg.hdrBytes s).andThen fun r s =>
    let h := decodeHeader s.cfg r
    if s.cfg.maxBuffers.val < h.bufferCount.toNat then raise (.malformedDescriptor a h.bufferCount) s
    else (fetchList a.toNat h.bufferCount.toNat s).andThen fun bl s => .done (h, bl) s

/-- `EncodeHeader(a, h)` (R142): one write of all the header's bytes, from the device's copy. -/
def encodeHeader (a : Word64) (h : Header) (s : State) : Run Unit := store a.toNat (headerBytes s.cfg h) s

/-- `in_buf` with the entries `0 .. len(bl)-1` replaced; the entries from there upward keep what they held (R28). -/
def installBuffers (old : Vector Buffer Config.maxBuffers) (bl : List Buffer) : Vector Buffer Config.maxBuffers :=
  ⟨((bl ++ old.toList.drop bl.length).take Config.maxBuffers).toArray, by
    simp only [List.size_toArray, List.length_take, List.length_append, List.length_drop, Vector.length_toList]
    omega⟩

/-- The registration `IN_REGISTER` installs (R180). -/
def Device.install (d : Device) (a : Word64) (h : Header) (bl : List Buffer) : Device :=
  { d with
    inHdr := h
    inBuf := installBuffers d.inBuf bl
    inDescAddr := a
    curIdx := 0
    curOff := 0
    totalCapacity := sumLengths bl
    inValid := true }

end Sys2Proof.Machine
end

