-- ==== Sys2Proof/Machine/Inbound.lean ====
section
/-! DEFINITION. The inbound gather-scatter engine: `IN_REGISTER`, `CAPQ`, `DELIVER` (spec/43_inbound_engine.md R180 to
R194). -/

namespace Sys2Proof.Machine

/-- A live registration that is replaced is counted and reported (R181). -/
def countStale (a : Word64) (s : State) : State :=
  if s.dev.live s.cfg then
    report (.staleRegistration s.dev.inDescAddr a) { s with dev := { s.dev with staleCount := s.dev.staleCount + 1 } }
  else s

/-- `IN_REGISTER(a)` (R180). -/
def inRegister (a : Word64) (s : State) : Run Unit :=
  (decodeSGL a s).andThen fun sgl s =>
    let s := countStale a s
    .done () { s with dev := s.dev.install a sgl.1 sgl.2 }

/-- The command `IN_REGISTER` (R180): the written value is the address (R94). -/
def execInRegister (value : Word64) (s : State) : Host.Outcome State Fault Refusal := (inRegister value s).outcome

/-- The command `CAPQ` (R183). -/
def execCapq (s : State) : Host.Outcome State Fault Refusal := .next (s.record (.capacityReturned (capacity s.cfg s.dev)))

/-- The payload write of one iteration: none when there is nothing to write (R184, R185). -/
def storePayload (addr : Nat) (v : List Byte) (s : State) : Run Unit :=
  if v.isEmpty then .done () s else store addr v s

/-- The cursor after `k` bytes went into the current buffer (R184): at the buffer's end it steps to the next one. -/
def Device.advance (d : Device) (length k : Nat) : Device :=
  if d.curOff.toNat + k = length then { d with curIdx := d.curIdx + 1, curOff := 0 }
  else { d with curOff := BitVec.ofNat 64 (d.curOff.toNat + k) }

/-- The scatter loop (R184, R185) over the registered buffers from the cursor onward, with the input left; `n` is the
number of all the input's bytes. Each iteration exhausts the input or steps to the next buffer. -/
def scatter (n : Nat) : (bufs : List Buffer) → (input : List Byte) → State → Run Unit
  | _, [], s => .done () s
  | [], d :: ds, s => raise (.overrun n (n - (d :: ds).length)) s
  | b :: rest, d :: ds, s =>
    let input := d :: ds
    let off := s.dev.curOff.toNat
    if b.length.toNat < off then .stuck .cursorBeyondBuffer
    else
      let k := min input.length (b.length.toNat - off)
      (storePayload (b.base.toNat + off) (input.take k) s).andThen fun _ s =>
        scatter n rest (input.drop k) { s with dev := s.dev.advance b.length.toNat k }

/-- Completion (R188): the cache says Done with this call's byte count, the header is written, then the interrupt. -/
def complete (n : Nat) (s : State) : Run Unit :=
  let h : Header := { s.dev.inHdr with status := s.cfg.statusDone, actualLength := BitVec.ofNat 64 n }
  (encodeHeader s.dev.inDescAddr h { s with dev := { s.dev with inHdr := h } }).andThen fun _ s =>
    .done () (notifyIf (notifyRequested s.cfg h.notifyFlags) .inn s)

/-- The test of `Precheck` (R187): the delivery is larger than the capacity. -/
def precheckFails (n : Nat) (s : State) : Bool :=
  s.cfg.overrunPolicy == .precheck && decide (capacity s.cfg s.dev < n)

/-- `DELIVER(d)` (R184): the drop guard, the test of `Precheck`, the scatter, the completion. -/
def deliver (d : List Byte) (s : State) : Run Unit :=
  if !s.dev.live s.cfg then .done () s
  else if precheckFails d.length s then raise (.overrun d.length 0) s
  else
    (scatter d.length (s.dev.registered.drop s.dev.curIdx) d s).andThen fun _ s => complete d.length s

/-- The command `DELIVER` (R184). -/
def execDeliver (d : List Byte) (s : State) : Host.Outcome State Fault Refusal := (deliver d s).outcome

end Sys2Proof.Machine
end

