-- ==== Sys2Proof/Machine/Lifecycle.lean ====
section
/-! DEFINITION. Reset and construction: `RESET`, `CONSTRUCT` (spec/70_reset_and_hazards.md R280 to R283). -/

namespace Sys2Proof.Machine

/-- Every piece of the device's state takes its reset value; nothing else changes (R280, R281). -/
def resetDevice (s : State) : State := { s with dev := Device.reset }

/-- The command `RESET` (R280). -/
def execReset (s : State) : Host.Outcome State Fault Refusal := .next (resetDevice s)

/-- The command `CONSTRUCT` (R282): the configuration is fixed and the device is at its reset values; without a backend
construction fails and no device exists (R248). -/
def execConstruct (tag : List Byte) (mode : IrqMode) (backend : Option Endpoint) (s : State) :
    Host.Outcome State Fault Refusal :=
  match backend with
  | none => .next ({ s with backend := none }.record .constructionFailed)
  | some b => .next (resetDevice { s with cfg := { s.cfg with tag := tag, irqMode := mode }, backend := some b })

end Sys2Proof.Machine
end

