-- ==== Sys2Proof/Machine/Notification.lean ====
section
/-! DEFINITION. The acknowledge command `ACK` (spec/44_notification.md R213 to R218). -/

namespace Sys2Proof.Machine

/-- The command `ACK` (R213): one flag per write, bit 0 first. -/
def execAck (value : Word64) (s : State) : Host.Outcome State Fault Refusal :=
  if ackOut value then .next (acknowledge .out s)
  else if ackIn value then .next (acknowledge .inn s)
  else .next s

end Sys2Proof.Machine
end

