-- ==== Sys2Proof/Machine/Outbound.lean ====
section
/-! DEFINITION. The outbound scatter-gather drain engine: `OUT_SUBMIT` (spec/42_outbound_engine.md R160 to R169). -/

namespace Sys2Proof.Machine

/-- The chunks of one buffer from offset `off` on (R160 step 2, R161): read the window, push it, go on. `chunks` is the
number of chunks left, at most one more than the loop needs (log 19). -/
def drainBuffer (b : Buffer) (buffer : Nat) : (chunks off : Nat) → State → Run Unit
  | 0, _, s => .done () s
  | chunks + 1, off, s =>
    if off < b.length.toNat then
      let c := min s.cfg.windowBytes.val (b.length.toNat - off)
      (fetch (b.base.toNat + off) c s).andThen fun w s =>
        (push w buffer off s).andThen fun _ s => drainBuffer b buffer chunks (off + c) s
    else .done () s

/-- The number of chunks of a buffer (R124, R161): `ceil(length / WINDOW_BYTES)`. -/
def chunkCount (p : Params) (length : Nat) : Nat := (length + (p.windowBytes.val - 1)) / p.windowBytes.val

/-- The buffers in list order (R160 step 2); `buffer` is the index of the first. -/
def drainBuffers : List Buffer → (buffer : Nat) → State → Run Unit
  | [], _, s => .done () s
  | b :: rest, buffer, s =>
    (drainBuffer b buffer (chunkCount s.cfg b.length.toNat) 0 s).andThen fun _ s => drainBuffers rest (buffer + 1) s

/-- `OUT_SUBMIT(a)` (R160). -/
def outSubmit (a : Word64) (s : State) : Run Unit :=
  (decodeSGL a s).andThen fun sgl s =>
    (drainBuffers sgl.2 0 s).andThen fun _ s =>
      let s := notifyIf (notifyRequested s.cfg sgl.1.notifyFlags) .out s
      encodeHeader a { sgl.1 with status := s.cfg.statusDone } s

/-- The command `OUT_SUBMIT` (R160): the written value is the address (R94). -/
def execOutSubmit (value : Word64) (s : State) : Host.Outcome State Fault Refusal := (outSubmit value s).outcome

end Sys2Proof.Machine
end

