-- ==== Sys2Proof/Machine/Registers.lean ====
section
/-! DEFINITION. The register commands that change no state: `NOP_WR`, `RD_ZERO` (spec/40_register_decoder.md R122, R123)
and the three rows of `TAG_READ` (spec/45_tag_register.md R230). -/

namespace Sys2Proof.Machine

/-- One zero-extended byte of the tag, or 0 beyond its length (R230). -/
def tagByte (p : Params) (i : Nat) : Word64 := (p.tag.getD i 0).setWidth 64

/-- A register read returns a value to `G` and changes no state (R69, R92). -/
def returnRead (value : Word64) (s : State) : State := s.record (.readReturned value)

/-- The command `NOP_WR` (R122): nothing. -/
def execNopWr (s : State) : Host.Outcome State Fault Refusal := .next s

/-- The command `TAG_READ` at 0x10 to 0x1F (R230): tag index `offset - 0x10`. -/
def execTagReadLow (index : BitVec 4) (s : State) : Host.Outcome State Fault Refusal :=
  .next (returnRead (tagByte s.cfg index.toNat) s)

/-- The command `TAG_READ` at 0x20 to 0x3F (R230): tag index `offset - 0x10`. -/
def execTagReadMid (index : BitVec 5) (s : State) : Host.Outcome State Fault Refusal :=
  .next (returnRead (tagByte s.cfg (0x10 + index.toNat)) s)

/-- The command `TAG_READ` at 0x40 to 0x4F (R230): tag index `offset - 0x10`. -/
def execTagReadHigh (index : BitVec 4) (s : State) : Host.Outcome State Fault Refusal :=
  .next (returnRead (tagByte s.cfg (s.cfg.tagWindow.val - 0x10 + index.toNat)) s)

/-- The command `RD_ZERO` (R123): the number 0. -/
def execRdZero (s : State) : Host.Outcome State Fault Refusal := .next (returnRead 0 s)

end Sys2Proof.Machine
end

