-- ==== Sys2Proof/Machine/Dispatch.lean ====
section
/-! DEFINITION. The one dispatch from a command to its meaning. -/

namespace Sys2Proof.Machine

/-- The effect of one command on the machine. -/
def exec (i : Instr) (s : State) : Host.Outcome State Fault Refusal :=
  match i with
  | .outSubmit value _ => Sys2Proof.Machine.execOutSubmit value s
  | .inRegister value _ => Sys2Proof.Machine.execInRegister value s
  | .ack value _ => Sys2Proof.Machine.execAck value s
  | .nopWr _ _ _ => Sys2Proof.Machine.execNopWr s
  | .tagReadLow index _ => Sys2Proof.Machine.execTagReadLow index s
  | .tagReadMid index _ => Sys2Proof.Machine.execTagReadMid index s
  | .tagReadHigh index _ => Sys2Proof.Machine.execTagReadHigh index s
  | .rdZero _ _ => Sys2Proof.Machine.execRdZero s
  | .capq => Sys2Proof.Machine.execCapq s
  | .deliver bytes => Sys2Proof.Machine.execDeliver bytes s
  | .reset => Sys2Proof.Machine.execReset s
  | .construct tag mode backend => Sys2Proof.Machine.execConstruct tag mode backend s

end Sys2Proof.Machine
end

