-- ==== Sys2Proof/Machine/Fetch.lean ====
section
/-! DEFINITION. How the next command arrives (spec/00_scope.md R6: fetch is the arrival of a command at a port; R12: one
at a time, in any order), and how one is placed there. -/

namespace Sys2Proof.Machine

/-- What the machine finds when it is idle. -/
inductive Fetched where
  /-- Nothing arrives: the device stays idle (R35). -/
  | idle
  /-- Guest stores land in memory; the device does nothing (R74). -/
  | stored (s : State)
  /-- A transaction is at a port. -/
  | command (t : Transaction) (s : State)
deriving Repr

/-- The next arrival is taken. -/
def fetchNext (s : State) : Fetched :=
  match s.arrivals with
  | [] => .idle
  | .guestStores stores :: rest => .stored { s with arrivals := rest, mem := s.mem.putStores stores }
  | .command t :: rest => .command t { s with arrivals := rest }

/-- The backend `H` must have supplied for the transaction to be let in (R282, R312): none before `CONSTRUCT`, some
endpoint before every other command. -/
def backendFor (t : Transaction) (backend : Option Endpoint) : Option Endpoint :=
  match t, backend with
  | .hostConstruct _ _ _, _ => none
  | _, some b => some b
  | _, none => some 0

/-- The transaction is placed as the next arrival. -/
def placeNext (t : Transaction) (s : State) : State :=
  { s with arrivals := .command t :: s.arrivals, backend := backendFor t s.backend }

end Sys2Proof.Machine
end

