-- ==== Sys2Proof/Machine/Step.lean ====
section
/-! DEFINITION. One step: the next arrival is taken, decoded and run to its end (spec/00_scope.md R12, R13;
spec/40_register_decoder.md R124). -/

namespace Sys2Proof.Machine

/-- One step of the machine. -/
def step (s : State) : Host.Outcome State Fault Refusal :=
  match fetchNext s with
  | .idle => .next s
  | .stored s => .next s
  | .command t s =>
    match decode s.cfg t with
    | .error e => .refused (.notADeviceAccess e)
    | .ok i =>
      match notLetIn s i with
      | some r => .refused r
      | none => exec i s

/-- The command of a bare opcode-table word, placed so that the very next step runs it (log 2, log 3). -/
def State.withFetchWord (s : State) (nbits w : Nat) : State :=
  match tableTransaction nbits w with
  | none => s
  | some t => placeNext t s

end Sys2Proof.Machine
end

