-- ==== Sys2Proof/Safety.lean ====
section
/-! DEFINITION. What counts as a safe state and a safe run: the invariant of spec/10_state.md R42 with R30 and R31 and
the canonical form of memory; the ports that answer; where the device may write. -/

namespace Sys2Proof.Machine

/-- The invariants of R42 (a) to (e), with the last clause of R30 and the value of R31: the registration and its
cursor. -/
structure Device.CursorInv (d : Device) : Prop where
  /-- R42 (a). -/
  countBounded : d.inHdr.bufferCount.toNat ≤ Config.maxBuffers
  /-- R42 (b). -/
  indexBounded : d.curIdx ≤ d.inHdr.bufferCount.toNat
  /-- R42 (c) and R30: equality only where the current buffer's length is 0. -/
  offsetBounded : ∀ b, d.registered[d.curIdx]? = some b →
    d.curOff.toNat < b.length.toNat ∨ (d.curOff = 0 ∧ b.length = 0)
  /-- R42 (d). -/
  offsetAtEnd : d.curIdx = d.inHdr.bufferCount.toNat → d.curOff = 0
  /-- R42 (e). -/
  nothingRegistered : d.inValid = false →
    d.inHdr = Header.zero ∧ d.inDescAddr = 0 ∧ d.curIdx = 0 ∧ d.curOff = 0 ∧ d.totalCapacity = 0
  /-- R31. -/
  capacitySum : d.totalCapacity = sumLengths d.registered

/-- The invariants of R42 (f) and (g): the interrupt line. -/
structure LineInv (p : Params) (d : Device) : Prop where
  /-- R42 (f). -/
  messageLow : p.irqMode = .message → d.irqLine = false
  /-- R42 (g). -/
  levelIsOr : p.irqMode = .level → p.lineModel = .perDirectionOr → d.irqLine = (d.outPending || d.inPending)

/-- The invariant every step keeps. -/
structure State.Inv (s : State) : Prop where
  cursor : s.dev.CursorInv
  line : LineInv s.cfg s.dev
  memory : s.mem.wf = true

/-- Every port call of the next commands is answered (R312): no turn of `M` or `B` hangs. -/
def State.PortsAnswer (s : State) : Prop :=
  (∀ t ∈ s.memTurns, t.verdict ≠ .never) ∧ (∀ t ∈ s.beTurns, t ≠ .never)

/-- The guest is quiescent, memory grants every access and the backend takes every write: no race, no failure. -/
def State.Quiet (s : State) : Prop :=
  (∀ t ∈ s.memTurns, t = MemTurn.quiet) ∧ (∀ t ∈ s.beTurns, t = .takes)

/-- No guest processor stores to memory while the next commands run (R74, R298). -/
def State.GuestStill (s : State) : Prop := ∀ t ∈ s.memTurns, t.guestStores = []

/-- The address lies in the `n` bytes from `a`. -/
def inRange (a n x : Nat) : Prop := a ≤ x ∧ x < a + n

/-- The address lies in a registered inbound buffer (R242). -/
def Device.ownsAddress (d : Device) (x : Nat) : Prop :=
  ∃ b ∈ d.registered, inRange b.base.toNat b.length.toNat x

/-- A range of `n` bytes that does not pass `2^64`: an access to it is attempted (R66). -/
def fitsSpace (a n : Nat) : Prop := a + n ≤ addressSpace

/-- The SGL at `a` as memory holds it: the header (R96). -/
def State.headerAt (s : State) (a : Word64) : Header := decodeHeader s.cfg (s.mem.bytesAt a.toNat s.cfg.hdrBytes)

/-- The SGL at `a` as memory holds it: the buffers (R97). -/
def State.buffersAt (s : State) (a : Word64) : List Buffer :=
  decodeBuffers s.cfg
    (s.mem.bytesAt (a.toNat + s.cfg.hdrBytes) (Config.bufBytes * (s.headerAt a).bufferCount.toNat))
    (s.headerAt a).bufferCount.toNat

/-- An SGL the device can fetch (R140, R141): its count is in bounds and its bytes lie in the address space. -/
def State.SglFetchable (s : State) (a : Word64) : Prop :=
  (s.headerAt a).bufferCount.toNat ≤ Config.maxBuffers ∧
  fitsSpace a.toNat (s.cfg.hdrBytes + Config.bufBytes * (s.headerAt a).bufferCount.toNat)

/-- The contents of the buffers, in list order (R80). -/
def State.contentsOf (s : State) (bufs : List Buffer) : List Byte :=
  bufs.flatMap fun b => s.mem.bytesAt b.base.toNat b.length.toNat

/-- One chunk of the outbound drain (R161): its buffer's index in the list, its offset in that buffer, its address and
its size. -/
structure Chunk where
  buffer : Nat
  offset : Nat
  address : Nat
  size : Nat
deriving DecidableEq, Repr

/-- The chunks of the buffer with this index (R161): at every `WINDOW_BYTES` from its base, the last one the rest. -/
def Buffer.chunks (b : Buffer) (index : Nat) : List Chunk :=
  (List.range ((b.length.toNat + (Config.windowBytes - 1)) / Config.windowBytes)).map fun j =>
    ⟨index, Config.windowBytes * j, b.base.toNat + Config.windowBytes * j,
      min Config.windowBytes (b.length.toNat - Config.windowBytes * j)⟩

/-- The chunks of the buffers in list order, the first of them with this index (R160 step 2). -/
def chunksFrom : (index : Nat) → List Buffer → List Chunk
  | _, [] => []
  | index, b :: rest => b.chunks index ++ chunksFrom (index + 1) rest

/-- The chunks the SGL at `a` is drained in (R160, R161). -/
def State.chunksAt (s : State) (a : Word64) : List Chunk := chunksFrom 0 (s.buffersAt a)

/-- The chunk's range does not pass `2^64`. -/
def Chunk.Fits (c : Chunk) : Prop := fitsSpace c.address c.size

/-- The chunk's bytes as memory holds them. -/
def State.chunkBytes (s : State) (c : Chunk) : List Byte := s.mem.bytesAt c.address c.size

/-- A chunk that is drained on quiet ports: read, then pushed (R72 a, R161). -/
def State.chunkEvents (s : State) (c : Chunk) : List Event :=
  [.memRead c.address c.size (some (s.chunkBytes c)), .beWrite (s.chunkBytes c)]

/-- The descriptor fetch on quiet memory (R67, R140): the header, then the list, if there is one. -/
def State.fetchEvents (s : State) (a : Word64) : List Event :=
  .memRead a.toNat s.cfg.hdrBytes (some (s.mem.bytesAt a.toNat s.cfg.hdrBytes)) ::
    (if (s.headerAt a).bufferCount = 0 then []
     else [.memRead (a.toNat + s.cfg.hdrBytes) (Config.bufBytes * (s.headerAt a).bufferCount.toNat)
       (some (s.mem.bytesAt (a.toNat + s.cfg.hdrBytes) (Config.bufBytes * (s.headerAt a).bufferCount.toNat)))])

/-- The address of each byte of space left from the cursor onward, in the order of the byte stream (R28, R185). -/
def Device.freeSlots (d : Device) : List Nat :=
  ((d.registered.drop d.curIdx).flatMap fun b => List.range' b.base.toNat b.length.toNat).drop d.curOff.toNat

/-- Byte `k` of `v` stored at the `k`-th of the addresses, in order (R185). -/
def Memory.putAt (m : Memory) (slots : List Nat) (v : List Byte) : Memory :=
  (slots.zip v).foldl (fun m c => m.put c.1 c.2) m

/-- The cursor as one position in the byte stream of the registered buffers (R28 to R30). -/
def Device.cursorPosition (d : Device) : Nat := sumLengths (d.registered.take d.curIdx) + d.curOff.toNat

/-- The cursor stands where R185 puts it after the input's last byte: at the end of a buffer it has stepped to the next
one, and over no buffer after that. -/
def Device.CursorAtLastByte (d : Device) : Prop :=
  d.curOff = 0 → 0 < d.curIdx ∧ ∃ b, d.registered[d.curIdx - 1]? = some b ∧ b.length ≠ 0

/-- The report is an error that ends the command: every kind but E4 (R240). -/
def Report.endsCommand : Report → Bool
  | .malformedDescriptor _ _ => true
  | .overrun _ _ => true
  | .backendWriteFailure _ _ => true
  | .staleRegistration _ _ => false
  | .guestAccessFailure _ _ => true

/-- The event is the report of an error that ends the command. -/
def Event.endsCommand : Event → Bool
  | .report r => r.endsCommand
  | _ => false

/-- The event is an access to guest memory (R62). -/
def Event.isMemoryAccess : Event → Bool
  | .memRead _ _ _ => true
  | .memWrite _ _ _ => true
  | _ => false

/-- The event raises the interrupt: a message, or a rise of the line (R211, R212). -/
def Event.raisesInterrupt : Event → Bool
  | .msiSend => true
  | .lineChange level => level
  | _ => false

/-- The bytes of a successful backend write (R63). -/
def Event.pushed : Event → List Byte
  | .beWrite bytes => bytes
  | _ => []

/-- The bytes of a guest-memory write that was granted (R66). -/
def Event.stored : Event → List Byte
  | .memWrite _ bytes true => bytes
  | _ => []

/-- The events a raise of the interrupt leaves (R211, R212): one message, or an edge of the line if it was low. -/
def raiseEvents (m : IrqMode) (line : Bool) : List Event :=
  match m with
  | .message => [.msiSend]
  | .level => if line then [] else [.lineChange true]

end Sys2Proof.Machine
end

