-- ==== Sys2Proof/Certificates/Slice0/Obligations.lean ====
section
/-! DEFINITION. The statements for the provers: what the rules of spec/ say the machine does, each with the rule it
formalises. -/

open Sys2Proof Sys2Proof.Machine Host

/-! ### Encoding and the step -/

/-- Every command in the operand ranges of R91 to R93 and R101 decodes from its own transaction tuple, whatever the
parameters. -/
def Obligations.DecodeEncodeRoundTrip : Prop :=
  ∀ (p : Params) (i : Instr), i.wf p = true → decode p (encode p i) = .ok i

/-- What the decoder accepts is the transaction tuple of exactly the command it gives, and that command is well
formed. -/
def Obligations.EncodeDecodeRoundTrip : Prop :=
  ∀ (p : Params) (t : Transaction) (i : Instr), decode p t = .ok i → encode p i = t ∧ i.wf p = true

/-- R93: the dispatch of a register access by its start offset, at every offset and width, and as the first row of
spec/opcode_table.json whose `(offset & mask) = match` holds. -/
def Obligations.DispatchByStartOffset : Prop :=
  ∀ p : Params,
  (∀ (offset value : Word64) (w : AccessWidth), decodeWrite p offset value w =
    if offset = 0x00 then .outSubmit value w else if offset = 0x08 then .inRegister value w
    else if offset = 0x10 then .ack value w else .nopWr offset value w) ∧
  (∀ (offset : Word64) (w : AccessWidth),
    (0x10 ≤ offset.toNat ∧ offset.toNat < 0x10 + 64 → (decodeRead p offset w).tagIndex = some (offset.toNat - 0x10)) ∧
    (¬ (0x10 ≤ offset.toNat ∧ offset.toNat < 0x10 + 64) → decodeRead p offset w = .rdZero offset w)) ∧
  (∀ (offset : Word64) (w : AccessWidth), decodeRead p offset w =
    if offset &&& 0xFFFFFFFFFFFFFFF0 = 0x10 then .tagReadLow (offset.setWidth 4) w
    else if offset &&& 0xFFFFFFFFFFFFFFE0 = 0x20 then .tagReadMid (offset.setWidth 5) w
    else if offset &&& 0xFFFFFFFFFFFFFFF0 = 0x40 then .tagReadHigh (offset.setWidth 4) w
    else .rdZero offset w)

/-- Transaction tuples written out from R90 to R92, R101, R102, and from vectors V50 to V56, with their commands. -/
def Obligations.SpecTransactionsDecode : Prop :=
  decode Params.spec (.mmioWr 0x00 0x1000 8) = .ok (.outSubmit 0x1000 .w8) ∧
  decode Params.spec (.mmioWr 0x08 0x4000 8) = .ok (.inRegister 0x4000 .w8) ∧
  decode Params.spec (.mmioWr 0x10 3 8) = .ok (.ack 3 .w8) ∧
  decode Params.spec (.mmioWr 0x04 0x1000 4) = .ok (.nopWr 0x04 0x1000 .w4) ∧
  decode Params.spec (.mmioRd 0x10 1) = .ok (.tagReadLow 0 .w1) ∧
  decode Params.spec (.mmioRd 0x2F 4) = .ok (.tagReadMid 0x0F .w4) ∧
  decode Params.spec (.mmioRd 0x4F 1) = .ok (.tagReadHigh 0xF .w1) ∧
  decode Params.spec (.mmioRd 0x50 1) = .ok (.rdZero 0x50 .w1) ∧
  decode Params.spec .beCall = .ok .capq ∧
  decode Params.spec (.beData [0x68, 0x69]) = .ok (.deliver [0x68, 0x69]) ∧
  decode Params.spec .hostReset = .ok .reset

/-- R104, U14, R61, R91, R101: widths other than 1, 2, 4, 8, offsets beyond the region, values wider than the access and
deliveries of `2^(8·SIZE_BYTES)` bytes or more never reach the device: the step refuses them by name. -/
def Obligations.UnadmittedAccessesRefused : Prop :=
  ∀ (s : State) (rest : List Arrival) (offset value : Word64) (n : Nat),
    (n ≠ 1 ∧ n ≠ 2 ∧ n ≠ 4 ∧ n ≠ 8 → ∀ t ∈ [Transaction.mmioWr offset value n, .mmioRd offset n],
      s.arrivals = .command t :: rest → step s = .refused (.notADeviceAccess .widthNotAdmitted)) ∧
    (n = 1 ∨ n = 2 ∨ n = 4 ∨ n = 8 → s.cfg.regionBytes ≤ offset.toNat →
      ∀ t ∈ [Transaction.mmioWr offset value n, .mmioRd offset n],
      s.arrivals = .command t :: rest → step s = .refused (.notADeviceAccess .beyondRegion)) ∧
    (n = 1 ∨ n = 2 ∨ n = 4 ∨ n = 8 → offset.toNat < s.cfg.regionBytes → 2 ^ (8 * n) ≤ value.toNat →
      s.arrivals = .command (.mmioWr offset value n) :: rest →
      step s = .refused (.notADeviceAccess .valueWiderThanAccess)) ∧
    (∀ d : List Byte, 2 ^ (8 * s.cfg.sizeBytes.bytes) ≤ d.length → s.arrivals = .command (.beData d) :: rest →
      step s = .refused (.notADeviceAccess .deliveryTooLong))

/-- When the next arrival is a transaction that decodes and that `H` lets in, the step is exec of the decoded command on
the state with that arrival taken. -/
def Obligations.StepRunsDecodedCommand : Prop :=
  ∀ (s : State) (t : Transaction) (rest : List Arrival) (i : Instr), s.arrivals = .command t :: rest →
    decode s.cfg t = .ok i → notLetIn s i = none → step s = exec i { s with arrivals := rest }

/-- An idle device stays as it is; guest stores between commands change memory only; a transaction that is no device
access, or that `H` must not present (model's choice, log 15), is refused. -/
def Obligations.StepOnOtherArrivals : Prop :=
  ∀ (s : State),
    (s.arrivals = [] → step s = .next s) ∧
    (∀ stores rest, s.arrivals = .guestStores stores :: rest →
      step s = .next { s with arrivals := rest, mem := s.mem.putStores stores }) ∧
    (∀ t rest e, s.arrivals = .command t :: rest → decode s.cfg t = .error e →
      step s = .refused (.notADeviceAccess e)) ∧
    (∀ t rest i r, s.arrivals = .command t :: rest → decode s.cfg t = .ok i → notLetIn s i = some r →
      step s = .refused r)

/-! ### The wire format -/

/-- R11: `dec_N` and `enc_N` in both byte orders. -/
def Obligations.WireFieldsFollowByteOrder : Prop :=
  (∀ s : List Byte, dec .littleEndian s = ∑ i ∈ Finset.range s.length, (s.getD i 0).toNat * 256 ^ i) ∧
  (∀ s : List Byte, dec .bigEndian s =
    ∑ i ∈ Finset.range s.length, (s.getD i 0).toNat * 256 ^ (s.length - 1 - i)) ∧
  (∀ (n v : Nat), (enc .littleEndian n v).length = n ∧ (enc .bigEndian n v).length = n) ∧
  (∀ (n v i : Nat), i < n → (enc .littleEndian n v)[i]? = some (BitVec.ofNat 8 (v >>> (8 * i)))) ∧
  (∀ (n v i : Nat), i < n → (enc .bigEndian n v)[i]? = some (BitVec.ofNat 8 (v >>> (8 * (n - 1 - i)))))

/-- R96, R140, R142: `notify_flags` is read from and written to bytes 0 to 3 of the header, `status` bytes 4 to 7,
`actual_length` from byte 8 and `buffer_count` from byte `8 + SIZE_BYTES`, each `SIZE_BYTES` long; and the header the
codec writes is the header it reads, in either byte order; with `SIZE_BYTES = 4`, for `size` fields of 32 bits. -/
def Obligations.HeaderRoundTrip : Prop :=
  ∀ (p : Params),
    (∀ r : List Byte,
      (decodeHeader p r).notifyFlags = BitVec.ofNat 32 (dec p.byteOrder (r.take 4)) ∧
      (decodeHeader p r).status = BitVec.ofNat 32 (dec p.byteOrder ((r.drop 4).take 4)) ∧
      (decodeHeader p r).actualLength = BitVec.ofNat 64 (dec p.byteOrder ((r.drop 8).take p.sizeBytes.bytes)) ∧
      (decodeHeader p r).bufferCount =
        BitVec.ofNat 64 (dec p.byteOrder ((r.drop (8 + p.sizeBytes.bytes)).take p.sizeBytes.bytes))) ∧
    (∀ h : Header, (headerBytes p h).length = 8 + 2 * p.sizeBytes.bytes ∧
      (headerBytes p h).take 4 = enc p.byteOrder 4 h.notifyFlags.toNat ∧
      ((headerBytes p h).drop 4).take 4 = enc p.byteOrder 4 h.status.toNat ∧
      ((headerBytes p h).drop 8).take p.sizeBytes.bytes = enc p.byteOrder p.sizeBytes.bytes h.actualLength.toNat ∧
      (headerBytes p h).drop (8 + p.sizeBytes.bytes) = enc p.byteOrder p.sizeBytes.bytes h.bufferCount.toNat) ∧
    (∀ h : Header, h.actualLength.toNat < 2 ^ (8 * p.sizeBytes.bytes) →
      h.bufferCount.toNat < 2 ^ (8 * p.sizeBytes.bytes) → decodeHeader p (headerBytes p h) = h)

/-- R97: entry `i` of the list is read from bytes `16·i` to `16·i + 15`: base first, then length. -/
def Obligations.BufferEntriesLieSixteenApart : Prop :=
  ∀ (p : Params) (q : List Byte) (n i : Nat), i < n →
    (decodeBuffers p q n)[i]? = some
      { base := BitVec.ofNat 64 (dec p.byteOrder ((q.drop (16 * i)).take 8))
        length := BitVec.ofNat 64 (dec p.byteOrder ((q.drop (16 * i + 8)).take 8)) }

/-! ### Guest memory and the backend -/

/-- A write to canonical memory is read back, and every address outside it reads as before. -/
def Obligations.MemoryReadsWhatWasWritten : Prop :=
  ∀ (m : Memory) (a : Nat) (v : List Byte), m.wf = true → a + v.length ≤ addressSpace →
    (m.putBytes a v).bytesAt a v.length = v ∧ (m.putBytes a v).wf = true ∧
    ∀ x, x < a ∨ a + v.length ≤ x → (m.putBytes a v).byteAt x = m.byteAt x

/-- R66, the read: not attempted past `2^64`; else put once to `M`, after the guest stores that precede it, and answered
with FAIL or with the bytes asked for, each of them the byte held unless it is raced (R74). The model's own: each turn of
`M` and an empty list that grants (log 7), and the fault when `M` never answers (U13, log 13). -/
def Obligations.MemReadAsRuled : Prop :=
  ∀ (s : State) (addr n : Nat),
    (addressSpace < addr + n → memRead addr n s = .done none s) ∧
    (addr + n ≤ addressSpace → s.memTurns = [] → memRead addr n s = .done (some (s.mem.bytesAt addr n))
      { s with history := s.history ++ [.memRead addr n (some (s.mem.bytesAt addr n))] }) ∧
    (addr + n ≤ addressSpace → ∀ t rest, s.memTurns = t :: rest →
      let u : State := { s with memTurns := rest, mem := s.mem.putStores t.guestStores }
      (t.verdict = .refuses → memRead addr n s = .done none { u with history := s.history ++ [.memRead addr n none] }) ∧
      (t.verdict = .grants → ∃ bytes : List Byte, bytes.length = n ∧
        (∀ k, k < n → (∀ c ∈ t.seen, c.1.toNat ≠ addr + k) → bytes[k]? = some (u.mem.byteAt (addr + k))) ∧
        memRead addr n s = .done (some bytes) { u with history := s.history ++ [.memRead addr n (some bytes)] }) ∧
      (t.verdict = .never → memRead addr n s = .stuck .memoryNeverAnswers))

/-- R66, the write: not attempted past `2^64`; else put once to `M`, after the guest stores that precede it; granted,
all bytes are stored; refused, every byte of the range is the old one or the one written, and no other changes. The
model's own: each turn of `M` and an empty list that grants (log 7), the counter `freeDraws` behind the refused write
(log 10), and the fault when `M` never answers (U13, log 13). -/
def Obligations.MemWriteAsRuled : Prop :=
  ∀ (s : State) (addr : Nat) (v : List Byte), s.mem.wf = true →
    (addressSpace < addr + v.length → memWrite addr v s = .done false s) ∧
    (addr + v.length ≤ addressSpace → s.memTurns = [] → memWrite addr v s = .done true
      { s with mem := s.mem.putBytes addr v, history := s.history ++ [.memWrite addr v true] }) ∧
    (addr + v.length ≤ addressSpace → ∀ t rest, s.memTurns = t :: rest →
      let m := s.mem.putStores t.guestStores
      (t.verdict = .grants → memWrite addr v s = .done true
        { s with memTurns := rest, mem := m.putBytes addr v, history := s.history ++ [.memWrite addr v true] }) ∧
      (t.verdict = .refuses → ∃ u, memWrite addr v s = .done false u ∧
        u = { s with memTurns := rest, mem := u.mem, history := s.history ++ [.memWrite addr v false],
                     freeDraws := s.freeDraws + 1 } ∧
        (∀ x, ¬ inRange addr v.length x → u.mem.byteAt x = m.byteAt x) ∧
        (∀ k b, v[k]? = some b → u.mem.byteAt (addr + k) = m.byteAt (addr + k) ∨ u.mem.byteAt (addr + k) = b)) ∧
      (t.verdict = .never → memWrite addr v s = .stuck .memoryNeverAnswers))

/-- R63, R162, U10: a backend write appends all its bytes to the stream; or it fails, the backend having taken an unknown
number of them from none to all; or it blocks; nothing else. The model's own: an empty list of turns takes (log 8), the
number taken is a free value drawn by the counter `freeDraws` (log 10), a failed write adds nothing to `outStream`
(R63's "successfully written sequences", where V24 speaks of a prefix of the failed chunk: log 11), and the fault when
`B` never answers (U13, log 13). -/
def Obligations.BackendWriteAsRuled : Prop :=
  ∀ (s : State) (w : List Byte),
    (s.beTurns = [] → beWrite w s = .done true
      { s with outStream := s.outStream ++ w, history := s.history ++ [.beWrite w] }) ∧
    (∀ rest, s.beTurns = .takes :: rest → beWrite w s = .done true
      { s with beTurns := rest, outStream := s.outStream ++ w, history := s.history ++ [.beWrite w] }) ∧
    (∀ rest, s.beTurns = .fails :: rest → ∃ n, n ≤ w.length ∧ beWrite w s = .done false
      { s with beTurns := rest, history := s.history ++ [.beWriteFailed w n],
               freeDraws := s.freeDraws + 1 }) ∧
    (∀ rest, s.beTurns = .never :: rest → beWrite w s = .stuck .backendNeverAnswers)

/-! ### Register reads and writes without effect -/

/-- R230: a read at 0x10 to 0x4F completes and returns one zero-extended byte of the tag, or 0 beyond its length, at
every width, changing nothing but the record; the same for each of the three rows of the table. -/
def Obligations.TagReadReturnsOneByte : Prop :=
  ∀ (s : State) (w : AccessWidth),
    let answer := fun (i : Nat) => Outcome.next (φ := Fault) (ρ := Refusal)
      { s with history := s.history ++ [.readReturned (if h : i < s.cfg.tag.length then (s.cfg.tag[i]).setWidth 64 else 0)] }
    (∀ offset : Word64, 0x10 ≤ offset.toNat → offset.toNat < 0x50 →
      exec (decodeRead s.cfg offset w) s = answer (offset.toNat - 0x10)) ∧
    (∀ i : BitVec 4, exec (.tagReadLow i w) s = answer i.toNat) ∧
    (∀ i : BitVec 5, exec (.tagReadMid i w) s = answer (0x10 + i.toNat)) ∧
    (∀ i : BitVec 4, exec (.tagReadHigh i w) s = answer (0x30 + i.toNat))

/-- R123: a read outside 0x10 to 0x4F is `RD_ZERO`, which completes and returns the number 0 at every width, changing
nothing but the record. -/
def Obligations.OtherReadsReturnZero : Prop :=
  ∀ (s : State) (offset : Word64) (w : AccessWidth),
    (offset.toNat < 0x10 ∨ 0x50 ≤ offset.toNat → decodeRead s.cfg offset w = .rdZero offset w) ∧
    exec (.rdZero offset w) s = .next { s with history := s.history ++ [.readReturned 0] }

/-- R122: a write at an offset other than 0x00, 0x08, 0x10 is `NOP_WR`, which completes and changes nothing at all. -/
def Obligations.OtherWritesChangeNothing : Prop :=
  ∀ (s : State) (offset value : Word64) (w : AccessWidth),
    (offset ≠ 0x00 → offset ≠ 0x08 → offset ≠ 0x10 → decodeWrite s.cfg offset value w = .nopWr offset value w) ∧
    exec (.nopWr offset value w) s = .next s

/-- R41: what a register read returns depends on the tag and the offset alone, whatever the device's state. -/
def Obligations.ReadsRevealOnlyTheTag : Prop :=
  ∀ (s₁ s₂ : State) (offset : Word64) (w : AccessWidth), s₁.cfg.tag = s₂.cfg.tag →
    ∃ v : Word64, v.toNat < 256 ∧
      exec (decodeRead s₁.cfg offset w) s₁ = .next { s₁ with history := s₁.history ++ [.readReturned v] } ∧
      exec (decodeRead s₂.cfg offset w) s₂ = .next { s₂ with history := s₂.history ++ [.readReturned v] }

/-- R62: `ACK`, `CAPQ`, the reads, `NOP_WR` and `RESET` make no guest-memory access, push nothing and change no byte of
memory. -/
def Obligations.QuietCommandsTouchNoMemory : Prop :=
  ∀ (i : Instr) (s t : State), (∀ v w, i ≠ .outSubmit v w) → (∀ v w, i ≠ .inRegister v w) → (∀ d, i ≠ .deliver d) →
    exec i s = .next t →
    t.mem = s.mem ∧ t.outStream = s.outStream ∧ t.memTurns = s.memTurns ∧ t.beTurns = s.beTurns ∧
    ∃ es, t.history = s.history ++ es ∧ ∀ e ∈ es, e.isMemoryAccess = false

/-! ### Acknowledge -/

/-- R213 to R215: `ACK` completes in every state; it clears the outbound flag if bit 0 is set, else the inbound flag if
bit 1 is set, else nothing; the line follows under either line model in `Level` mode and stays in `Message` mode; nothing
else changes. -/
def Obligations.AckClearsFirstMatch : Prop :=
  ∀ (s : State) (v : Word64) (w : AccessWidth), ∃ t, exec (.ack v w) s = .next t ∧
    (v.getLsbD 0 = true →
      t.dev = { s.dev with outPending := false, irqLine := t.dev.irqLine } ∧
      (s.cfg.irqMode = .message → t.dev.irqLine = s.dev.irqLine) ∧
      (s.cfg.irqMode = .level → s.cfg.lineModel = .perDirectionOr → t.dev.irqLine = s.dev.inPending) ∧
      (s.cfg.irqMode = .level → s.cfg.lineModel = .singleLatchLiteral →
        t.dev.irqLine = if s.dev.outPending then false else s.dev.irqLine)) ∧
    (v.getLsbD 0 = false → v.getLsbD 1 = true →
      t.dev = { s.dev with inPending := false, irqLine := t.dev.irqLine } ∧
      (s.cfg.irqMode = .message → t.dev.irqLine = s.dev.irqLine) ∧
      (s.cfg.irqMode = .level → s.cfg.lineModel = .perDirectionOr → t.dev.irqLine = s.dev.outPending) ∧
      (s.cfg.irqMode = .level → s.cfg.lineModel = .singleLatchLiteral → t.dev.irqLine = s.dev.irqLine)) ∧
    (v.getLsbD 0 = false → v.getLsbD 1 = false → t = s) ∧
    t = { s with dev := t.dev, history := t.history }

/-- R218: the truth table of `ACK` in `Level` mode under `PerDirectionOr`. -/
def Obligations.AckTruthTable : Prop :=
  ∀ (s : State) (v : Word64) (w : AccessWidth), s.cfg.irqMode = .level → s.cfg.lineModel = .perDirectionOr →
    s.dev.irqLine = (s.dev.outPending || s.dev.inPending) →
    ∃ t, exec (.ack v w) s = .next t ∧
      (t.dev.outPending, t.dev.inPending, t.dev.irqLine) =
        match v.getLsbD 1, v.getLsbD 0, s.dev.outPending, s.dev.inPending with
        | false, false, o, i => (o, i, s.dev.irqLine)
        | _, true, false, false => (false, false, false)
        | _, true, true, false => (false, false, false)
        | _, true, false, true => (false, true, true)
        | _, true, true, true => (false, true, true)
        | true, false, false, false => (false, false, false)
        | true, false, true, false => (true, false, true)
        | true, false, false, true => (false, false, false)
        | true, false, true, true => (true, false, true)

/-- R216: an acknowledge never raises an interrupt: no message, no rise of the line. -/
def Obligations.AckNeverRaises : Prop :=
  ∀ (s t : State) (v : Word64) (w : AccessWidth), s.Inv → exec (.ack v w) s = .next t →
    (∃ es, t.history = s.history ++ es ∧ ∀ e ∈ es, e.raisesInterrupt = false) ∧
    (t.dev.irqLine = true → s.dev.irqLine = true)

/-! ### Outbound -/

/-- R160 on quiet ports: an SGL that can be fetched, none of whose chunks passes `2^64` (R168 h), is drained whole, in
list order; the header goes back with the status Done and nothing else changed; the flag and the line move as `Notify(Out)` says;
everything else of the machine stays. -/
def Obligations.OutSubmitCompletes : Prop :=
  ∀ (s : State) (a : Word64) (w : AccessWidth), s.Quiet → s.SglFetchable a →
    (∀ c ∈ s.chunksAt a, c.Fits) →
    ∃ t, exec (.outSubmit a w) s = .next t ∧
      t.outStream = s.outStream ++ s.contentsOf (s.buffersAt a) ∧
      t.mem = s.mem.putBytes a.toNat (headerBytes s.cfg { s.headerAt a with status := s.cfg.statusDone }) ∧
      t.dev = { s.dev with
        outPending := s.dev.outPending || decide ((s.headerAt a).notifyFlags &&& s.cfg.notifyMask ≠ 0)
        irqLine := if (s.headerAt a).notifyFlags &&& s.cfg.notifyMask ≠ 0 ∧ s.dev.outPending = false ∧
          s.cfg.irqMode = .level then true else s.dev.irqLine } ∧
      t.cfg = s.cfg ∧ t.backend = s.backend ∧ t.arrivals = s.arrivals ∧ t.freeDraws = s.freeDraws

/-- R67, R72 (a), R161, R163, R291: everything an `OUT_SUBMIT` that completes on quiet ports does, in order: it reads
the header, then the list, if there is one; then, buffer after buffer, each chunk of at most `WINDOW_BYTES` bytes is read
and pushed before the next one is read; then it raises, exactly if the header asks and the flag was clear; then it writes
the header. -/
def Obligations.OutboundInterruptPrecedesHeaderWrite : Prop :=
  ∀ (s : State) (a : Word64) (w : AccessWidth), s.Quiet → s.SglFetchable a → (∀ c ∈ s.chunksAt a, c.Fits) →
    ∃ t, exec (.outSubmit a w) s = .next t ∧
      t.history = s.history ++ s.fetchEvents a ++ (s.chunksAt a).flatMap s.chunkEvents ++
        (if (s.headerAt a).notifyFlags &&& s.cfg.notifyMask ≠ 0 ∧ s.dev.outPending = false
          then raiseEvents s.cfg.irqMode s.dev.irqLine else []) ++
        [.memWrite a.toNat (headerBytes s.cfg { s.headerAt a with status := s.cfg.statusDone }) true]

/-- R34: whatever the ports answer, the only effect of an `OUT_SUBMIT` on the device's state is that of `Notify(Out)`. -/
def Obligations.OutSubmitOnlyNotifies : Prop :=
  ∀ (s t : State) (a : Word64) (w : AccessWidth), exec (.outSubmit a w) s = .next t →
    (t.dev = s.dev ∨ t.dev = (notify .out s).dev) ∧ t.cfg = s.cfg ∧ t.backend = s.backend ∧ t.arrivals = s.arrivals

/-- R143, R160: with a still guest, `OUT_SUBMIT` changes no byte of memory outside the header at `a`, however it ends. -/
def Obligations.OutSubmitWritesOnlyItsHeader : Prop :=
  ∀ (s t : State) (a : Word64) (w : AccessWidth), s.GuestStill → exec (.outSubmit a w) s = .next t →
    ∀ x, ¬ inRange a.toNat s.cfg.hdrBytes x → t.mem.byteAt x = s.mem.byteAt x

/-- R165, R167, R168 (h), R243, R245, R247: what ends an `OUT_SUBMIT` after its descriptor fetch, and what stands then.
A backend that fails on chunk `k`, a window read of chunk `k` that `M` refuses, and one that would pass `2^64` end it
there: the chunks before it stay in the stream, the header is not written, no interrupt is raised, the device is as
before, and the report is the last event. A header write that `M` refuses ends it after all bytes are pushed and
`Notify(Out)` has run; memory outside the header is as the guest left it, each header byte the old or the new one. That a failed write adds nothing to `outStream`
is log 11's choice (V24 speaks of a prefix of the failed chunk), and what the reports carry is log 17's (U19; as R240's
table suggests). -/
def Obligations.BackendFailureEndsSubmission : Prop :=
  ∀ (s : State) (a : Word64) (w : AccessWidth), s.SglFetchable a →
    let fetched := (s.fetchEvents a).length
    (∀ (k : Nat) (c : Chunk) (rest : List BeTurn), (s.chunksAt a)[k]? = some c →
      (∀ c' ∈ (s.chunksAt a).take (k + 1), c'.Fits) → (∀ t ∈ s.memTurns, t = MemTurn.quiet) →
      s.beTurns = List.replicate k .takes ++ .fails :: rest →
      ∃ n, n ≤ c.size ∧ exec (.outSubmit a w) s = .next { s with
        memTurns := s.memTurns.drop (fetched + k + 1)
        beTurns := rest
        outStream := s.outStream ++ ((s.chunksAt a).take k).flatMap s.chunkBytes
        freeDraws := s.freeDraws + 1
        history := s.history ++ s.fetchEvents a ++ ((s.chunksAt a).take k).flatMap s.chunkEvents ++
          [.memRead c.address c.size (some (s.chunkBytes c)), .beWriteFailed (s.chunkBytes c) n,
            .report (.backendWriteFailure c.buffer c.offset)] }) ∧
    (∀ (k : Nat) (c : Chunk) (u : MemTurn) (rest : List MemTurn), (s.chunksAt a)[k]? = some c →
      (∀ c' ∈ (s.chunksAt a).take (k + 1), c'.Fits) → (∀ t ∈ s.beTurns, t = .takes) →
      s.memTurns = List.replicate (fetched + k) MemTurn.quiet ++ u :: rest → u.verdict = .refuses →
      exec (.outSubmit a w) s = .next { s with
        memTurns := rest
        beTurns := s.beTurns.drop k
        mem := s.mem.putStores u.guestStores
        outStream := s.outStream ++ ((s.chunksAt a).take k).flatMap s.chunkBytes
        history := s.history ++ s.fetchEvents a ++ ((s.chunksAt a).take k).flatMap s.chunkEvents ++
          [.memRead c.address c.size none, .report (.guestAccessFailure c.address c.size)] }) ∧
    (∀ (k : Nat) (c : Chunk), (s.chunksAt a)[k]? = some c → (∀ c' ∈ (s.chunksAt a).take k, c'.Fits) → ¬ c.Fits →
      s.Quiet → exec (.outSubmit a w) s = .next { s with
        memTurns := s.memTurns.drop (fetched + k)
        beTurns := s.beTurns.drop k
        outStream := s.outStream ++ ((s.chunksAt a).take k).flatMap s.chunkBytes
        history := s.history ++ s.fetchEvents a ++ ((s.chunksAt a).take k).flatMap s.chunkEvents ++
          [.report (.guestAccessFailure c.address c.size)] }) ∧
    (∀ (u : MemTurn) (rest : List MemTurn), (∀ c ∈ s.chunksAt a, c.Fits) → (∀ t ∈ s.beTurns, t = .takes) →
      s.memTurns = List.replicate (fetched + (s.chunksAt a).length) MemTurn.quiet ++ u :: rest →
      u.verdict = .refuses →
      let bytes := headerBytes s.cfg { s.headerAt a with status := s.cfg.statusDone }
      ∃ t, exec (.outSubmit a w) s = .next t ∧ t.outStream = s.outStream ++ s.contentsOf (s.buffersAt a) ∧
        t.dev = { s.dev with
          outPending := s.dev.outPending || decide ((s.headerAt a).notifyFlags &&& s.cfg.notifyMask ≠ 0)
          irqLine := if (s.headerAt a).notifyFlags &&& s.cfg.notifyMask ≠ 0 ∧ s.dev.outPending = false ∧
            s.cfg.irqMode = .level then true else s.dev.irqLine } ∧
        t.history = s.history ++ s.fetchEvents a ++ (s.chunksAt a).flatMap s.chunkEvents ++
          (if (s.headerAt a).notifyFlags &&& s.cfg.notifyMask ≠ 0 ∧ s.dev.outPending = false
            then raiseEvents s.cfg.irqMode s.dev.irqLine else []) ++
          [.memWrite a.toNat bytes false, .report (.guestAccessFailure a.toNat s.cfg.hdrBytes)] ∧
        (∀ x, ¬ inRange a.toNat s.cfg.hdrBytes x → t.mem.byteAt x = (s.mem.putStores u.guestStores).byteAt x) ∧
        (s.mem.wf = true → ∀ j b, bytes[j]? = some b →
          t.mem.byteAt (a.toNat + j) = (s.mem.putStores u.guestStores).byteAt (a.toNat + j) ∨
          t.mem.byteAt (a.toNat + j) = b) ∧
        t.cfg = s.cfg ∧ t.backend = s.backend ∧ t.arrivals = s.arrivals)

/-! ### Errors of the descriptor fetch -/

/-- R141, R166, R241: an SGL with `buffer_count > MAX_BUFFERS` ends `OUT_SUBMIT` and `IN_REGISTER` after the one header
read with E1; the device, memory and the stream are as before. That the report carries the address and the count, as
R240's table suggests, is log 17's choice (U19). -/
def Obligations.MalformedDescriptorRejected : Prop :=
  ∀ (s : State) (a : Word64) (w : AccessWidth), s.Quiet → fitsSpace a.toNat s.cfg.hdrBytes →
    Config.maxBuffers < (s.headerAt a).bufferCount.toNat →
    ∀ i ∈ [Instr.outSubmit a w, .inRegister a w], ∃ t, exec i s = .next t ∧
      t.dev = s.dev ∧ t.mem = s.mem ∧ t.outStream = s.outStream ∧
      t.history = s.history ++ [.memRead a.toNat s.cfg.hdrBytes (some (s.mem.bytesAt a.toNat s.cfg.hdrBytes)),
        .report (.malformedDescriptor a (s.headerAt a).bufferCount)]

/-- R144 (b), R66: a header that would pass `2^64` ends `OUT_SUBMIT` and `IN_REGISTER` with E5 and no access at all; a
list that would pass it, with E5 after the one header read. That the report carries the address and the length asked for,
as R240's table suggests, is log 17's choice (U19). -/
def Obligations.DescriptorPastAddressSpaceFails : Prop :=
  ∀ (s : State) (a : Word64) (w : AccessWidth), ∀ i ∈ [Instr.outSubmit a w, .inRegister a w],
    (addressSpace < a.toNat + s.cfg.hdrBytes →
      exec i s = .next { s with history := s.history ++ [.report (.guestAccessFailure a.toNat s.cfg.hdrBytes)] }) ∧
    ((∀ t ∈ s.memTurns, t = MemTurn.quiet) → fitsSpace a.toNat s.cfg.hdrBytes → (s.headerAt a).bufferCount.toNat ≤ 64 →
      addressSpace < a.toNat + s.cfg.hdrBytes + 16 * (s.headerAt a).bufferCount.toNat →
      (s.headerAt a).bufferCount.toNat ≠ 0 →
      exec i s = .next { s with
        memTurns := s.memTurns.tail
        history := s.history ++ [.memRead a.toNat s.cfg.hdrBytes (some (s.mem.bytesAt a.toNat s.cfg.hdrBytes)),
          .report (.guestAccessFailure (a.toNat + s.cfg.hdrBytes) (16 * (s.headerAt a).bufferCount.toNat))] })

/-- R144 (d), R182, R245, R247: memory that refuses the header read, or grants it and refuses the list read, ends
`OUT_SUBMIT` and `IN_REGISTER` with E5; the length of the list read is that of the header as the first read saw it (R144
e); the device is as before and nothing is pushed. That the report carries the address and the length asked for, as
R240's table suggests, is log 17's choice (U19). -/
def Obligations.RefusedHeaderReadEndsCommand : Prop :=
  ∀ (s : State) (a : Word64) (w : AccessWidth), fitsSpace a.toNat s.cfg.hdrBytes →
    ∀ i ∈ [Instr.outSubmit a w, .inRegister a w],
    (∀ (t : MemTurn) (rest : List MemTurn), s.memTurns = t :: rest → t.verdict = .refuses →
      exec i s = .next { s with
        memTurns := rest
        mem := s.mem.putStores t.guestStores
        history := s.history ++ [.memRead a.toNat s.cfg.hdrBytes none,
          .report (.guestAccessFailure a.toNat s.cfg.hdrBytes)] }) ∧
    (∀ (t u : MemTurn) (rest : List MemTurn), s.memTurns = t :: u :: rest → t.verdict = .grants →
      u.verdict = .refuses →
      let header := (s.mem.putStores t.guestStores).seenBytes t.seen a.toNat s.cfg.hdrBytes
      let count := (decodeHeader s.cfg header).bufferCount.toNat
      0 < count → count ≤ 64 → fitsSpace (a.toNat + s.cfg.hdrBytes) (16 * count) →
      exec i s = .next { s with
        memTurns := rest
        mem := (s.mem.putStores t.guestStores).putStores u.guestStores
        history := s.history ++ [.memRead a.toNat s.cfg.hdrBytes (some header),
          .memRead (a.toNat + s.cfg.hdrBytes) (16 * count) none,
          .report (.guestAccessFailure (a.toNat + s.cfg.hdrBytes) (16 * count))] })

/-! ### Registration -/

/-- R180, R181 on quiet ports: `IN_REGISTER` installs the SGL as fetched with the cursor at the start, whatever was
registered before; a live registration is counted and reported; nothing else changes. That the report carries the old
and the new address, as R180's pseudocode and R240's table have it, is log 17's choice (U19). -/
def Obligations.InRegisterInstalls : Prop :=
  ∀ (s : State) (a : Word64) (w : AccessWidth), s.Quiet → s.SglFetchable a →
    let stale := s.dev.inValid && decide (s.dev.inHdr.status = s.cfg.statusPending)
    ∃ t es, exec (.inRegister a w) s = .next t ∧
      t.dev.inHdr = s.headerAt a ∧ t.dev.registered = s.buffersAt a ∧ t.dev.inDescAddr = a ∧ t.dev.curIdx = 0 ∧
      t.dev.curOff = 0 ∧ t.dev.totalCapacity = sumLengths (s.buffersAt a) ∧ t.dev.inValid = true ∧
      t.dev.staleCount = s.dev.staleCount + (if stale then 1 else 0) ∧
      t.dev.outPending = s.dev.outPending ∧ t.dev.inPending = s.dev.inPending ∧ t.dev.irqLine = s.dev.irqLine ∧
      t.mem = s.mem ∧ t.outStream = s.outStream ∧ t.cfg = s.cfg ∧ t.backend = s.backend ∧ t.arrivals = s.arrivals ∧
      t.history = s.history ++ es ++ (if stale then [.report (.staleRegistration s.dev.inDescAddr a)] else []) ∧
      (∀ e ∈ es, ∃ x n bytes, e = .memRead x n (some bytes))

/-- R182: an `IN_REGISTER` that an error ends leaves every piece of the device's state as it was. -/
def Obligations.RejectedRegistrationChangesNothing : Prop :=
  ∀ (s t : State) (a : Word64) (w : AccessWidth) (es : List Event), exec (.inRegister a w) s = .next t →
    t.history = s.history ++ es → (∃ e ∈ es, e.endsCommand = true) → t.dev = s.dev

/-- R180: whatever the ports answer, `IN_REGISTER` touches no flag, no line, no stream and, with a still guest, no byte
of memory. -/
def Obligations.InRegisterFrame : Prop :=
  ∀ (s t : State) (a : Word64) (w : AccessWidth), exec (.inRegister a w) s = .next t →
    t.dev.outPending = s.dev.outPending ∧ t.dev.inPending = s.dev.inPending ∧ t.dev.irqLine = s.dev.irqLine ∧
    t.outStream = s.outStream ∧ t.cfg = s.cfg ∧ t.backend = s.backend ∧ t.arrivals = s.arrivals ∧
    (s.GuestStill → ∀ x, t.mem.byteAt x = s.mem.byteAt x)

/-! ### Capacity -/

/-- R183: `CAPQ` completes in every state, answers the unconsumed capacity and changes nothing but the record. -/
def Obligations.CapqAnswersUnconsumedCapacity : Prop :=
  ∀ (s : State), ∃ n, exec .capq s = .next { s with history := s.history ++ [.capacityReturned n] } ∧
    (s.dev.inValid = false ∨ s.dev.inHdr.status = s.cfg.statusDone → n = 0) ∧
    (s.dev.inValid = true → s.dev.inHdr.status ≠ s.cfg.statusDone →
      (s.dev.registered.length ≤ s.dev.curIdx → n = 0) ∧
      (∀ b, s.dev.registered[s.dev.curIdx]? = some b →
        n = (b.length.toNat - s.dev.curOff.toNat) + sumLengths (s.dev.registered.drop (s.dev.curIdx + 1))))

/-- R183: right after an `IN_REGISTER` that completes with a Pending header, `CAPQ` answers `total_capacity`. -/
def Obligations.CapqAfterRegistration : Prop :=
  ∀ (s : State) (a : Word64) (w : AccessWidth), s.Quiet → s.SglFetchable a →
    (s.headerAt a).status = s.cfg.statusPending → s.cfg.statusPending ≠ s.cfg.statusDone →
    ∃ t, exec (.inRegister a w) s = .next t ∧
      exec .capq t = .next { t with history := t.history ++ [.capacityReturned t.dev.totalCapacity] }

/-- R192: a cached status that is neither constant: `CAPQ` answers the unconsumed capacity, `DELIVER` drops the bytes,
and `IN_REGISTER` counts nothing stale. -/
def Obligations.ForeignStatusLosesBytes : Prop :=
  ∀ (s : State), s.dev.inValid = true → s.dev.inHdr.status ≠ s.cfg.statusPending →
    s.dev.inHdr.status ≠ s.cfg.statusDone →
    exec .capq s = .next { s with history := s.history ++
      [.capacityReturned (unconsumed (s.dev.registered.drop s.dev.curIdx) s.dev.curOff.toNat)] } ∧
    (∀ d, exec (.deliver d) s = .next s) ∧
    (∀ a w t, exec (.inRegister a w) s = .next t → t.dev.staleCount = s.dev.staleCount)

/-! ### Delivery -/

/-- R184: without a live registration the bytes are dropped and nothing at all happens. -/
def Obligations.DeliveryDroppedWithoutLiveRegistration : Prop :=
  ∀ (s : State) (d : List Byte), s.dev.inValid = false ∨ s.dev.inHdr.status ≠ s.cfg.statusPending →
    exec (.deliver d) s = .next s

/-- R184, R185, R188 on quiet ports: a delivery that fits, filling no byte beyond `2^64`, is scattered over the free
space from the cursor onward in order; the cursor ends right after its last byte, at the next buffer if that fills one
(R185); the descriptor completes with this call's byte count, the header is written, and only then the interrupt is
raised, coalesced. -/
def Obligations.DeliveryScattersAndCompletes : Prop :=
  ∀ (s : State) (d : List Byte), s.Inv → s.Quiet → s.dev.inValid = true →
    s.dev.inHdr.status = s.cfg.statusPending → s.cfg.statusPending ≠ s.cfg.statusDone →
    d.length ≤ s.dev.freeSlots.length → (∀ x ∈ s.dev.freeSlots.take d.length, x < addressSpace) →
    fitsSpace s.dev.inDescAddr.toNat s.cfg.hdrBytes →
    let h : Header := { s.dev.inHdr with status := s.cfg.statusDone, actualLength := BitVec.ofNat 64 d.length }
    let wanted := s.dev.inHdr.notifyFlags &&& s.cfg.notifyMask ≠ 0
    ∃ t es, exec (.deliver d) s = .next t ∧
      t.mem = (s.mem.putAt s.dev.freeSlots d).putBytes s.dev.inDescAddr.toNat (headerBytes s.cfg h) ∧
      t.dev = { s.dev with
        curIdx := t.dev.curIdx
        curOff := t.dev.curOff
        inHdr := h
        inPending := s.dev.inPending || decide wanted
        irqLine := if wanted ∧ s.dev.inPending = false ∧ s.cfg.irqMode = .level then true else s.dev.irqLine } ∧
      t.dev.cursorPosition = s.dev.cursorPosition + d.length ∧ (d ≠ [] → t.dev.CursorAtLastByte) ∧
      t.history = s.history ++ es ++ [.memWrite s.dev.inDescAddr.toNat (headerBytes s.cfg h) true] ++
        (if wanted ∧ s.dev.inPending = false then raiseEvents s.cfg.irqMode s.dev.irqLine else []) ∧
      (∀ e ∈ es, e.raisesInterrupt = false) ∧
      t.outStream = s.outStream ∧ t.cfg = s.cfg ∧ t.backend = s.backend ∧ t.arrivals = s.arrivals

/-- R186 on quiet ports: under `FillThenFail` a delivery larger than the free space fills every registered buffer to
its end, leaves the cursor one past the last buffer, and ends with E2; the header is not written, no interrupt is
raised, the status stays Pending. That the report carries the delivery's length and the bytes scattered, as R186 and
R240's table have it, is log 17's choice (U19 leaves these fields open). -/
def Obligations.OverrunFillsThenFails : Prop :=
  ∀ (s : State) (d : List Byte), s.Inv → s.Quiet → s.dev.inValid = true →
    s.dev.inHdr.status = s.cfg.statusPending → s.cfg.overrunPolicy = .fillThenFail →
    s.dev.freeSlots.length < d.length → (∀ x ∈ s.dev.freeSlots, x < addressSpace) →
    ∃ t es, exec (.deliver d) s = .next t ∧
      t.dev = { s.dev with curIdx := s.dev.inHdr.bufferCount.toNat, curOff := 0 } ∧
      t.mem = s.mem.putAt s.dev.freeSlots d ∧
      t.history = s.history ++ es ++ [.report (.overrun d.length s.dev.freeSlots.length)] ∧
      (∀ e ∈ es, ∃ x bytes, e = .memWrite x bytes true ∧ ∀ y, inRange x bytes.length y → s.dev.ownsAddress y) ∧
      t.outStream = s.outStream ∧ t.cfg = s.cfg ∧ t.backend = s.backend ∧ t.arrivals = s.arrivals

/-- R187: under `Precheck` a delivery larger than what `CAPQ` answers is rejected whole: E2 and nothing else. That the
report carries `n` and 0, as R184's pseudocode and R240's table have it, is log 17's choice (U19). -/
def Obligations.OverrunPrecheckRejectsWhole : Prop :=
  ∀ (s : State) (d : List Byte), s.dev.inValid = true → s.dev.inHdr.status = s.cfg.statusPending →
    s.cfg.overrunPolicy = .precheck → capacity s.cfg s.dev < d.length →
    exec (.deliver d) s = .next { s with history := s.history ++ [.report (.overrun d.length 0)] }

/-- R189 on quiet ports: a delivery of no bytes completes a live registration, whatever its capacity, with
`actual_length` 0 and the cursor where it was. -/
def Obligations.EmptyDeliveryCompletes : Prop :=
  ∀ (s : State), s.Quiet → s.dev.inValid = true → s.dev.inHdr.status = s.cfg.statusPending →
    fitsSpace s.dev.inDescAddr.toNat s.cfg.hdrBytes →
    let h : Header := { s.dev.inHdr with status := s.cfg.statusDone, actualLength := 0 }
    ∃ t, exec (.deliver []) s = .next t ∧ t.dev.inHdr = h ∧ t.dev.curIdx = s.dev.curIdx ∧
      t.dev.curOff = s.dev.curOff ∧ t.mem = s.mem.putBytes s.dev.inDescAddr.toNat (headerBytes s.cfg h) ∧
      t.dev.inPending = (s.dev.inPending || decide (s.dev.inHdr.notifyFlags &&& s.cfg.notifyMask ≠ 0))

/-- R190, R245: a delivery that an access failure ends raises no interrupt, and the failure is its last event. Either a
payload write failed: the bytes before it are stored, the cursor stands after them and in the buffer of the failed write,
the report is of the write of the next part that fits there, and nothing of the device but the cursor has moved, so the
status is still Pending; or the header write failed: the payload is in place, the cursor stands after it, and the cache
already says Done with this call's count. That the report carries the address and the length asked for is log 17's
choice (U19; R184's pseudocode). -/
def Obligations.AccessFailureInDelivery : Prop :=
  ∀ (s t : State) (d : List Byte) (es : List Event), exec (.deliver d) s = .next t → t.history = s.history ++ es →
    (∃ x n, .report (.guestAccessFailure x n) ∈ es) →
    (∀ e ∈ es, e.raisesInterrupt = false) ∧ t.outStream = s.outStream ∧
    ((∃ b w before, s.dev.registered[t.dev.curIdx]? = some b ∧ w < d.length ∧ t.dev.curOff.toNat < b.length.toNat ∧
        es = before ++ [.report (.guestAccessFailure (b.base.toNat + t.dev.curOff.toNat)
          (min (d.length - w) (b.length.toNat - t.dev.curOff.toNat)))] ∧
        t.dev = { s.dev with curIdx := t.dev.curIdx, curOff := t.dev.curOff } ∧
        t.dev.cursorPosition = s.dev.cursorPosition + w ∧ before.flatMap Event.stored = d.take w) ∨
      (∃ before, es = before ++ [.report (.guestAccessFailure s.dev.inDescAddr.toNat s.cfg.hdrBytes)] ∧
        t.dev = { s.dev with curIdx := t.dev.curIdx, curOff := t.dev.curOff,
                             inHdr := { s.dev.inHdr with status := s.cfg.statusDone
                                                         actualLength := BitVec.ofNat 64 d.length } } ∧
        t.dev.cursorPosition = s.dev.cursorPosition + d.length ∧ before.flatMap Event.stored = d))

/-- R242: with a still guest no delivery, however it ends, changes a byte outside the registered buffers and the
registered header. -/
def Obligations.DeliveryStaysInBounds : Prop :=
  ∀ (s t : State) (d : List Byte), s.GuestStill → exec (.deliver d) s = .next t →
    ∀ x, ¬ s.dev.ownsAddress x → ¬ inRange s.dev.inDescAddr.toNat s.cfg.hdrBytes x →
      t.mem.byteAt x = s.mem.byteAt x

/-- R184: the state a delivery may write, however it ends: the cursor, the cached status and length, the inbound flag
and the line. -/
def Obligations.DeliveryFrame : Prop :=
  ∀ (s t : State) (d : List Byte), exec (.deliver d) s = .next t →
    t.dev = { s.dev with
      curIdx := t.dev.curIdx
      curOff := t.dev.curOff
      inHdr := { s.dev.inHdr with status := t.dev.inHdr.status, actualLength := t.dev.inHdr.actualLength }
      inPending := t.dev.inPending
      irqLine := t.dev.irqLine } ∧
    t.outStream = s.outStream ∧ t.cfg = s.cfg ∧ t.backend = s.backend ∧ t.arrivals = s.arrivals

/-- R188, R191: once the cached status is Done, the capacity is 0 and every delivery is dropped. -/
def Obligations.CompletedRegistrationTakesNoMore : Prop :=
  ∀ (s : State) (d : List Byte), s.dev.inHdr.status = s.cfg.statusDone → s.cfg.statusPending ≠ s.cfg.statusDone →
    exec .capq s = .next { s with history := s.history ++ [.capacityReturned 0] } ∧ exec (.deliver d) s = .next s

/-! ### Reset and construction -/

/-- R280, R281: `RESET` completes in every state with every register at its reset value (R43) and touches nothing else:
no memory access, no event. -/
def Obligations.ResetClearsDeviceOnly : Prop :=
  ∀ (s : State), ∃ t, exec .reset s = .next t ∧
    t.dev.outPending = false ∧ t.dev.inPending = false ∧ t.dev.irqLine = false ∧ t.dev.inValid = false ∧
    t.dev.inDescAddr = 0 ∧ t.dev.inHdr = ⟨0, 0, 0, 0⟩ ∧ t.dev.curIdx = 0 ∧ t.dev.curOff = 0 ∧
    t.dev.totalCapacity = 0 ∧ t.dev.staleCount = 0 ∧ t = { s with dev := t.dev }

/-- R282, R43: `CONSTRUCT` with a backend fixes the tag, the mode and the backend and leaves the device at its reset
values; without a backend no device exists. That it keeps memory, the stream, the inputs and the other parameters, and
that it is let in once, before any other command, is the model's choice (log 15). -/
def Obligations.ConstructFixesConfiguration : Prop :=
  ∀ (s : State) (tag : List Byte) (mode : IrqMode),
    (∀ b, ∃ t, exec (.construct tag mode (some b)) s = .next t ∧
      t.dev.outPending = false ∧ t.dev.inPending = false ∧ t.dev.irqLine = false ∧ t.dev.inValid = false ∧
      t.dev.inDescAddr = 0 ∧ t.dev.inHdr = ⟨0, 0, 0, 0⟩ ∧ t.dev.curIdx = 0 ∧ t.dev.curOff = 0 ∧
      t.dev.totalCapacity = 0 ∧ t.dev.staleCount = 0 ∧
      t.cfg = { s.cfg with tag := tag, irqMode := mode } ∧ t.backend = some b ∧
      t = { s with dev := t.dev, cfg := t.cfg, backend := t.backend }) ∧
    (exec (.construct tag mode none) s =
      .next { s with backend := none, history := s.history ++ [.constructionFailed] }) ∧
    (∀ b, s.backend = some b → ∀ e, notLetIn s (.construct tag mode e) = some .alreadyConstructed) ∧
    (s.backend = none → ∀ i, (∀ x y z, i ≠ .construct x y z) → notLetIn s i = some .noDevice)

/-! ### Whole-machine rules -/

/-- R22: the outbound flag is set only by `OUT_SUBMIT`, and cleared only by `ACK` with bit 0 set, by `RESET` and by the
construction of a device. -/
def Obligations.OutPendingChangesOnlyByRule : Prop :=
  ∀ (i : Instr) (s t : State), exec i s = .next t →
    (s.dev.outPending = false → t.dev.outPending = true → ∃ v w, i = .outSubmit v w) ∧
    (s.dev.outPending = true → t.dev.outPending = false →
      (∃ v w, i = .ack v w ∧ v.getLsbD 0 = true) ∨ i = .reset ∨ ∃ x y z, i = .construct x y z)

/-- R23: the inbound flag is set only by `DELIVER`, and cleared only by `ACK` with bit 0 clear and bit 1 set, by `RESET`
and by the construction of a device. -/
def Obligations.InPendingChangesOnlyByRule : Prop :=
  ∀ (i : Instr) (s t : State), exec i s = .next t →
    (s.dev.inPending = false → t.dev.inPending = true → ∃ d, i = .deliver d) ∧
    (s.dev.inPending = true → t.dev.inPending = false →
      (∃ v w, i = .ack v w ∧ v.getLsbD 0 = false ∧ v.getLsbD 1 = true) ∨ i = .reset ∨ ∃ x y z, i = .construct x y z)

/-- R25: `in_valid` is set only by `IN_REGISTER` and cleared only by `RESET` and by the construction of a device. -/
def Obligations.InValidChangesOnlyByRule : Prop :=
  ∀ (i : Instr) (s t : State), exec i s = .next t →
    (s.dev.inValid = false → t.dev.inValid = true → ∃ v w, i = .inRegister v w) ∧
    (s.dev.inValid = true → t.dev.inValid = false → i = .reset ∨ ∃ x y z, i = .construct x y z)

/-- R26 to R28, R31: the registered address, the cached `notify_flags` and `buffer_count`, the buffer table and the
total capacity change only by `IN_REGISTER`, `RESET` and construction; the cached status and length also by `DELIVER`,
and then to Done and the call's byte count. -/
def Obligations.RegistrationChangesOnlyByRule : Prop :=
  ∀ (i : Instr) (s t : State), exec i s = .next t → (∀ v w, i ≠ .inRegister v w) → i ≠ .reset →
    (∀ x y z, i ≠ .construct x y z) →
    t.dev.inDescAddr = s.dev.inDescAddr ∧ t.dev.inHdr.notifyFlags = s.dev.inHdr.notifyFlags ∧
    t.dev.inHdr.bufferCount = s.dev.inHdr.bufferCount ∧ t.dev.inBuf = s.dev.inBuf ∧
    t.dev.totalCapacity = s.dev.totalCapacity ∧
    (t.dev.inHdr = s.dev.inHdr ∨ ∃ d, i = .deliver d ∧ t.dev.inHdr.status = s.cfg.statusDone ∧
      t.dev.inHdr.actualLength = BitVec.ofNat 64 d.length)

/-- R32, R181: `stale_count` never falls but by `RESET` and construction, and rises by one, by an `IN_REGISTER` that
replaces a live registration. -/
def Obligations.StaleCountCountsReplacements : Prop :=
  ∀ (i : Instr) (s t : State), exec i s = .next t → i ≠ .reset → (∀ x y z, i ≠ .construct x y z) →
    t.dev.staleCount = s.dev.staleCount ∨
    (∃ v w, i = .inRegister v w) ∧ s.dev.inValid = true ∧ s.dev.inHdr.status = s.cfg.statusPending ∧
      t.dev.staleCount = s.dev.staleCount + 1

/-- R231, R281: no command but `CONSTRUCT` changes the tag, the interrupt mode or any other parameter, or the backend. -/
def Obligations.ConfigurationIsConstant : Prop :=
  ∀ (i : Instr) (s t : State), exec i s = .next t → (∀ x y z, i ≠ .construct x y z) →
    t.cfg = s.cfg ∧ t.backend = s.backend

/-- R63: the outbound stream grows by exactly the bytes of the successful backend writes, in order, whatever the
command. That a write that fails adds nothing to it follows R63's "successfully written sequences" and is log 11's choice
(V24 speaks of a prefix of the failed chunk). -/
def Obligations.OutboundStreamIsWhatWasWritten : Prop :=
  ∀ (i : Instr) (s t : State) (es : List Event), exec i s = .next t → t.history = s.history ++ es →
    t.outStream = s.outStream ++ es.flatMap Event.pushed

/-- R253: one command reports at most one error that ends it. -/
def Obligations.AtMostOneEndingError : Prop :=
  ∀ (i : Instr) (s t : State) (es : List Event), exec i s = .next t → t.history = s.history ++ es →
    (es.filter Event.endsCommand).length ≤ 1

/-- R73: a step never rewrites the record of earlier accesses; it only adds to it. -/
def Obligations.RecordOnlyGrows : Prop :=
  ∀ (s t : State), step s = .next t → s.history <+: t.history

/-- R13, R311: from a state that meets the invariant, every command ends in a next state if every port call is
answered. -/
def Obligations.EveryCommandEnds : Prop :=
  ∀ (i : Instr) (s : State), s.Inv → s.PortsAnswer → ∃ t, exec i s = .next t

/-- R103: no command is ever refused by its meaning; a step refuses exactly the next arrival that does not decode, because
it does not reach the device (log 16), or that `H` must not present (log 15), and nothing else. -/
def Obligations.NoCommandIsRefused : Prop :=
  (∀ (i : Instr) (s : State) (r : Refusal), exec i s ≠ .refused r) ∧
  (∀ (s : State) (r : Refusal), step s = .refused r ↔ ∃ t rest, s.arrivals = .command t :: rest ∧
    ((∃ e, decode s.cfg t = .error e ∧ r = .notADeviceAccess e) ∨
      ∃ i, decode s.cfg t = .ok i ∧ notLetIn s i = some r))

/-- The state after reset meets the invariant of R42, for all parameters and any backend. -/
def Obligations.ResetMeetsInvariant : Prop :=
  (∀ (p : Params) (b : Option Endpoint), (State.resetWith p b).Inv) ∧ State.reset.Inv

/-- R42 with R30 and R31, and the canonical form of memory: every step keeps the invariant. -/
def Obligations.StepKeepsInvariant : Prop :=
  ∀ (s t : State), s.Inv → step s = .next t → t.Inv
end

