-- ==== Sys2Proof/Laws/State.lean ====
section
/-! SUPPORT. One lemma per field per update of the state: an update unfolds once, here. -/

namespace Sys2Proof

/-- A fixed row has the value the source gives (R5). -/
@[simp] theorem Given.val_eq {α : Type} {v : α} (g : Given v) : g.val = v := g.given

/-- `ADDR_BITS` is the width of an address, and the address space is that of R60. -/
@[simp] theorem Params.addressSpace_eq (p : Params) : p.addressSpace = Sys2Proof.addressSpace :=
  congrArg (2 ^ ·) p.addrBits.given

theorem word64_has_addrBits : Word64 = BitVec Config.addrBits := rfl

end Sys2Proof

namespace Sys2Proof.Machine

section record
variable (s : State) (e : Event)
@[simp] theorem State.record_dev : (s.record e).dev = s.dev := rfl
@[simp] theorem State.record_cfg : (s.record e).cfg = s.cfg := rfl
@[simp] theorem State.record_backend : (s.record e).backend = s.backend := rfl
@[simp] theorem State.record_mem : (s.record e).mem = s.mem := rfl
@[simp] theorem State.record_outStream : (s.record e).outStream = s.outStream := rfl
@[simp] theorem State.record_arrivals : (s.record e).arrivals = s.arrivals := rfl
@[simp] theorem State.record_memTurns : (s.record e).memTurns = s.memTurns := rfl
@[simp] theorem State.record_beTurns : (s.record e).beTurns = s.beTurns := rfl
@[simp] theorem State.record_history : (s.record e).history = s.history ++ [e] := rfl
@[simp] theorem State.record_freeDraws : (s.record e).freeDraws = s.freeDraws := rfl
end record

section report
variable (r : Report) (s : State)
@[simp] theorem report_dev : (report r s).dev = s.dev := rfl
@[simp] theorem report_cfg : (report r s).cfg = s.cfg := rfl
@[simp] theorem report_backend : (report r s).backend = s.backend := rfl
@[simp] theorem report_mem : (report r s).mem = s.mem := rfl
@[simp] theorem report_outStream : (report r s).outStream = s.outStream := rfl
@[simp] theorem report_arrivals : (report r s).arrivals = s.arrivals := rfl
@[simp] theorem report_memTurns : (report r s).memTurns = s.memTurns := rfl
@[simp] theorem report_beTurns : (report r s).beTurns = s.beTurns := rfl
@[simp] theorem report_history : (report r s).history = s.history ++ [.report r] := rfl
@[simp] theorem report_freeDraws : (report r s).freeDraws = s.freeDraws := rfl
end report

section resetDevice
variable (s : State)
@[simp] theorem resetDevice_dev : (resetDevice s).dev = Device.reset := rfl
@[simp] theorem resetDevice_cfg : (resetDevice s).cfg = s.cfg := rfl
@[simp] theorem resetDevice_backend : (resetDevice s).backend = s.backend := rfl
@[simp] theorem resetDevice_mem : (resetDevice s).mem = s.mem := rfl
@[simp] theorem resetDevice_outStream : (resetDevice s).outStream = s.outStream := rfl
@[simp] theorem resetDevice_arrivals : (resetDevice s).arrivals = s.arrivals := rfl
@[simp] theorem resetDevice_memTurns : (resetDevice s).memTurns = s.memTurns := rfl
@[simp] theorem resetDevice_beTurns : (resetDevice s).beTurns = s.beTurns := rfl
@[simp] theorem resetDevice_history : (resetDevice s).history = s.history := rfl
@[simp] theorem resetDevice_freeDraws : (resetDevice s).freeDraws = s.freeDraws := rfl
end resetDevice

section takeBeTurn
variable (s : State)
@[simp] theorem takeBeTurn_dev : (takeBeTurn s).2.dev = s.dev := by unfold takeBeTurn; split <;> rfl
@[simp] theorem takeBeTurn_cfg : (takeBeTurn s).2.cfg = s.cfg := by unfold takeBeTurn; split <;> rfl
@[simp] theorem takeBeTurn_backend : (takeBeTurn s).2.backend = s.backend := by unfold takeBeTurn; split <;> rfl
@[simp] theorem takeBeTurn_mem : (takeBeTurn s).2.mem = s.mem := by unfold takeBeTurn; split <;> rfl
@[simp] theorem takeBeTurn_outStream : (takeBeTurn s).2.outStream = s.outStream := by unfold takeBeTurn; split <;> rfl
@[simp] theorem takeBeTurn_arrivals : (takeBeTurn s).2.arrivals = s.arrivals := by unfold takeBeTurn; split <;> rfl
@[simp] theorem takeBeTurn_memTurns : (takeBeTurn s).2.memTurns = s.memTurns := by unfold takeBeTurn; split <;> rfl
@[simp] theorem takeBeTurn_beTurns : (takeBeTurn s).2.beTurns = s.beTurns.tail := by
  unfold takeBeTurn; split <;> simp_all
@[simp] theorem takeBeTurn_history : (takeBeTurn s).2.history = s.history := by unfold takeBeTurn; split <;> rfl
@[simp] theorem takeBeTurn_freeDraws : (takeBeTurn s).2.freeDraws = s.freeDraws := by unfold takeBeTurn; split <;> rfl
theorem takeBeTurn_turn : (takeBeTurn s).1 = s.beTurns.headD .takes := by unfold takeBeTurn; split <;> simp_all
end takeBeTurn

section takeMemTurn
variable (s : State)
@[simp] theorem takeMemTurn_dev : (takeMemTurn s).2.dev = s.dev := by unfold takeMemTurn; split <;> rfl
@[simp] theorem takeMemTurn_cfg : (takeMemTurn s).2.cfg = s.cfg := by unfold takeMemTurn; split <;> rfl
@[simp] theorem takeMemTurn_backend : (takeMemTurn s).2.backend = s.backend := by unfold takeMemTurn; split <;> rfl
@[simp] theorem takeMemTurn_outStream : (takeMemTurn s).2.outStream = s.outStream := by
  unfold takeMemTurn; split <;> rfl
@[simp] theorem takeMemTurn_arrivals : (takeMemTurn s).2.arrivals = s.arrivals := by unfold takeMemTurn; split <;> rfl
@[simp] theorem takeMemTurn_memTurns : (takeMemTurn s).2.memTurns = s.memTurns.tail := by
  unfold takeMemTurn; split <;> simp_all
@[simp] theorem takeMemTurn_beTurns : (takeMemTurn s).2.beTurns = s.beTurns := by unfold takeMemTurn; split <;> rfl
@[simp] theorem takeMemTurn_history : (takeMemTurn s).2.history = s.history := by unfold takeMemTurn; split <;> rfl
@[simp] theorem takeMemTurn_freeDraws : (takeMemTurn s).2.freeDraws = s.freeDraws := by
  unfold takeMemTurn; split <;> rfl
theorem takeMemTurn_turn : (takeMemTurn s).1 = s.memTurns.headD MemTurn.quiet := by
  unfold takeMemTurn; split <;> simp_all
theorem takeMemTurn_mem : (takeMemTurn s).2.mem = s.mem.putStores (takeMemTurn s).1.guestStores := by
  unfold takeMemTurn; split <;> rfl
end takeMemTurn

section setPending
variable (d : Device) (dir : Direction) (b : Bool)
@[simp] theorem Device.setPending_irqLine : (d.setPending dir b).irqLine = d.irqLine := by cases dir <;> rfl
@[simp] theorem Device.setPending_inValid : (d.setPending dir b).inValid = d.inValid := by cases dir <;> rfl
@[simp] theorem Device.setPending_inDescAddr : (d.setPending dir b).inDescAddr = d.inDescAddr := by cases dir <;> rfl
@[simp] theorem Device.setPending_inHdr : (d.setPending dir b).inHdr = d.inHdr := by cases dir <;> rfl
@[simp] theorem Device.setPending_inBuf : (d.setPending dir b).inBuf = d.inBuf := by cases dir <;> rfl
@[simp] theorem Device.setPending_curIdx : (d.setPending dir b).curIdx = d.curIdx := by cases dir <;> rfl
@[simp] theorem Device.setPending_curOff : (d.setPending dir b).curOff = d.curOff := by cases dir <;> rfl
@[simp] theorem Device.setPending_totalCapacity : (d.setPending dir b).totalCapacity = d.totalCapacity := by
  cases dir <;> rfl
@[simp] theorem Device.setPending_staleCount : (d.setPending dir b).staleCount = d.staleCount := by cases dir <;> rfl
@[simp] theorem Device.setPending_registered : (d.setPending dir b).registered = d.registered := by cases dir <;> rfl
@[simp] theorem Device.setPending_pending : (d.setPending dir b).pending dir = b := by cases dir <;> rfl
end setPending

section install
variable (d : Device) (a : Word64) (h : Header) (bl : List Buffer)
@[simp] theorem Device.install_outPending : (d.install a h bl).outPending = d.outPending := rfl
@[simp] theorem Device.install_inPending : (d.install a h bl).inPending = d.inPending := rfl
@[simp] theorem Device.install_irqLine : (d.install a h bl).irqLine = d.irqLine := rfl
@[simp] theorem Device.install_inValid : (d.install a h bl).inValid = true := rfl
@[simp] theorem Device.install_inDescAddr : (d.install a h bl).inDescAddr = a := rfl
@[simp] theorem Device.install_inHdr : (d.install a h bl).inHdr = h := rfl
@[simp] theorem Device.install_inBuf : (d.install a h bl).inBuf = installBuffers d.inBuf bl := rfl
@[simp] theorem Device.install_curIdx : (d.install a h bl).curIdx = 0 := rfl
@[simp] theorem Device.install_curOff : (d.install a h bl).curOff = 0 := rfl
@[simp] theorem Device.install_totalCapacity : (d.install a h bl).totalCapacity = sumLengths bl := rfl
@[simp] theorem Device.install_staleCount : (d.install a h bl).staleCount = d.staleCount := rfl
end install

section advance
variable (d : Device) (length k : Nat)
@[simp] theorem Device.advance_outPending : (d.advance length k).outPending = d.outPending := by
  unfold Device.advance; split <;> rfl
@[simp] theorem Device.advance_inPending : (d.advance length k).inPending = d.inPending := by
  unfold Device.advance; split <;> rfl
@[simp] theorem Device.advance_irqLine : (d.advance length k).irqLine = d.irqLine := by
  unfold Device.advance; split <;> rfl
@[simp] theorem Device.advance_inValid : (d.advance length k).inValid = d.inValid := by
  unfold Device.advance; split <;> rfl
@[simp] theorem Device.advance_inDescAddr : (d.advance length k).inDescAddr = d.inDescAddr := by
  unfold Device.advance; split <;> rfl
@[simp] theorem Device.advance_inHdr : (d.advance length k).inHdr = d.inHdr := by
  unfold Device.advance; split <;> rfl
@[simp] theorem Device.advance_inBuf : (d.advance length k).inBuf = d.inBuf := by
  unfold Device.advance; split <;> rfl
@[simp] theorem Device.advance_registered : (d.advance length k).registered = d.registered := by
  simp [Device.registered]
@[simp] theorem Device.advance_totalCapacity : (d.advance length k).totalCapacity = d.totalCapacity := by
  unfold Device.advance; split <;> rfl
@[simp] theorem Device.advance_staleCount : (d.advance length k).staleCount = d.staleCount := by
  unfold Device.advance; split <;> rfl
end advance

section driveLine
variable (level : Bool) (s : State)
@[simp] theorem driveLine_irqLine : (driveLine level s).dev.irqLine = level := by
  unfold driveLine; split <;> simp_all
theorem driveLine_dev : (driveLine level s).dev = { s.dev with irqLine := level } := by
  unfold driveLine; split
  · next h => subst h; rfl
  · rfl
@[simp] theorem driveLine_cfg : (driveLine level s).cfg = s.cfg := by unfold driveLine; split <;> rfl
@[simp] theorem driveLine_backend : (driveLine level s).backend = s.backend := by unfold driveLine; split <;> rfl
@[simp] theorem driveLine_mem : (driveLine level s).mem = s.mem := by unfold driveLine; split <;> rfl
@[simp] theorem driveLine_outStream : (driveLine level s).outStream = s.outStream := by
  unfold driveLine; split <;> rfl
@[simp] theorem driveLine_arrivals : (driveLine level s).arrivals = s.arrivals := by unfold driveLine; split <;> rfl
@[simp] theorem driveLine_memTurns : (driveLine level s).memTurns = s.memTurns := by unfold driveLine; split <;> rfl
@[simp] theorem driveLine_beTurns : (driveLine level s).beTurns = s.beTurns := by unfold driveLine; split <;> rfl
@[simp] theorem driveLine_freeDraws : (driveLine level s).freeDraws = s.freeDraws := by
  unfold driveLine; split <;> rfl
theorem driveLine_history : (driveLine level s).history
    = s.history ++ (if s.dev.irqLine = level then [] else [.lineChange level]) := by
  unfold driveLine; split <;> simp_all
end driveLine

end Sys2Proof.Machine
end

