-- ==== Sys2Proof/Laws/Memory.lean ====
section
/-! SUPPORT. The laws of memory: every operation keeps the canonical form, a read after a write gives the value written,
and a write leaves every other address alone. -/

namespace Sys2Proof.Machine

/-! ### The canonical form -/

theorem Memory.wfAbove_mono {m : Memory} {lo hi : Nat} (h : lo ≤ hi) (w : Memory.wfAbove (some hi) m = true) :
    Memory.wfAbove (some lo) m = true := by
  cases m with
  | nil => rfl
  | cons c rest =>
    obtain ⟨k, b⟩ := c
    simp only [Memory.wfAbove, Bool.and_eq_true, decide_eq_true_eq] at w ⊢
    exact ⟨⟨⟨by omega, w.1.1.2⟩, w.1.2⟩, w.2⟩

theorem Memory.wfAbove_none {m : Memory} {lo : Nat} (w : Memory.wfAbove (some lo) m = true) :
    Memory.wfAbove none m = true := by
  cases m with
  | nil => rfl
  | cons c rest =>
    obtain ⟨k, b⟩ := c
    simp only [Memory.wfAbove, Bool.and_eq_true, decide_eq_true_eq] at w ⊢
    exact ⟨⟨⟨trivial, w.1.1.2⟩, w.1.2⟩, w.2⟩

theorem Memory.wfAbove_put {m : Memory} {lo : Option Nat} {a : Nat} (b : Byte)
    (hlo : ∀ l, lo = some l → l < a) (ha : a < addressSpace) (w : Memory.wfAbove lo m = true) :
    Memory.wfAbove lo (m.put a b) = true := by
  induction m generalizing lo with
  | nil =>
    simp only [Memory.put]
    split
    · rfl
    · cases lo <;> simp_all [Memory.wfAbove]
  | cons c rest ih =>
    obtain ⟨k, c⟩ := c
    simp only [Memory.wfAbove, Bool.and_eq_true, decide_eq_true_eq] at w
    simp only [Memory.put]
    split
    · split
      · simp [Memory.wfAbove, w]
      · cases lo <;> simp_all [Memory.wfAbove]
    · split
      · next h =>
        subst h
        split
        · cases lo with
          | none => exact Memory.wfAbove_none w.2
          | some l => exact Memory.wfAbove_mono (Nat.le_of_lt (hlo l rfl)) w.2
        · cases lo <;> simp_all [Memory.wfAbove]
      · have := ih (lo := some k) (by intro l h; cases h; omega) w.2
        simp [Memory.wfAbove, w, this]

/-- A write keeps the canonical form. -/
theorem Memory.wf_put {m : Memory} {a : Nat} (b : Byte) (ha : a < addressSpace) (w : m.wf = true) :
    (m.put a b).wf = true := Memory.wfAbove_put b (by simp) ha w

theorem Memory.wf_putBytes {m : Memory} {a : Nat} {v : List Byte} (h : a + v.length ≤ addressSpace)
    (w : m.wf = true) : (m.putBytes a v).wf = true := by
  induction v generalizing m a with
  | nil => exact w
  | cons b rest ih =>
    simp only [List.length_cons] at h
    exact ih (by omega) (Memory.wf_put b (by omega) w)

theorem Memory.wf_putSome {m : Memory} {draw k a : Nat} {v : List Byte} (h : a + v.length ≤ addressSpace)
    (w : m.wf = true) : (m.putSome draw k a v).wf = true := by
  induction v generalizing m k a with
  | nil => exact w
  | cons b rest ih =>
    simp only [List.length_cons] at h
    unfold Memory.putSome
    refine ih (by omega) ?_
    split
    · exact Memory.wf_put b (by omega) w
    · exact w

theorem Memory.wf_putStores {m : Memory} {stores : Stores} (w : m.wf = true) : (m.putStores stores).wf = true := by
  induction stores generalizing m with
  | nil => exact w
  | cons c rest ih => exact ih (Memory.wf_put c.2 c.1.isLt w)

/-! ### Reading after writing -/

theorem Memory.byteAt_put_other (m : Memory) {a x : Nat} (b : Byte) (h : x ≠ a) :
    (m.put a b).byteAt x = m.byteAt x := by
  induction m with
  | nil => simp only [Memory.put]; split <;> simp [Memory.byteAt, Ne.symm h]
  | cons c rest ih =>
    obtain ⟨k, c⟩ := c
    simp only [Memory.put]
    split
    · split <;> simp [Memory.byteAt, Ne.symm h]
    · split
      · next hk => subst hk; split <;> simp [Memory.byteAt, Ne.symm h]
      · simp [Memory.byteAt, ih]

theorem Memory.byteAt_below {m : Memory} {lo x : Nat} (w : Memory.wfAbove (some lo) m = true) (h : x ≤ lo) :
    m.byteAt x = Memory.blank := by
  induction m generalizing lo with
  | nil => rfl
  | cons c rest ih =>
    obtain ⟨k, b⟩ := c
    simp only [Memory.wfAbove, Bool.and_eq_true, decide_eq_true_eq] at w
    simp only [Memory.byteAt]
    rw [if_neg (by omega)]
    exact ih w.2 (by omega)

theorem Memory.byteAt_put_same {m : Memory} {a : Nat} (b : Byte) (w : m.wf = true) : (m.put a b).byteAt a = b := by
  suffices ∀ lo, Memory.wfAbove lo m = true → (m.put a b).byteAt a = b from this none w
  clear w
  induction m with
  | nil =>
    intro lo _
    simp only [Memory.put]
    split
    · next h => exact h.symm
    · simp [Memory.byteAt]
  | cons c rest ih =>
    intro lo w
    obtain ⟨k, c⟩ := c
    simp only [Memory.wfAbove, Bool.and_eq_true, decide_eq_true_eq] at w
    simp only [Memory.put]
    split
    · next hk =>
      split
      · next hb =>
        rw [hb]
        simp only [Memory.byteAt]
        rw [if_neg (by omega)]
        exact Memory.byteAt_below w.2 (by omega)
      · simp [Memory.byteAt]
    · split
      · next hk =>
        subst hk
        split
        · next hb => rw [hb]; exact Memory.byteAt_below w.2 (Nat.le_refl _)
        · simp [Memory.byteAt]
      · next hk =>
        simp only [Memory.byteAt]
        rw [if_neg (Ne.symm hk)]
        exact ih _ w.2

theorem Memory.byteAt_putBytes_other (m : Memory) {a x : Nat} {v : List Byte} (h : x < a ∨ a + v.length ≤ x) :
    (m.putBytes a v).byteAt x = m.byteAt x := by
  induction v generalizing m a with
  | nil => rfl
  | cons b rest ih =>
    simp only [List.length_cons] at h
    simp only [Memory.putBytes]
    rw [ih _ (by omega), Memory.byteAt_put_other _ _ (by omega)]

theorem Memory.byteAt_putSome_other (m : Memory) {draw k a x : Nat} {v : List Byte}
    (h : x < a ∨ a + v.length ≤ x) : (m.putSome draw k a v).byteAt x = m.byteAt x := by
  induction v generalizing m k a with
  | nil => rfl
  | cons b rest ih =>
    simp only [List.length_cons] at h
    simp only [Memory.putSome]
    rw [ih _ (by omega)]
    split
    · exact Memory.byteAt_put_other _ _ (by omega)
    · rfl

/-! ### Ranges -/

@[simp] theorem Memory.length_bytesAt (m : Memory) (a n : Nat) : (m.bytesAt a n).length = n := by
  induction n generalizing a with
  | zero => rfl
  | succ n ih => simp [Memory.bytesAt, ih]

@[simp] theorem Memory.length_seenBytes (m : Memory) (seen : Stores) (a n : Nat) :
    (m.seenBytes seen a n).length = n := by
  induction n generalizing a with
  | zero => rfl
  | succ n ih => simp [Memory.seenBytes, ih]

@[simp] theorem Memory.seenBytes_nil (m : Memory) (a n : Nat) : m.seenBytes [] a n = m.bytesAt a n := by
  induction n generalizing a with
  | zero => rfl
  | succ n ih => simp [Memory.seenBytes, Memory.bytesAt, Memory.seenAt, ih]

theorem Memory.bytesAt_add (m : Memory) (a n k : Nat) :
    m.bytesAt a (n + k) = m.bytesAt a n ++ m.bytesAt (a + n) k := by
  induction n generalizing a with
  | zero => simp [Memory.bytesAt]
  | succ n ih =>
    rw [Nat.add_right_comm]
    simp only [Memory.bytesAt, List.cons_append, ih]
    rw [Nat.add_right_comm, Nat.add_assoc a n 1]

theorem Memory.bytesAt_congr {m m' : Memory} {a n : Nat} (h : ∀ x, a ≤ x → x < a + n → m.byteAt x = m'.byteAt x) :
    m.bytesAt a n = m'.bytesAt a n := by
  induction n generalizing a with
  | zero => rfl
  | succ n ih =>
    simp only [Memory.bytesAt]
    rw [h a (Nat.le_refl _) (by omega), ih (fun x h1 h2 => h x (by omega) (by omega))]

theorem Memory.putBytes_append (m : Memory) (a : Nat) (u v : List Byte) :
    m.putBytes a (u ++ v) = (m.putBytes a u).putBytes (a + u.length) v := by
  induction u generalizing m a with
  | nil => rfl
  | cons b rest ih =>
    simp only [List.cons_append, Memory.putBytes, ih, List.length_cons]
    rw [Nat.add_right_comm, Nat.add_assoc]

/-! ### Races and failed writes -/

/-- A byte that is not raced is seen as memory holds it (R74). -/
theorem Memory.seenAt_not_raced (m : Memory) {seen : Stores} {a : Nat} (h : ∀ c ∈ seen, c.1.toNat ≠ a) :
    m.seenAt seen a = m.byteAt a := by
  induction seen with
  | nil => rfl
  | cons c rest ih =>
    obtain ⟨k, b⟩ := c
    simp only [Memory.seenAt]
    rw [if_neg (h (k, b) (by simp)), ih fun c hc => h c (by simp [hc])]

theorem Memory.getElem?_seenBytes (m : Memory) (seen : Stores) (a : Nat) {n k : Nat} (h : k < n) :
    (m.seenBytes seen a n)[k]? = some (m.seenAt seen (a + k)) := by
  induction n generalizing a k with
  | zero => omega
  | succ n ih =>
    cases k with
    | zero => rfl
    | succ k =>
      simp only [Memory.seenBytes, List.getElem?_cons_succ]
      rw [ih _ (by omega)]
      congr 2
      omega

/-- Each byte of a failed write's range is the old one or the one written (R66). -/
theorem Memory.byteAt_putSome {m : Memory} (hm : m.wf = true) (draw j a : Nat) {v : List Byte}
    (hl : a + v.length ≤ addressSpace) {k : Nat} {b : Byte} (hb : v[k]? = some b) :
    (m.putSome draw j a v).byteAt (a + k) = m.byteAt (a + k) ∨ (m.putSome draw j a v).byteAt (a + k) = b := by
  induction v generalizing m j a k with
  | nil => simp at hb
  | cons c rest ih =>
    simp only [List.length_cons] at hl
    simp only [Memory.putSome]
    cases k with
    | zero =>
      simp only [List.getElem?_cons_zero, Option.some.injEq] at hb
      subst hb
      rw [Memory.byteAt_putSome_other _ (by omega)]
      split
      · exact .inr (Memory.byteAt_put_same _ hm)
      · exact .inl rfl
    | succ k =>
      have hm' : (if Config.freeStored draw j = true then m.put a c else m).wf = true := by
        split
        · exact Memory.wf_put _ (by omega) hm
        · exact hm
      rw [show a + (k + 1) = a + 1 + k by omega]
      rcases ih hm' (j + 1) (a + 1) (by omega) (by simpa using hb) with h | h
      · left
        rw [h]
        split
        · exact Memory.byteAt_put_other _ _ (by omega)
        · rfl
      · exact .inr h

end Sys2Proof.Machine
end

