-- ==== Sys2Proof/Laws/Run.lean ====
section
/-! SUPPORT. What a part of a command can do, said once: `Run.Sat` for each way it ends, the frame every port operation
keeps, and one lemma for each port operation. -/

namespace Sys2Proof.Machine

/-- Every way a part of a command ends satisfies its condition. -/
def Run.Sat {α : Type} (r : Run α) (done : α → State → Prop) (aborted : State → Prop) (stuck : Fault → Prop) : Prop :=
  match r with
  | .done a s => done a s
  | .aborted s => aborted s
  | .stuck f => stuck f

section sat
variable {α β : Type} {d d' : α → State → Prop} {e : β → State → Prop} {a a' : State → Prop} {f f' : Fault → Prop}

@[simp] theorem Run.sat_done {x : α} {s : State} : (Run.done x s).Sat d a f ↔ d x s := Iff.rfl
@[simp] theorem Run.sat_aborted {s : State} : (Run.aborted s : Run α).Sat d a f ↔ a s := Iff.rfl
@[simp] theorem Run.sat_stuck {x : Fault} : (Run.stuck x : Run α).Sat d a f ↔ f x := Iff.rfl
@[simp] theorem sat_raise {r : Report} {s : State} : (raise r s : Run α).Sat d a f ↔ a (report r s) := Iff.rfl

theorem Run.Sat.mono {r : Run α} (h : r.Sat d a f) (hd : ∀ x s, d x s → d' x s) (ha : ∀ s, a s → a' s)
    (hf : ∀ x, f x → f' x) : r.Sat d' a' f' := by
  cases r with
  | done x s => exact hd x s h
  | aborted s => exact ha s h
  | stuck x => exact hf x h

theorem Run.Sat.andThen {r : Run α} {k : α → State → Run β} (h : r.Sat d a f)
    (hk : ∀ x s, d x s → (k x s).Sat e a f) : (r.andThen k).Sat e a f := by
  cases r with
  | done x s => exact hk x s h
  | aborted s => exact h
  | stuck x => exact h

theorem Run.Sat.both {r : Run α} (h : r.Sat d a f) (h' : r.Sat d' a' f') :
    r.Sat (fun x s => d x s ∧ d' x s) (fun s => a s ∧ a' s) (fun x => f x ∧ f' x) := by
  cases r with
  | done x s => exact ⟨h, h'⟩
  | aborted s => exact ⟨h, h'⟩
  | stuck x => exact ⟨h, h'⟩

end sat

section andThen
variable {α β : Type}
@[simp] theorem Run.done_andThen (x : α) (s : State) (k : α → State → Run β) : (Run.done x s).andThen k = k x s := rfl
@[simp] theorem Run.aborted_andThen (s : State) (k : α → State → Run β) : (Run.aborted s).andThen k = .aborted s := rfl
@[simp] theorem Run.stuck_andThen (f : Fault) (k : α → State → Run β) : (Run.stuck f).andThen k = .stuck f := rfl
@[simp] theorem raise_andThen (r : Report) (s : State) (k : α → State → Run β) :
    (raise r s : Run α).andThen k = raise r s := rfl
@[simp] theorem Run.outcome_done (s : State) : (Run.done () s).outcome = .next s := rfl
@[simp] theorem Run.outcome_aborted (s : State) : (Run.aborted s).outcome = .next s := rfl
@[simp] theorem Run.outcome_stuck (f : Fault) : (Run.stuck f).outcome = .fault f := rfl
@[simp] theorem outcome_raise (r : Report) (s : State) : (raise r s).outcome = .next (report r s) := rfl
end andThen

/-- A command that answers a next state was done or aborted in it. -/
theorem Run.Sat.of_next {r : Run Unit} {d : Unit → State → Prop} {a : State → Prop} {f : Fault → Prop} {t : State}
    (h : r.Sat d a f) (hn : r.outcome = .next t) : d () t ∨ a t := by
  cases r with
  | done x s => cases hn; exact .inl h
  | aborted s => cases hn; exact .inr h
  | stuck x => cases hn

/-- A command that cannot be stuck answers a next state. -/
theorem Run.Sat.next_of_not_stuck {r : Run Unit} {d : Unit → State → Prop} {a : State → Prop}
    (h : r.Sat d a fun _ => False) : ∃ t, r.outcome = .next t ∧ (d () t ∨ a t) := by
  cases r with
  | done x s => exact ⟨s, rfl, .inl h⟩
  | aborted s => exact ⟨s, rfl, .inr h⟩
  | stuck x => exact h.elim

/-! ### The frame of the ports -/

/-- What port operations leave alone, writing guest memory only at the addresses `w`: the configuration, the backend,
what arrives; turns are only used up, events only added; memory stays canonical, and with a still guest every byte
outside `w` stays. -/
structure Frame (w : Nat → Prop) (s t : State) : Prop where
  cfg : t.cfg = s.cfg
  backend : t.backend = s.backend
  arrivals : t.arrivals = s.arrivals
  memTurns : t.memTurns <:+ s.memTurns
  beTurns : t.beTurns <:+ s.beTurns
  history : s.history <+: t.history
  memory : s.mem.wf = true → t.mem.wf = true
  bytes : s.GuestStill → ∀ x, ¬ w x → t.mem.byteAt x = s.mem.byteAt x

theorem Frame.refl (w : Nat → Prop) (s : State) : Frame w s s :=
  ⟨rfl, rfl, rfl, List.suffix_refl _, List.suffix_refl _, List.prefix_rfl, id, fun _ _ _ => rfl⟩

theorem State.GuestStill.of_suffix {s t : State} (h : s.GuestStill) (hs : t.memTurns <:+ s.memTurns) : t.GuestStill :=
  fun x hx => h x (hs.mem hx)

theorem Frame.trans {w : Nat → Prop} {s t u : State} (h : Frame w s t) (k : Frame w t u) : Frame w s u where
  cfg := k.cfg.trans h.cfg
  backend := k.backend.trans h.backend
  arrivals := k.arrivals.trans h.arrivals
  memTurns := k.memTurns.trans h.memTurns
  beTurns := k.beTurns.trans h.beTurns
  history := h.history.trans k.history
  memory := fun m => k.memory (h.memory m)
  bytes := fun g x hx => (k.bytes (g.of_suffix h.memTurns) x hx).trans (h.bytes g x hx)

theorem Frame.weaken {w w' : Nat → Prop} {s t : State} (h : Frame w s t) (hw : ∀ x, w x → w' x) : Frame w' s t :=
  { h with bytes := fun g x hx => h.bytes g x fun k => hx (hw x k) }

theorem Frame.record {w : Nat → Prop} {s t : State} (h : Frame w s t) (e : Event) : Frame w s (t.record e) :=
  { h with history := by simpa using h.history.trans (List.prefix_append _ _) }

theorem Frame.report {w : Nat → Prop} {s t : State} (h : Frame w s t) (r : Report) : Frame w s (report r t) :=
  h.record _

/-- A change of the device's own state alone keeps the frame. -/
theorem Frame.setDev {w : Nat → Prop} {s t : State} (h : Frame w s t) (d : Device) : Frame w s { t with dev := d } :=
  { h with }

/-- A change of memory at the addresses `w` alone keeps the frame. -/
theorem Frame.setMem {w : Nat → Prop} {s t : State} (h : Frame w s t) {m : Memory} {n : Nat}
    (hm : t.mem.wf = true → m.wf = true) (hb : ∀ x, ¬ w x → m.byteAt x = t.mem.byteAt x) :
    Frame w s { t with mem := m, freeDraws := n } :=
  { h with memory := fun k => hm (h.memory k), bytes := fun g x hx => (hb x hx).trans (h.bytes g x hx) }

/-- Bytes pushed keep the frame. -/
theorem Frame.setStream {w : Nat → Prop} {s t : State} (h : Frame w s t) (o : List Byte) (n : Nat) :
    Frame w s { t with outStream := o, freeDraws := n } := { h with }

theorem State.PortsAnswer.of_frame {w : Nat → Prop} {s t : State} (h : s.PortsAnswer) (f : Frame w s t) :
    t.PortsAnswer :=
  ⟨fun x hx => h.1 x (f.memTurns.mem hx), fun x hx => h.2 x (f.beTurns.mem hx)⟩

/-! ### Port `P_GMEM` -/

theorem takeMemTurn_frame (w : Nat → Prop) (s : State) : Frame w s (takeMemTurn s).2 where
  cfg := by simp
  backend := by simp
  arrivals := by simp
  memTurns := by simpa using List.tail_suffix _
  beTurns := by simp
  history := by simp
  memory := by
    intro m
    rw [takeMemTurn_mem]
    exact Memory.wf_putStores m
  bytes := by
    intro g x _
    have : (takeMemTurn s).1.guestStores = [] := by
      rw [takeMemTurn_turn]
      cases hs : s.memTurns with
      | nil => rfl
      | cons t rest => exact g t (by simp [hs])
    rw [takeMemTurn_mem, this]
    rfl

theorem takeMemTurn_answers {s : State} (h : s.PortsAnswer) : (takeMemTurn s).1.verdict ≠ .never := by
  rw [takeMemTurn_turn]
  cases hs : s.memTurns with
  | nil => simp [MemTurn.quiet]
  | cons t rest => exact h.1 t (by simp [hs])

/-- `MemRead` leaves the device and every byte of memory alone and answers the bytes asked for, or FAIL. -/
theorem memRead_sat (w : Nat → Prop) (addr n : Nat) (s : State) :
    (memRead addr n s).Sat
      (fun r t => Frame w s t ∧ t.dev = s.dev ∧ t.outStream = s.outStream ∧ ∀ bytes, r = some bytes → bytes.length = n)
      (fun _ => False) (fun _ => ¬ s.PortsAnswer) := by
  unfold memRead
  split
  · exact ⟨Frame.refl w s, rfl, rfl, by simp⟩
  · split
    next t s' heq =>
    have hf := takeMemTurn_frame w s
    have hd : s'.dev = s.dev := by simpa [heq] using takeMemTurn_dev s
    have ho : s'.outStream = s.outStream := by simpa [heq] using takeMemTurn_outStream s
    rw [heq] at hf
    split
    · next hv => exact fun h => takeMemTurn_answers h (by rw [heq]; exact hv)
    · exact ⟨hf.record _, by simpa using hd, by simpa using ho, by simp⟩
    · exact ⟨hf.record _, by simpa using hd, by simpa using ho, by simp⟩

/-- `MemWrite` leaves the device alone and every byte of memory outside its range. -/
theorem memWrite_sat {w : Nat → Prop} {addr : Nat} {v : List Byte} {s : State}
    (hw : ∀ x, inRange addr v.length x → w x) :
    (memWrite addr v s).Sat (fun _ t => Frame w s t ∧ t.dev = s.dev ∧ t.outStream = s.outStream)
      (fun _ => False) (fun _ => ¬ s.PortsAnswer) := by
  unfold memWrite
  split
  · exact ⟨Frame.refl w s, rfl, rfl⟩
  · next hr =>
    rw [Params.addressSpace_eq] at hr
    split
    next t s' heq =>
    have hf := takeMemTurn_frame w s
    have hd : s'.dev = s.dev := by simpa [heq] using takeMemTurn_dev s
    have ho : s'.outStream = s.outStream := by simpa [heq] using takeMemTurn_outStream s
    rw [heq] at hf
    have out : ∀ x, ¬ w x → x < addr ∨ addr + v.length ≤ x := by
      intro x hx
      by_contra hc
      exact hx (hw x ⟨by omega, by omega⟩)
    split
    · next hv => exact fun h => takeMemTurn_answers h (by rw [heq]; exact hv)
    · exact ⟨(hf.setMem (fun m => Memory.wf_putSome (by omega) m)
        fun x hx => Memory.byteAt_putSome_other _ (out x hx)).record _, hd, ho⟩
    · exact ⟨(hf.setMem (fun m => Memory.wf_putBytes (by omega) m)
        fun x hx => Memory.byteAt_putBytes_other _ (out x hx)).record _, hd, ho⟩

/-- `MemRead` or E5: the device and memory are left alone. -/
theorem fetch_sat (w : Nat → Prop) (addr n : Nat) (s : State) :
    (fetch addr n s).Sat
      (fun bytes t => Frame w s t ∧ t.dev = s.dev ∧ t.outStream = s.outStream ∧ bytes.length = n)
      (fun t => Frame w s t ∧ t.dev = s.dev ∧ t.outStream = s.outStream) (fun _ => ¬ s.PortsAnswer) := by
  refine Run.Sat.andThen ((memRead_sat w addr n s).mono (fun _ _ h => h) (fun _ h => h.elim) fun _ h => h) ?_
  rintro r t ⟨hf, hd, ho, hl⟩
  split
  · exact ⟨hf, hd, ho, hl _ rfl⟩
  · exact ⟨hf.report _, hd, ho⟩

/-- `MemWrite` or E5: the device is left alone, and every byte outside the range. -/
theorem store_sat {w : Nat → Prop} {addr : Nat} {v : List Byte} {s : State}
    (hw : ∀ x, inRange addr v.length x → w x) :
    (store addr v s).Sat (fun _ t => Frame w s t ∧ t.dev = s.dev ∧ t.outStream = s.outStream)
      (fun t => Frame w s t ∧ t.dev = s.dev ∧ t.outStream = s.outStream) (fun _ => ¬ s.PortsAnswer) := by
  refine Run.Sat.andThen ((memWrite_sat hw).mono (fun _ _ h => h) (fun _ h => h.elim) fun _ h => h) ?_
  rintro ok t ⟨hf, hd, ho⟩
  split
  · exact ⟨hf, hd, ho⟩
  · exact ⟨hf.report _, hd, ho⟩

/-! ### Port `P_BETX` -/

/-- `BeWrite` or E3: the device and memory are left alone. -/
theorem push_sat (w : Nat → Prop) (v : List Byte) (buffer offset : Nat) (s : State) :
    (push v buffer offset s).Sat (fun _ t => Frame w s t ∧ t.dev = s.dev) (fun t => Frame w s t ∧ t.dev = s.dev)
      (fun _ => ¬ s.PortsAnswer) := by
  unfold push beWrite
  split
  next t s' heq =>
  have hs : s' = (takeBeTurn s).2 := by rw [heq]
  have ht : t = s.beTurns.headD .takes := by rw [← takeBeTurn_turn, heq]
  have hf : Frame w s s' := by
    subst hs
    exact ⟨by simp, by simp, by simp, by simp, by simpa using List.tail_suffix _, by simp, by simp, by simp⟩
  have hd : s'.dev = s.dev := by subst hs; simp
  split
  · intro h
    cases hb : s.beTurns with
    | nil => simp [hb] at ht
    | cons c rest => simp [hb] at ht; exact h.2 c (by simp [hb]) ht.symm
  · exact ⟨((hf.setStream _ _).record _).report _, hd⟩
  · exact ⟨(hf.setStream _ _).record _, hd⟩

end Sys2Proof.Machine
end

