-- ==== Sys2Proof/Laws/Codec.lean ====
section
/-! SUPPORT. The codec: lengths, decoding an encoded field, header and list; and what a descriptor fetch and a header
write-back can do. -/

namespace Sys2Proof.Machine

/-! ### Fields -/

@[simp] theorem length_encLittle (n v : Nat) : (encLittle n v).length = n := by
  induction n generalizing v with
  | zero => rfl
  | succ n ih => simp [encLittle, ih]

@[simp] theorem length_enc (o : ByteOrder) (n v : Nat) : (enc o n v).length = n := by
  cases o <;> simp [enc]

theorem decLittle_encLittle (n v : Nat) : decLittle (encLittle n v) = v % 256 ^ n := by
  induction n generalizing v with
  | zero => simp [encLittle, decLittle, Nat.mod_one]
  | succ n ih =>
    have h : (BitVec.ofNat 8 v).toNat = v % 256 := BitVec.toNat_ofNat v 8
    rw [encLittle, decLittle, ih, h, pow_succ', Nat.mod_mul]

theorem decLittle_lt (bytes : List Byte) : decLittle bytes < 256 ^ bytes.length := by
  induction bytes with
  | nil => simp [decLittle]
  | cons b rest ih =>
    simp only [decLittle, List.length_cons, pow_succ']
    have := b.isLt
    omega

/-- `dec_N(enc_N(v)) = v` for every `v < 2^(8N)`, in either byte order (R11). -/
theorem dec_enc (o : ByteOrder) {n v : Nat} (h : v < 256 ^ n) : dec o (enc o n v) = v := by
  cases o <;> simp [dec, enc, decLittle_encLittle, Nat.mod_eq_of_lt h]

theorem dec_lt (o : ByteOrder) (bytes : List Byte) : dec o bytes < 256 ^ bytes.length := by
  cases o
  · exact decLittle_lt bytes
  · simpa [dec] using decLittle_lt bytes.reverse

/-- Byte `i` of the little-endian coding (R11). -/
theorem getElem?_encLittle (v : Nat) {n i : Nat} (h : i < n) :
    (encLittle n v)[i]? = some (BitVec.ofNat 8 (v >>> (8 * i))) := by
  induction n generalizing v i with
  | zero => omega
  | succ n ih =>
    cases i with
    | zero => simp [encLittle]
    | succ i =>
      rw [encLittle, List.getElem?_cons_succ, ih _ (by omega)]
      congr 2
      rw [Nat.mul_add, Nat.add_comm (8 * i), Nat.shiftRight_add, Nat.shiftRight_eq_div_pow v (8 * 1)]

/-! ### Header and list -/

@[simp] theorem length_headerBytes (p : Params) (h : Header) : (headerBytes p h).length = p.hdrBytes := by
  simp [headerBytes, Params.hdrBytes]; omega

@[simp] theorem length_decodeBuffers (p : Params) (q : List Byte) (n : Nat) : (decodeBuffers p q n).length = n := by
  induction n generalizing q with
  | zero => rfl
  | succ n ih => simp [decodeBuffers, ih]

theorem hdrBytes_le (p : Params) : p.hdrBytes ≤ 24 := by
  unfold Params.hdrBytes; cases p.sizeBytes <;> simp [SizeWidth.bytes]

theorem hdrBytes_pos (p : Params) : 0 < p.hdrBytes := by unfold Params.hdrBytes; omega

/-! ### `installBuffers` and the registered buffers -/

theorem installBuffers_toList (old : Vector Buffer Config.maxBuffers) (bl : List Buffer) :
    (installBuffers old bl).toList = (bl ++ old.toList.drop bl.length).take Config.maxBuffers := by
  simp [installBuffers, Vector.toList]

theorem Device.install_registered {d : Device} {a : Word64} {h : Header} {bl : List Buffer}
    (hl : bl.length = h.bufferCount.toNat) (hc : h.bufferCount.toNat ≤ Config.maxBuffers) :
    (d.install a h bl).registered = bl := by
  simp only [Device.registered, Device.install_inBuf, Device.install_inHdr, installBuffers_toList, List.take_take,
    Nat.min_eq_left hc]
  rw [List.take_append_of_le_length (by omega), List.take_of_length_le (by omega)]

theorem Device.length_registered {d : Device} (h : d.inHdr.bufferCount.toNat ≤ Config.maxBuffers) :
    d.registered.length = d.inHdr.bufferCount.toNat := by
  simp [Device.registered]
  exact h

/-! ### `DecodeSGL` and `EncodeHeader` -/

theorem fetchList_sat (w : Nat → Prop) (a count : Nat) (s : State) :
    (fetchList a count s).Sat
      (fun bl t => Frame w s t ∧ t.dev = s.dev ∧ t.outStream = s.outStream ∧ bl.length = count)
      (fun t => Frame w s t ∧ t.dev = s.dev ∧ t.outStream = s.outStream) (fun _ => ¬ s.PortsAnswer) := by
  unfold fetchList
  split
  · next h => subst h; exact ⟨Frame.refl w s, rfl, rfl, rfl⟩
  · refine Run.Sat.andThen (fetch_sat w _ _ s) ?_
    rintro q t ⟨hf, hd, ho, -⟩
    exact ⟨hf, hd, ho, by simp⟩

/-- `DecodeSGL` leaves the device and memory alone; what it yields is within the bound of R141. -/
theorem decodeSGL_sat (w : Nat → Prop) (a : Word64) (s : State) :
    (decodeSGL a s).Sat
      (fun sgl t => Frame w s t ∧ t.dev = s.dev ∧ t.outStream = s.outStream ∧
        sgl.1.bufferCount.toNat ≤ Config.maxBuffers ∧ sgl.2.length = sgl.1.bufferCount.toNat)
      (fun t => Frame w s t ∧ t.dev = s.dev ∧ t.outStream = s.outStream) (fun _ => ¬ s.PortsAnswer) := by
  refine Run.Sat.andThen (fetch_sat w _ _ s) ?_
  rintro r t ⟨hf, hd, ho, -⟩
  dsimp only
  split
  · exact ⟨hf.report _, hd, ho⟩
  · next hc =>
    refine Run.Sat.andThen ((fetchList_sat w _ _ t).mono (d' := fun bl u => Frame w s u ∧ u.dev = s.dev ∧
      u.outStream = s.outStream ∧ bl.length = (decodeHeader t.cfg r).bufferCount.toNat) ?_ ?_ ?_) ?_
    · rintro bl u ⟨kf, kd, ko, kl⟩
      exact ⟨hf.trans kf, kd.trans hd, ko.trans ho, kl⟩
    · rintro u ⟨kf, kd, ko⟩
      exact ⟨hf.trans kf, kd.trans hd, ko.trans ho⟩
    · exact fun _ h k => h (k.of_frame hf)
    · rintro bl u ⟨kf, kd, ko, kl⟩
      exact ⟨kf, kd, ko, by simpa using hc, kl⟩

/-- `EncodeHeader` leaves the device alone and every byte outside the header at `a`. -/
theorem encodeHeader_sat {w : Nat → Prop} {a : Word64} {h : Header} {s : State}
    (hw : ∀ x, inRange a.toNat s.cfg.hdrBytes x → w x) :
    (encodeHeader a h s).Sat (fun _ t => Frame w s t ∧ t.dev = s.dev ∧ t.outStream = s.outStream)
      (fun t => Frame w s t ∧ t.dev = s.dev ∧ t.outStream = s.outStream) (fun _ => ¬ s.PortsAnswer) :=
  store_sat (by simpa using hw)

end Sys2Proof.Machine
end

