-- ==== Sys2Proof/Laws/Interrupt.lean ====
section
/-! SUPPORT. The interrupt: what `IrqRaise`, `Notify`, `LineAfterAck` and the acknowledge do to the device and the
record, and that they keep everything else. -/

namespace Sys2Proof.Machine

theorem driveLine_frame (w : Nat → Prop) (level : Bool) (s : State) : Frame w s (driveLine level s) := by
  unfold driveLine
  split
  · exact Frame.refl w s
  · exact ((Frame.refl w s).setDev _).record _

/-- The level of the line after `IrqRaise()` (R211, R212). -/
def raisedLine (m : IrqMode) (line : Bool) : Bool :=
  match m with
  | .message => line
  | .level => true

theorem irqRaise_frame (w : Nat → Prop) (s : State) : Frame w s (irqRaise s) := by
  unfold irqRaise
  split
  · exact (Frame.refl w s).record _
  · exact driveLine_frame w true s

theorem irqRaise_dev (s : State) : (irqRaise s).dev = { s.dev with irqLine := raisedLine s.cfg.irqMode s.dev.irqLine } := by
  unfold irqRaise
  split <;> simp_all [raisedLine, driveLine_dev]

@[simp] theorem irqRaise_mem (s : State) : (irqRaise s).mem = s.mem := by unfold irqRaise; split <;> simp
@[simp] theorem irqRaise_cfg (s : State) : (irqRaise s).cfg = s.cfg := by unfold irqRaise; split <;> simp
@[simp] theorem irqRaise_outStream (s : State) : (irqRaise s).outStream = s.outStream := by
  unfold irqRaise; split <;> simp
@[simp] theorem irqRaise_memTurns (s : State) : (irqRaise s).memTurns = s.memTurns := by
  unfold irqRaise; split <;> simp
@[simp] theorem irqRaise_beTurns (s : State) : (irqRaise s).beTurns = s.beTurns := by
  unfold irqRaise; split <;> simp

theorem notify_frame (w : Nat → Prop) (dir : Direction) (s : State) : Frame w s (notify dir s) := by
  unfold notify
  split
  · exact Frame.refl w s
  · exact (irqRaise_frame w s).setDev _

/-- What `Notify(dir)` does to the device (R210): nothing while the flag is set, else the raise and the flag. -/
theorem notify_dev (dir : Direction) (s : State) : (notify dir s).dev =
    if s.dev.pending dir then s.dev
    else { s.dev.setPending dir true with irqLine := raisedLine s.cfg.irqMode s.dev.irqLine } := by
  unfold notify
  split
  · rfl
  · rw [irqRaise_dev]; cases dir <;> rfl

theorem notifyIf_frame (w : Nat → Prop) (b : Bool) (dir : Direction) (s : State) : Frame w s (notifyIf b dir s) := by
  unfold notifyIf
  split
  · exact notify_frame w dir s
  · exact Frame.refl w s

section notifyIf
variable (b : Bool) (dir : Direction) (s : State)
@[simp] theorem notifyIf_cfg : (notifyIf b dir s).cfg = s.cfg := by
  unfold notifyIf notify; split <;> [split; skip] <;> simp
@[simp] theorem notifyIf_mem : (notifyIf b dir s).mem = s.mem := by
  unfold notifyIf notify; split <;> [split; skip] <;> simp
@[simp] theorem notifyIf_outStream : (notifyIf b dir s).outStream = s.outStream := by
  unfold notifyIf notify; split <;> [split; skip] <;> simp
@[simp] theorem notifyIf_memTurns : (notifyIf b dir s).memTurns = s.memTurns := by
  unfold notifyIf notify; split <;> [split; skip] <;> simp
@[simp] theorem notifyIf_beTurns : (notifyIf b dir s).beTurns = s.beTurns := by
  unfold notifyIf notify; split <;> [split; skip] <;> simp
end notifyIf

/-- What `Notify` may do to the device's own state: set this direction's flag and drive the line. -/
theorem notifyIf_out_dev (b : Bool) (s : State) : (notifyIf b .out s).dev =
    { s.dev with
      outPending := s.dev.outPending || b
      irqLine := if b && !s.dev.outPending then raisedLine s.cfg.irqMode s.dev.irqLine else s.dev.irqLine } := by
  unfold notifyIf
  cases b
  · simp
  · simp only [if_true, notify_dev]
    generalize s.dev = d
    obtain ⟨o, _, _, _, _, _, _, _, _, _, _⟩ := d
    cases o <;> simp [Device.setPending, Device.pending]

theorem notifyIf_inn_dev (b : Bool) (s : State) : (notifyIf b .inn s).dev =
    { s.dev with
      inPending := s.dev.inPending || b
      irqLine := if b && !s.dev.inPending then raisedLine s.cfg.irqMode s.dev.irqLine else s.dev.irqLine } := by
  unfold notifyIf
  cases b
  · simp
  · simp only [if_true, notify_dev]
    generalize s.dev = d
    obtain ⟨_, o, _, _, _, _, _, _, _, _, _⟩ := d
    cases o <;> simp [Device.setPending, Device.pending]

/-- The raise keeps the line's invariant (R42 f, g). -/
theorem LineInv.notifyIf {s : State} (h : LineInv s.cfg s.dev) (b : Bool) (dir : Direction) :
    LineInv s.cfg (notifyIf b dir s).dev := by
  constructor
  · intro hm
    have := h.messageLow hm
    cases dir <;> simp [notifyIf_out_dev, notifyIf_inn_dev, raisedLine, hm, this]
  · intro hm hl
    have := h.levelIsOr hm hl
    cases dir <;> simp only [notifyIf_out_dev, notifyIf_inn_dev, raisedLine, hm, this]
    all_goals cases b <;> cases s.dev.outPending <;> cases s.dev.inPending <;> rfl

theorem lineAfterAck_frame (w : Nat → Prop) (dir : Direction) (was : Bool) (s : State) :
    Frame w s (lineAfterAck dir was s) := by
  unfold lineAfterAck
  split
  · exact Frame.refl w s
  · exact driveLine_frame w _ s

theorem acknowledge_frame (w : Nat → Prop) (dir : Direction) (s : State) : Frame w s (acknowledge dir s) :=
  ((Frame.refl w s).setDev _).trans (lineAfterAck_frame w _ _ _)

/-- The level of the line an acknowledge leaves, in either mode. -/
def ackedLine (p : Params) (dir : Direction) (was : Bool) (d : Device) : Bool :=
  match p.irqMode with
  | .message => d.irqLine
  | .level => lineLevelAfterAck p.lineModel dir was d

/-- What an acknowledge does to the device (R213): the flag is cleared, the line follows. -/
theorem acknowledge_dev (dir : Direction) (s : State) : (acknowledge dir s).dev =
    { s.dev.setPending dir false with
      irqLine := ackedLine s.cfg dir (s.dev.pending dir) (s.dev.setPending dir false) } := by
  unfold acknowledge lineAfterAck ackedLine
  cases h : s.cfg.irqMode
  · cases dir <;> simp [Device.setPending]
  · simp [driveLine_dev]

/-- The acknowledge keeps the line's invariant (R42 f, g). -/
theorem LineInv.acknowledge {s : State} (h : LineInv s.cfg s.dev) (dir : Direction) :
    LineInv s.cfg (acknowledge dir s).dev := by
  rw [acknowledge_dev]
  constructor
  · intro hm
    simp [ackedLine, hm, h.messageLow hm]
  · intro hm hl
    simp [ackedLine, hm, hl, lineLevelAfterAck]

section acknowledge
variable (dir : Direction) (s : State)
@[simp] theorem lineAfterAck_mem (was : Bool) : (lineAfterAck dir was s).mem = s.mem := by
  unfold lineAfterAck; split <;> simp
@[simp] theorem lineAfterAck_outStream (was : Bool) : (lineAfterAck dir was s).outStream = s.outStream := by
  unfold lineAfterAck; split <;> simp
@[simp] theorem lineAfterAck_memTurns (was : Bool) : (lineAfterAck dir was s).memTurns = s.memTurns := by
  unfold lineAfterAck; split <;> simp
@[simp] theorem lineAfterAck_beTurns (was : Bool) : (lineAfterAck dir was s).beTurns = s.beTurns := by
  unfold lineAfterAck; split <;> simp
@[simp] theorem acknowledge_mem : (acknowledge dir s).mem = s.mem := by simp [acknowledge]
@[simp] theorem acknowledge_outStream : (acknowledge dir s).outStream = s.outStream := by simp [acknowledge]
@[simp] theorem acknowledge_memTurns : (acknowledge dir s).memTurns = s.memTurns := by simp [acknowledge]
@[simp] theorem acknowledge_beTurns : (acknowledge dir s).beTurns = s.beTurns := by simp [acknowledge]
@[simp] theorem acknowledge_cfg : (acknowledge dir s).cfg = s.cfg := (acknowledge_frame (fun _ => False) dir s).cfg
@[simp] theorem acknowledge_backend : (acknowledge dir s).backend = s.backend :=
  (acknowledge_frame (fun _ => False) dir s).backend
@[simp] theorem acknowledge_arrivals : (acknowledge dir s).arrivals = s.arrivals :=
  (acknowledge_frame (fun _ => False) dir s).arrivals
end acknowledge

/-- The registration part of the invariant depends on no flag and no line. -/
theorem Device.CursorInv.congr {d d' : Device} (h : d.CursorInv) (h1 : d'.inValid = d.inValid)
    (h2 : d'.inDescAddr = d.inDescAddr) (h3 : d'.inHdr = d.inHdr) (h4 : d'.inBuf = d.inBuf)
    (h5 : d'.curIdx = d.curIdx) (h6 : d'.curOff = d.curOff) (h7 : d'.totalCapacity = d.totalCapacity) :
    d'.CursorInv := by
  have hr : d'.registered = d.registered := by simp [Device.registered, h3, h4]
  exact ⟨by rw [h3]; exact h.countBounded, by rw [h3, h5]; exact h.indexBounded,
    by rw [hr, h5, h6]; exact h.offsetBounded, by rw [h3, h5, h6]; exact h.offsetAtEnd,
    by rw [h1, h2, h3, h5, h6, h7]; exact h.nothingRegistered, by rw [h7, hr]; exact h.capacitySum⟩

end Sys2Proof.Machine
end

