-- ==== Sys2Proof/Laws/Engines.lean ====
section
/-! SUPPORT. What the two engines can do, said once for each command and each loop: the frame, the device's own state,
and when a command can be stuck. -/

namespace Sys2Proof.Machine

/-! ### Outbound -/

/-- The chunks of one buffer leave the device and memory alone. -/
theorem drainBuffer_sat (w : Nat → Prop) (b : Buffer) (buffer chunks off : Nat) (s : State) :
    (drainBuffer b buffer chunks off s).Sat (fun _ t => Frame w s t ∧ t.dev = s.dev)
      (fun t => Frame w s t ∧ t.dev = s.dev) (fun _ => ¬ s.PortsAnswer) := by
  induction chunks generalizing off s with
  | zero => exact ⟨Frame.refl w s, rfl⟩
  | succ n ih =>
    unfold drainBuffer
    split
    · refine Run.Sat.andThen ((fetch_sat w _ _ s).mono (d' := fun _ t => Frame w s t ∧ t.dev = s.dev)
        (fun _ _ h => ⟨h.1, h.2.1⟩) (fun _ h => ⟨h.1, h.2.1⟩) fun _ h => h) ?_
      rintro v t ⟨hf, hd⟩
      refine Run.Sat.andThen ((push_sat w v _ _ t).mono (d' := fun _ t => Frame w s t ∧ t.dev = s.dev)
        (fun _ _ h => ⟨hf.trans h.1, h.2.trans hd⟩) (fun _ h => ⟨hf.trans h.1, h.2.trans hd⟩)
        fun _ h k => h (k.of_frame hf)) ?_
      rintro _ u ⟨kf, kd⟩
      exact (ih _ u).mono (fun _ _ h => ⟨kf.trans h.1, h.2.trans kd⟩) (fun _ h => ⟨kf.trans h.1, h.2.trans kd⟩)
        fun _ h k => h (k.of_frame kf)
    · exact ⟨Frame.refl w s, rfl⟩

/-- The whole drain leaves the device and memory alone. -/
theorem drainBuffers_sat (w : Nat → Prop) (bufs : List Buffer) (buffer : Nat) (s : State) :
    (drainBuffers bufs buffer s).Sat (fun _ t => Frame w s t ∧ t.dev = s.dev)
      (fun t => Frame w s t ∧ t.dev = s.dev) (fun _ => ¬ s.PortsAnswer) := by
  induction bufs generalizing buffer s with
  | nil => exact ⟨Frame.refl w s, rfl⟩
  | cons b rest ih =>
    refine Run.Sat.andThen (drainBuffer_sat w b buffer _ 0 s) ?_
    rintro _ t ⟨hf, hd⟩
    exact (ih _ t).mono (fun _ _ h => ⟨hf.trans h.1, h.2.trans hd⟩) (fun _ h => ⟨hf.trans h.1, h.2.trans hd⟩)
      fun _ h k => h (k.of_frame hf)

/-- What `OUT_SUBMIT` may do to the device: `Notify(Out)`, if the fetched header asks for it, and nothing else (R34). -/
def outSubmitDev (p : Params) (d : Device) (wanted : Bool) : Device :=
  { d with
    outPending := d.outPending || wanted
    irqLine := if wanted && !d.outPending then raisedLine p.irqMode d.irqLine else d.irqLine }

/-- `OUT_SUBMIT` changes the device through `Notify(Out)` only, and memory in the header at `a` only. -/
theorem outSubmit_sat (a : Word64) (s : State) :
    (outSubmit a s).Sat
      (fun _ t => Frame (inRange a.toNat s.cfg.hdrBytes) s t ∧ ∃ wanted, t.dev = outSubmitDev s.cfg s.dev wanted)
      (fun t => Frame (inRange a.toNat s.cfg.hdrBytes) s t ∧ ∃ wanted, t.dev = outSubmitDev s.cfg s.dev wanted)
      (fun _ => ¬ s.PortsAnswer) := by
  have keep : ∀ t : State, t.dev = s.dev → ∃ wanted, t.dev = outSubmitDev s.cfg s.dev wanted :=
    fun t h => ⟨false, by simp [h, outSubmitDev]⟩
  refine Run.Sat.andThen ((decodeSGL_sat _ a s).mono
    (d' := fun _ t => Frame (inRange a.toNat s.cfg.hdrBytes) s t ∧ t.dev = s.dev)
    (fun _ _ h => ⟨h.1, h.2.1⟩) (fun t h => ⟨h.1, keep t h.2.1⟩) fun _ h => h) ?_
  rintro ⟨h, bl⟩ t ⟨hf, hd⟩
  refine Run.Sat.andThen ((drainBuffers_sat _ bl 0 t).mono
    (d' := fun _ t => Frame (inRange a.toNat s.cfg.hdrBytes) s t ∧ t.dev = s.dev)
    (fun _ _ h => ⟨hf.trans h.1, h.2.trans hd⟩) (fun t h => ⟨hf.trans h.1, keep t (h.2.trans hd)⟩)
    fun _ h k => h (k.of_frame hf)) ?_
  rintro _ u ⟨kf, kd⟩
  have nf := kf.trans (notifyIf_frame _ (notifyRequested u.cfg h.notifyFlags) .out u)
  have nd : (notifyIf (notifyRequested u.cfg h.notifyFlags) .out u).dev
      = outSubmitDev s.cfg s.dev (notifyRequested u.cfg h.notifyFlags) := by
    rw [notifyIf_out_dev, kd, kf.cfg]; rfl
  refine (encodeHeader_sat (w := inRange a.toNat s.cfg.hdrBytes) ?_).mono
    (fun _ v h => ⟨nf.trans h.1, _, h.2.1.trans nd⟩) (fun v h => ⟨nf.trans h.1, _, h.2.1.trans nd⟩)
    fun _ h k => h (k.of_frame nf)
  simp [kf.cfg]

/-! ### Inbound: registration -/

/-- The device with the stale registration counted, if it is live (R181). -/
def countedStale (p : Params) (d : Device) : Device :=
  if d.live p then { d with staleCount := d.staleCount + 1 } else d

theorem countStale_frame (w : Nat → Prop) (a : Word64) (s : State) : Frame w s (countStale a s) := by
  unfold countStale
  split
  · exact ((Frame.refl w s).setDev _).report _
  · exact Frame.refl w s

theorem countStale_dev (a : Word64) (s : State) : (countStale a s).dev = countedStale s.cfg s.dev := by
  unfold countStale countedStale
  split <;> simp

/-- `IN_REGISTER` that completes installs an SGL within the bound; one that aborts leaves the device alone (R182).
Neither writes guest memory or pushes. -/
theorem inRegister_sat (a : Word64) (s : State) :
    (inRegister a s).Sat
      (fun _ t => Frame (fun _ => False) s t ∧ t.outStream = s.outStream ∧ ∃ h bl,
        h.bufferCount.toNat ≤ Config.maxBuffers ∧ bl.length = h.bufferCount.toNat ∧
        t.dev = (countedStale s.cfg s.dev).install a h bl)
      (fun t => Frame (fun _ => False) s t ∧ t.outStream = s.outStream ∧ t.dev = s.dev) (fun _ => ¬ s.PortsAnswer) := by
  refine Run.Sat.andThen ((decodeSGL_sat _ a s).mono (fun _ _ h => h) (fun t h => ⟨h.1, h.2.2, h.2.1⟩) fun _ h => h) ?_
  rintro ⟨h, bl⟩ t ⟨hf, hd, ho, hc, hl⟩
  refine ⟨(hf.trans (countStale_frame _ a t)).setDev _, ?_, h, bl, hc, hl, ?_⟩
  · exact (by unfold countStale; split <;> rfl : (countStale a t).outStream = t.outStream).trans ho
  · rw [countStale_dev, hd, hf.cfg]

/-! ### Inbound: delivery -/

theorem storePayload_sat {w : Nat → Prop} {addr : Nat} {v : List Byte} {s : State}
    (hw : ∀ x, inRange addr v.length x → w x) :
    (storePayload addr v s).Sat (fun _ t => Frame w s t ∧ t.dev = s.dev ∧ t.outStream = s.outStream)
      (fun t => Frame w s t ∧ t.dev = s.dev ∧ t.outStream = s.outStream) (fun _ => ¬ s.PortsAnswer) := by
  unfold storePayload
  split
  · exact ⟨Frame.refl w s, rfl, rfl⟩
  · exact store_sat hw

/-- Two devices that differ in the cursor only. -/
def Device.sameButCursor (d e : Device) : Prop := e = { d with curIdx := e.curIdx, curOff := e.curOff }

theorem Device.sameButCursor_refl (d : Device) : d.sameButCursor d := rfl

theorem Device.sameButCursor_trans {d e f : Device} (h : d.sameButCursor e) (k : e.sameButCursor f) :
    d.sameButCursor f := by
  unfold Device.sameButCursor at *
  rw [k, h]

theorem Device.sameButCursor_advance (d : Device) (length k : Nat) : d.sameButCursor (d.advance length k) := by
  unfold Device.sameButCursor Device.advance
  split <;> rfl

theorem sumLengths_append (l₁ l₂ : List Buffer) : sumLengths (l₁ ++ l₂) = sumLengths l₁ + sumLengths l₂ := by
  simp [sumLengths]

/-- The first of the buffers from the cursor onward is the current one. -/
theorem getElem?_of_drop {α : Type} {l rest : List α} {n : Nat} {x : α} (h : l.drop n = x :: rest) : l[n]? = some x := by
  have := congrArg List.head? h
  simpa [List.head?_drop] using this

/-- An iteration that fills the current buffer goes on at the next one (R184). -/
theorem Device.drop_advance {d : Device} {b : Buffer} {rest : List Buffer} {k : Nat}
    (h : d.registered.drop d.curIdx = b :: rest) (hk : d.curOff.toNat + k = b.length.toNat) :
    rest = (d.advance b.length.toNat k).registered.drop (d.advance b.length.toNat k).curIdx := by
  rw [Device.advance_registered]
  unfold Device.advance
  rw [if_pos hk]
  dsimp only
  rw [← List.drop_drop, h]
  rfl

/-- One iteration moves the cursor by the bytes it consumed (R184). -/
theorem Device.cursorPosition_advance {d : Device} {b : Buffer} {k : Nat} (hb : d.registered[d.curIdx]? = some b)
    (hk : d.curOff.toNat + k ≤ b.length.toNat) :
    (d.advance b.length.toNat k).cursorPosition = d.cursorPosition + k := by
  have htake : d.registered.take (d.curIdx + 1) = d.registered.take d.curIdx ++ [b] := by
    rw [List.take_add_one, hb]; rfl
  unfold Device.cursorPosition
  rw [Device.advance_registered]
  unfold Device.advance
  split
  · next he =>
    simp only [htake, sumLengths_append]
    simp [sumLengths]
    omega
  · have := b.length.isLt
    simp only [BitVec.toNat_ofNat]
    rw [Nat.mod_eq_of_lt (by omega)]
    omega

/-- An iteration that consumed something leaves the cursor where R185 puts it after a last byte. -/
theorem Device.cursorAtLastByte_advance {d : Device} {b : Buffer} {k : Nat} (hb : d.registered[d.curIdx]? = some b)
    (hk : d.curOff.toNat + k ≤ b.length.toNat) (h0 : 0 < k) : (d.advance b.length.toNat k).CursorAtLastByte := by
  have hl := b.length.isLt
  intro hz
  rw [Device.advance_registered]
  unfold Device.advance at hz ⊢
  split
  · refine ⟨Nat.succ_pos _, b, hb, fun he => ?_⟩
    rw [he] at hk
    simp only [BitVec.ofNat_eq_ofNat, BitVec.toNat_ofNat, Nat.zero_mod] at hk
    omega
  · next hne =>
    rw [if_neg hne] at hz
    have := congrArg BitVec.toNat hz
    simp only [BitVec.toNat_ofNat, BitVec.ofNat_eq_ofNat, Nat.zero_mod] at this
    rw [Nat.mod_eq_of_lt (by omega)] at this
    omega

/-- One iteration keeps the cursor's invariant (R42 a to d). -/
theorem Device.CursorInv.advance {d : Device} (h : d.CursorInv) {b : Buffer} {k : Nat}
    (hb : d.registered[d.curIdx]? = some b) (hk : d.curOff.toNat + k ≤ b.length.toNat) :
    (d.advance b.length.toNat k).CursorInv := by
  have hlt : d.curIdx < d.inHdr.bufferCount.toNat := by
    rw [← Device.length_registered h.countBounded]
    exact (List.getElem?_eq_some_iff.mp hb).1
  have hv : d.inValid = true := by
    cases hv : d.inValid
    · have := (h.nothingRegistered hv).1
      rw [this] at hlt
      simp [Header.zero] at hlt
    · rfl
  refine ⟨by simpa using h.countBounded, ?_, ?_, ?_, ?_, by simpa using h.capacitySum⟩
  · have := h.indexBounded
    unfold Device.advance
    split
    · exact hlt
    · exact this
  · intro c hc
    rw [Device.advance_registered] at hc
    unfold Device.advance at hc ⊢
    split
    · by_cases hz : c.length = 0
      · exact .inr ⟨rfl, hz⟩
      · refine .inl (Nat.pos_of_ne_zero fun he => hz (BitVec.eq_of_toNat_eq he))
    · next hne =>
      rw [if_neg hne] at hc
      rw [hb] at hc
      cases hc
      left
      have := b.length.isLt
      simp only [BitVec.toNat_ofNat]
      rw [Nat.mod_eq_of_lt (by omega)]
      omega
  · unfold Device.advance
    split
    · exact fun _ => rfl
    · intro he
      simp only at he
      omega
  · simp [hv]

/-- The scatter loop writes the buffers it is given only, changes the cursor only and pushes nothing. -/
theorem scatter_sat {w : Nat → Prop} {n : Nat} {bufs : List Buffer} {input : List Byte} {s : State}
    (hw : ∀ b ∈ bufs, ∀ x, inRange b.base.toNat b.length.toNat x → w x) :
    (scatter n bufs input s).Sat
      (fun _ t => Frame w s t ∧ s.dev.sameButCursor t.dev ∧ t.outStream = s.outStream)
      (fun t => Frame w s t ∧ s.dev.sameButCursor t.dev ∧ t.outStream = s.outStream) (fun _ => True) := by
  induction bufs generalizing input s with
  | nil =>
    cases input with
    | nil => exact ⟨Frame.refl w s, rfl, rfl⟩
    | cons d ds => exact ⟨(Frame.refl w s).report _, rfl, rfl⟩
  | cons b rest ih =>
    cases input with
    | nil => exact ⟨Frame.refl w s, rfl, rfl⟩
    | cons d ds =>
      simp only [scatter]
      split
      · trivial
      · next hoff =>
        refine Run.Sat.andThen ((storePayload_sat (w := w) (s := s) ?_).mono (fun _ _ h => h)
          (fun t h => ⟨h.1, by rw [h.2.1]; rfl, h.2.2⟩) fun _ _ => trivial) ?_
        · rintro x ⟨h1, h2⟩
          refine hw b (by simp) x ⟨by omega, ?_⟩
          rw [List.length_take] at h2
          omega
        · rintro _ t ⟨hf, hd, ho⟩
          refine (ih (s := { t with dev := t.dev.advance b.length.toNat _ })
            (fun c hc => hw c (List.mem_cons_of_mem _ hc))).mono ?_ ?_ fun _ h => h
          · rintro _ u ⟨kf, kd, ko⟩
            exact ⟨(hf.setDev _).trans kf,
              hd ▸ Device.sameButCursor_trans (Device.sameButCursor_advance _ _ _) kd, ko.trans ho⟩
          · rintro u ⟨kf, kd, ko⟩
            exact ⟨(hf.setDev _).trans kf,
              hd ▸ Device.sameButCursor_trans (Device.sameButCursor_advance _ _ _) kd, ko.trans ho⟩

/-- From a state that meets the cursor's invariant the scatter loop keeps it, and is stuck only where a port never
answers (R42, R79 a). -/
theorem scatter_inv {n : Nat} {bufs : List Buffer} {input : List Byte} {s : State} (hi : s.dev.CursorInv)
    (hb : input ≠ [] → bufs = s.dev.registered.drop s.dev.curIdx) :
    (scatter n bufs input s).Sat (fun _ t => t.dev.CursorInv) (fun t => t.dev.CursorInv) (fun _ => ¬ s.PortsAnswer) := by
  induction bufs generalizing input s with
  | nil => cases input <;> exact hi
  | cons b rest ih =>
    cases input with
    | nil => exact hi
    | cons d ds =>
      have hreg : s.dev.registered.drop s.dev.curIdx = b :: rest := (hb (by simp)).symm
      have hget := getElem?_of_drop hreg
      simp only [scatter]
      split
      · next hoff =>
        rcases hi.offsetBounded b hget with h | ⟨h, -⟩
        · omega
        · simp [h] at hoff
      · next hoff =>
        refine Run.Sat.andThen ((storePayload_sat (w := fun _ => True) (s := s) (fun _ _ => trivial)).mono
          (d' := fun _ t => Frame (fun _ => True) s t ∧ t.dev = s.dev)
          (fun _ _ h => ⟨h.1, h.2.1⟩) (fun t h => by rw [h.2.1]; exact hi) fun _ h => h) ?_
        rintro _ t ⟨hf, hd⟩
        refine (ih (s := { t with dev := t.dev.advance b.length.toNat _ }) ?_ ?_).mono (fun _ _ h => h) (fun _ h => h)
          fun _ h k => h ((k.of_frame hf).of_frame ((Frame.refl (fun _ => True) t).setDev _))
        · rw [hd]
          exact hi.advance hget (by omega)
        · intro hne
          simp only [ne_eq, List.drop_eq_nil_iff, not_le, List.length_cons] at hne
          dsimp only
          rw [hd]
          exact Device.drop_advance hreg (by simp only [List.length_cons]; omega)

/-- What completion does to the device after the cursor: the cached status and length, and `Notify(In)` (R188). -/
def completedDev (p : Params) (d : Device) (n : Nat) (wanted : Bool) : Device :=
  { d with
    inHdr := { d.inHdr with status := p.statusDone, actualLength := BitVec.ofNat 64 n }
    inPending := d.inPending || wanted
    irqLine := if wanted && !d.inPending then raisedLine p.irqMode d.irqLine else d.irqLine }

/-- Completion writes the header at `in_desc_addr` only and pushes nothing. -/
theorem complete_sat {w : Nat → Prop} {n : Nat} {s : State}
    (hw : ∀ x, inRange s.dev.inDescAddr.toNat s.cfg.hdrBytes x → w x) :
    (complete n s).Sat
      (fun _ t => Frame w s t ∧ t.outStream = s.outStream ∧
        t.dev = completedDev s.cfg s.dev n (notifyRequested s.cfg s.dev.inHdr.notifyFlags))
      (fun t => Frame w s t ∧ t.outStream = s.outStream ∧ t.dev = completedDev s.cfg s.dev n false)
      (fun _ => ¬ s.PortsAnswer) := by
  unfold complete
  refine Run.Sat.andThen ((encodeHeader_sat (w := w) (by simpa using hw)).mono
    (d' := fun _ t => Frame w s t ∧ t.outStream = s.outStream ∧ t.dev = completedDev s.cfg s.dev n false) ?_ ?_ ?_) ?_
  · rintro _ t ⟨hf, hd, ho⟩
    exact ⟨((Frame.refl w s).setDev _).trans hf, ho, by rw [hd]; simp [completedDev]⟩
  · rintro t ⟨hf, hd, ho⟩
    exact ⟨((Frame.refl w s).setDev _).trans hf, ho, by rw [hd]; simp [completedDev]⟩
  · exact fun _ h k => h (k.of_frame ((Frame.refl w s).setDev _))
  · rintro _ t ⟨hf, ho, hd⟩
    refine ⟨hf.trans (notifyIf_frame w _ _ t), by simpa using ho, ?_⟩
    rw [notifyIf_inn_dev, hd, hf.cfg]
    simp [completedDev]

/-- The two ways `DELIVER` may leave the device: the cursor moved, or completed after that (R184). -/
def deliveredDev (p : Params) (d e : Device) (n : Nat) : Prop :=
  d.sameButCursor e ∨ ∃ c wanted, d.sameButCursor c ∧ e = completedDev p c n wanted

/-- The two ways an error may leave the device: the cursor moved, or the cache completed and nothing notified (R190). -/
def endedDev (p : Params) (d e : Device) (n : Nat) : Prop :=
  d.sameButCursor e ∨ ∃ c, d.sameButCursor c ∧ e = completedDev p c n false

theorem endedDev.delivered {p : Params} {d e : Device} {n : Nat} (h : endedDev p d e n) : deliveredDev p d e n := by
  rcases h with h | ⟨c, h, k⟩
  · exact .inl h
  · exact .inr ⟨c, false, h, k⟩

/-- The addresses a delivery may write: the registered buffers and the registered header (R242). -/
def deliveryRange (s : State) (x : Nat) : Prop :=
  s.dev.ownsAddress x ∨ inRange s.dev.inDescAddr.toNat s.cfg.hdrBytes x

/-- `DELIVER` writes the registered buffers and the header at `in_desc_addr` only (R242), moves the cursor, the cached
status and length, the inbound flag and the line only, and pushes nothing. -/
theorem deliver_sat (d : List Byte) (s : State) :
    (deliver d s).Sat
      (fun _ t => Frame (deliveryRange s) s t ∧ t.outStream = s.outStream ∧ deliveredDev s.cfg s.dev t.dev d.length)
      (fun t => Frame (deliveryRange s) s t ∧ t.outStream = s.outStream ∧ endedDev s.cfg s.dev t.dev d.length)
      (fun _ => True) := by
  unfold deliver
  split
  · exact ⟨Frame.refl _ s, rfl, .inl rfl⟩
  · split
    · exact ⟨(Frame.refl _ s).report _, rfl, .inl rfl⟩
    · refine Run.Sat.andThen ((scatter_sat (w := deliveryRange s) ?_).mono
          (fun _ _ h => h) (fun _ h => ⟨h.1, h.2.2, .inl h.2.1⟩) fun _ h => h) ?_
      · exact fun b hb x hx => .inl ⟨b, List.mem_of_mem_drop hb, hx⟩
      · rintro _ t ⟨hf, hd, ho⟩
        have ha : t.dev.inDescAddr = s.dev.inDescAddr := by rw [hd]
        refine (complete_sat (w := deliveryRange s) ?_).mono ?_ ?_ fun _ _ => trivial
        · intro x hx
          rw [ha, hf.cfg] at hx
          exact .inr hx
        · rintro _ u ⟨kf, ko, kd⟩
          exact ⟨hf.trans kf, ko.trans ho, .inr ⟨t.dev, _, hd, by rw [kd, hf.cfg]⟩⟩
        · rintro u ⟨kf, ko, kd⟩
          exact ⟨hf.trans kf, ko.trans ho, .inr ⟨t.dev, hd, by rw [kd, hf.cfg]⟩⟩

/-- What completion leaves of the cursor's invariant: everything, for a registration. -/
theorem Device.CursorInv.completed {p : Params} {d : Device} (h : d.CursorInv) (hv : d.inValid = true) (n : Nat)
    (wanted : Bool) : (completedDev p d n wanted).CursorInv where
  countBounded := h.countBounded
  indexBounded := h.indexBounded
  offsetBounded := h.offsetBounded
  offsetAtEnd := h.offsetAtEnd
  nothingRegistered := fun k => absurd (hv.symm.trans k) (by decide)
  capacitySum := h.capacitySum

/-- `DELIVER` keeps the cursor's invariant, and is stuck only where a port never answers (R42). -/
theorem deliver_inv {d : List Byte} {s : State} (hi : s.dev.CursorInv) :
    (deliver d s).Sat (fun _ t => t.dev.CursorInv) (fun t => t.dev.CursorInv) (fun _ => ¬ s.PortsAnswer) := by
  unfold deliver
  split
  · exact hi
  · next hlive =>
    have hv : s.dev.inValid = true := by
      simp only [Device.live, Bool.not_eq_true, Bool.not_eq_false'] at hlive
      simp_all
    split
    · exact hi
    · refine Run.Sat.andThen (((scatter_sat (w := fun _ => True) (fun _ _ _ _ => trivial)).both
        (scatter_inv hi fun _ => rfl)).mono (fun _ _ h => h) (fun _ h => h.2) fun _ h => h.2) ?_
      rintro _ t ⟨⟨hf, hd, -⟩, hc⟩
      have htv : t.dev.inValid = true := by rw [hd]; exact hv
      exact (complete_sat (w := fun _ => True) (fun _ _ => trivial)).mono
        (fun _ u h => by rw [h.2.2]; exact hc.completed htv _ _) (fun u h => by rw [h.2.2]; exact hc.completed htv _ _)
        fun _ h k => h (k.of_frame hf)

end Sys2Proof.Machine
end

