-- ==== Sys2Proof/Laws/Events.lean ====
section
/-! SUPPORT. What a command adds to the record (spec/20_memory.md R72, R73): the events of each part, at most one error
that ends the command and only at its end, and the stream as the successful writes. -/

namespace Sys2Proof.Machine

/-- From `s` to `t` the record grows by `es`, and the stream by what they push. -/
def Logged (s t : State) (es : List Event) : Prop :=
  t.history = s.history ++ es ∧
  t.outStream = s.outStream ++ es.flatMap Event.pushed

theorem Logged.refl (s : State) : Logged s s [] := ⟨by simp, by simp⟩

theorem Logged.trans {s t u : State} {es fs : List Event} (h : Logged s t es) (k : Logged t u fs) :
    Logged s u (es ++ fs) := by
  refine ⟨by rw [k.1, h.1, List.append_assoc], ?_⟩
  rw [k.2, h.2, List.flatMap_append, List.append_assoc]

/-- Only the record and the stream count: any other change keeps what is logged. -/
theorem Logged.congr {s t t' : State} {es : List Event} (h : Logged s t es) (hh : t'.history = t.history)
    (ho : t'.outStream = t.outStream) : Logged s t' es := ⟨hh.trans h.1, ho.trans h.2⟩

/-- From `s` to `t` the command went on: no error that ends it is reported. -/
def GoesOn (s t : State) : Prop := ∃ es, Logged s t es ∧ ∀ e ∈ es, e.endsCommand = false

/-- From `s` to `t` the command was ended by an error, which is the last event. -/
def EndsIn (s t : State) : Prop :=
  ∃ es r, Logged s t (es ++ [.report r]) ∧ (∀ e ∈ es, e.endsCommand = false) ∧ r.endsCommand = true

theorem GoesOn.refl (s : State) : GoesOn s s := ⟨[], Logged.refl s, by simp⟩

theorem GoesOn.trans {s t u : State} (h : GoesOn s t) (k : GoesOn t u) : GoesOn s u := by
  obtain ⟨es, he, hn⟩ := h
  obtain ⟨fs, hf, kn⟩ := k
  refine ⟨es ++ fs, he.trans hf, fun e hm => ?_⟩
  rcases List.mem_append.mp hm with h | h
  · exact hn e h
  · exact kn e h

theorem GoesOn.endsIn {s t u : State} (h : GoesOn s t) (k : EndsIn t u) : EndsIn s u := by
  obtain ⟨es, he, hn⟩ := h
  obtain ⟨fs, r, hf, kn, hr⟩ := k
  refine ⟨es ++ fs, r, by simpa using he.trans hf, fun e hm => ?_, hr⟩
  rcases List.mem_append.mp hm with h | h
  · exact hn e h
  · exact kn e h

theorem GoesOn.congr {s t t' : State} (h : GoesOn s t) (hh : t'.history = t.history)
    (ho : t'.outStream = t.outStream) : GoesOn s t' := by
  obtain ⟨es, he, hn⟩ := h
  exact ⟨es, he.congr hh ho, hn⟩

/-- One event that pushes nothing and ends nothing. -/
theorem GoesOn.event {s t : State} {e : Event} (hh : t.history = s.history ++ [e]) (ho : t.outStream = s.outStream)
    (hp : e.pushed = []) (hn : e.endsCommand = false) : GoesOn s t :=
  ⟨[e], ⟨hh, by simp [ho, hp]⟩, by simpa using hn⟩

theorem endsIn_report {r : Report} (s : State) (h : r.endsCommand = true) : EndsIn s (report r s) :=
  ⟨[], r, ⟨by simp, by simp [Event.pushed]⟩, by simp, h⟩

theorem GoesOn.noEnd {s t : State} {es : List Event} (h : GoesOn s t) (he : t.history = s.history ++ es) :
    ∀ e ∈ es, e.endsCommand = false := by
  obtain ⟨fs, hf, hn⟩ := h
  have := List.append_cancel_left (he.symm.trans hf.1)
  subst this
  exact hn

theorem EndsIn.one {s t : State} {es : List Event} (h : EndsIn s t) (he : t.history = s.history ++ es) :
    ∃ fs r, es = fs ++ [.report r] ∧ (∀ e ∈ fs, e.endsCommand = false) ∧ r.endsCommand = true := by
  obtain ⟨fs, r, hf, hn, hr⟩ := h
  exact ⟨fs, r, List.append_cancel_left (he.symm.trans hf.1), hn, hr⟩

/-- One part after another, each going on or ending. -/
theorem Run.Sat.goesOn_andThen {α β : Type} {s : State} {r : Run α} {k : α → State → Run β} {f : Fault → Prop}
    (h : r.Sat (fun _ t => GoesOn s t) (EndsIn s) f)
    (hk : ∀ x t, (k x t).Sat (fun _ u => GoesOn t u) (EndsIn t) fun _ => True) :
    (r.andThen k).Sat (fun _ t => GoesOn s t) (EndsIn s) fun _ => True :=
  Run.Sat.andThen (h.mono (fun _ _ h => h) (fun _ h => h) fun _ _ => trivial) fun x t ht =>
    (hk x t).mono (fun _ _ h => ht.trans h) (fun _ h => ht.endsIn h) fun _ h => h

theorem memRead_goesOn (addr n : Nat) (s : State) :
    (memRead addr n s).Sat (fun _ t => GoesOn s t) (EndsIn s) fun _ => True := by
  unfold memRead
  split
  · exact GoesOn.refl s
  · split
    next t s' heq =>
    have hh : s'.history = s.history := by simpa [heq] using takeMemTurn_history s
    have ho : s'.outStream = s.outStream := by simpa [heq] using takeMemTurn_outStream s
    split
    · trivial
    · exact GoesOn.event (by rw [State.record_history, hh]) ho rfl rfl
    · exact GoesOn.event (by rw [State.record_history, hh]) ho rfl rfl

theorem memWrite_goesOn (addr : Nat) (v : List Byte) (s : State) :
    (memWrite addr v s).Sat (fun _ t => GoesOn s t) (EndsIn s) fun _ => True := by
  unfold memWrite
  split
  · exact GoesOn.refl s
  · split
    next t s' heq =>
    have hh : s'.history = s.history := by simpa [heq] using takeMemTurn_history s
    have ho : s'.outStream = s.outStream := by simpa [heq] using takeMemTurn_outStream s
    split
    · trivial
    · exact GoesOn.event (by rw [State.record_history]; dsimp only; rw [hh]) ho rfl rfl
    · exact GoesOn.event (by rw [State.record_history]; dsimp only; rw [hh]) ho rfl rfl

theorem beWrite_goesOn (w : List Byte) (s : State) :
    (beWrite w s).Sat (fun _ t => GoesOn s t) (EndsIn s) fun _ => True := by
  unfold beWrite
  split
  next t s' heq =>
  have hh : s'.history = s.history := by simpa [heq] using takeBeTurn_history s
  have ho : s'.outStream = s.outStream := by simpa [heq] using takeBeTurn_outStream s
  split
  · trivial
  · exact GoesOn.event (by rw [State.record_history]; dsimp only; rw [hh]) ho rfl rfl
  · exact ⟨[.beWrite w], ⟨by rw [State.record_history]; dsimp only; rw [hh],
      by simp [ho, Event.pushed]⟩, by simp [Event.endsCommand]⟩

theorem fetch_goesOn (addr n : Nat) (s : State) :
    (fetch addr n s).Sat (fun _ t => GoesOn s t) (EndsIn s) fun _ => True := by
  refine (memRead_goesOn addr n s).goesOn_andThen fun r t => ?_
  split
  · exact GoesOn.refl t
  · exact endsIn_report t rfl

theorem store_goesOn (addr : Nat) (v : List Byte) (s : State) :
    (store addr v s).Sat (fun _ t => GoesOn s t) (EndsIn s) fun _ => True := by
  refine (memWrite_goesOn addr v s).goesOn_andThen fun r t => ?_
  split
  · exact GoesOn.refl t
  · exact endsIn_report t rfl

theorem push_goesOn (w : List Byte) (buffer offset : Nat) (s : State) :
    (push w buffer offset s).Sat (fun _ t => GoesOn s t) (EndsIn s) fun _ => True := by
  refine (beWrite_goesOn w s).goesOn_andThen fun r t => ?_
  split
  · exact GoesOn.refl t
  · exact endsIn_report t rfl

theorem decodeSGL_goesOn (a : Word64) (s : State) :
    (decodeSGL a s).Sat (fun _ t => GoesOn s t) (EndsIn s) fun _ => True := by
  refine (fetch_goesOn _ _ s).goesOn_andThen fun r t => ?_
  dsimp only
  split
  · exact endsIn_report t rfl
  · refine Run.Sat.goesOn_andThen (f := fun _ => True) ?_ fun bl u => GoesOn.refl u
    unfold fetchList
    split
    · exact GoesOn.refl t
    · exact (fetch_goesOn _ _ t).goesOn_andThen fun q u => GoesOn.refl u

theorem drainBuffer_goesOn (b : Buffer) (buffer chunks off : Nat) (s : State) :
    (drainBuffer b buffer chunks off s).Sat (fun _ t => GoesOn s t) (EndsIn s) fun _ => True := by
  induction chunks generalizing off s with
  | zero => exact GoesOn.refl s
  | succ n ih =>
    unfold drainBuffer
    split
    · exact (fetch_goesOn _ _ s).goesOn_andThen fun w t => (push_goesOn w _ _ t).goesOn_andThen fun _ u => ih _ u
    · exact GoesOn.refl s

theorem drainBuffers_goesOn (bufs : List Buffer) (buffer : Nat) (s : State) :
    (drainBuffers bufs buffer s).Sat (fun _ t => GoesOn s t) (EndsIn s) fun _ => True := by
  induction bufs generalizing buffer s with
  | nil => exact GoesOn.refl s
  | cons b rest ih => exact (drainBuffer_goesOn b buffer _ 0 s).goesOn_andThen fun _ t => ih _ t

/-- What the raise adds to the record (R211, R212). -/
theorem irqRaise_history (s : State) :
    (irqRaise s).history = s.history ++ raiseEvents s.cfg.irqMode s.dev.irqLine := by
  unfold irqRaise raiseEvents
  split
  · simp_all
  · simp_all [driveLine_history]

/-- What `Notify` adds to the record (R210): the raise's events, unless it is suppressed. -/
theorem notifyIf_history (b : Bool) (dir : Direction) (s : State) : (notifyIf b dir s).history =
    s.history ++ (if b = true ∧ s.dev.pending dir = false then raiseEvents s.cfg.irqMode s.dev.irqLine else []) := by
  unfold notifyIf notify
  cases b
  · simp
  · by_cases h : s.dev.pending dir = true
    · simp [h]
    · simp [h, irqRaise_history]

theorem notifyIf_goesOn (b : Bool) (dir : Direction) (s : State) : GoesOn s (notifyIf b dir s) := by
  refine ⟨_, ⟨notifyIf_history b dir s, ?_⟩, ?_⟩
  · rw [notifyIf_outStream]
    split
    · unfold raiseEvents; split <;> [skip; split] <;> simp [Event.pushed]
    · simp
  · split
    · unfold raiseEvents; split <;> [skip; split] <;> simp [Event.endsCommand]
    · simp

/-- `OUT_SUBMIT` reports no ending error if it completes, and exactly one, last, if it aborts. -/
theorem outSubmit_goesOn (a : Word64) (s : State) :
    (outSubmit a s).Sat (fun _ t => GoesOn s t) (EndsIn s) fun _ => True := by
  refine (decodeSGL_goesOn a s).goesOn_andThen fun sgl t => ?_
  refine (drainBuffers_goesOn _ _ t).goesOn_andThen fun _ u => ?_
  exact (store_goesOn _ _ _).mono (fun _ _ h => (notifyIf_goesOn _ _ u).trans h)
    (fun _ h => (notifyIf_goesOn _ _ u).endsIn h) fun _ h => h

theorem countStale_goesOn (a : Word64) (s : State) : GoesOn s (countStale a s) := by
  unfold countStale
  split
  · exact GoesOn.event (e := .report _) (by rw [report_history]) rfl rfl rfl
  · exact GoesOn.refl s

/-- `IN_REGISTER` reports no ending error if it completes, and exactly one, last, if it aborts. -/
theorem inRegister_goesOn (a : Word64) (s : State) :
    (inRegister a s).Sat (fun _ t => GoesOn s t) (EndsIn s) fun _ => True :=
  (decodeSGL_goesOn a s).goesOn_andThen fun _ t => (countStale_goesOn a t).congr rfl rfl

theorem storePayload_goesOn (addr : Nat) (v : List Byte) (s : State) :
    (storePayload addr v s).Sat (fun _ t => GoesOn s t) (EndsIn s) fun _ => True := by
  unfold storePayload
  split
  · exact GoesOn.refl s
  · exact store_goesOn addr v s

theorem scatter_goesOn (n : Nat) (bufs : List Buffer) (input : List Byte) (s : State) :
    (scatter n bufs input s).Sat (fun _ t => GoesOn s t) (EndsIn s) fun _ => True := by
  induction bufs generalizing input s with
  | nil =>
    cases input with
    | nil => exact GoesOn.refl s
    | cons d ds => exact endsIn_report s rfl
  | cons b rest ih =>
    cases input with
    | nil => exact GoesOn.refl s
    | cons d ds =>
      simp only [scatter]
      split
      · trivial
      · exact (storePayload_goesOn _ _ s).goesOn_andThen fun _ t => ih _ { t with dev := _ }

theorem complete_goesOn (n : Nat) (s : State) :
    (complete n s).Sat (fun _ t => GoesOn s t) (EndsIn s) fun _ => True :=
  (store_goesOn s.dev.inDescAddr.toNat _ { s with dev := _ }).goesOn_andThen fun _ t => notifyIf_goesOn _ _ t

/-- `DELIVER` reports no ending error if it completes, and exactly one, last, if it aborts. -/
theorem deliver_goesOn (d : List Byte) (s : State) :
    (deliver d s).Sat (fun _ t => GoesOn s t) (EndsIn s) fun _ => True := by
  unfold deliver
  split
  · exact GoesOn.refl s
  · split
    · exact endsIn_report s rfl
    · exact (scatter_goesOn _ _ _ s).goesOn_andThen fun _ t => complete_goesOn _ t

end Sys2Proof.Machine
end

