-- ==== Sys2Proof/Laws/Quiet.lean ====
section
/-! SUPPORT. The commands on quiet ports, where nothing races and nothing fails: what each port operation and each loop
answers, said once. -/

namespace Sys2Proof.Machine

/-- No access to guest memory is raced, refused or left unanswered. -/
def State.MemQuiet (s : State) : Prop := ∀ t ∈ s.memTurns, t = MemTurn.quiet

theorem State.MemQuiet.of_suffix {s t : State} (h : s.MemQuiet) (k : t.memTurns <:+ s.memTurns) : t.MemQuiet :=
  fun x hx => h x (k.mem hx)

/-- The first `n` turns, of those there are, are all `x`. -/
def Leading {α : Type} (x : α) (n : Nat) (turns : List α) : Prop := ∀ t ∈ turns.take n, t = x

theorem Leading.of_all {α : Type} {x : α} {turns : List α} (h : ∀ t ∈ turns, t = x) (n : Nat) : Leading x n turns :=
  fun t ht => h t (List.mem_of_mem_take ht)

theorem Leading.replicate {α : Type} (x : α) (n : Nat) (rest : List α) : Leading x n (List.replicate n x ++ rest) := by
  intro t ht
  rw [List.take_left' (by simp)] at ht
  exact List.eq_of_mem_replicate ht

theorem Leading.drop {α : Type} {x : α} {n k : Nat} {turns : List α} (h : Leading x (n + k) turns) :
    Leading x k (turns.drop n) := by
  intro t ht
  rw [List.take_drop] at ht
  exact h t (List.mem_of_mem_drop ht)

theorem Leading.mono {α : Type} {x : α} {n k : Nat} {turns : List α} (h : Leading x n turns) (hk : k ≤ n) :
    Leading x k turns :=
  fun t ht => h t ((List.take_subset_take_left turns hk) ht)

theorem Leading.headD {α : Type} {x : α} {n : Nat} {turns : List α} (h : Leading x (n + 1) turns) :
    turns.headD x = x := by
  cases turns with
  | nil => rfl
  | cons t rest => exact h t (by simp)

/-! ### The ports -/

theorem takeMemTurn_head {s : State} (h : s.memTurns.headD MemTurn.quiet = MemTurn.quiet) :
    takeMemTurn s = (MemTurn.quiet, { s with memTurns := s.memTurns.tail }) := by
  unfold takeMemTurn
  split
  · next hs => rw [hs, List.tail_nil, ← hs]
  · next t rest hs =>
    rw [hs, List.headD_cons] at h
    subst h
    simp [hs, MemTurn.quiet, Memory.putStores]

theorem State.MemQuiet.head {s : State} (h : s.MemQuiet) : s.memTurns.headD MemTurn.quiet = MemTurn.quiet :=
  (Leading.of_all h 1).headD

/-- A read that is granted and not raced. -/
theorem fetch_granted {s : State} (h : s.memTurns.headD MemTurn.quiet = MemTurn.quiet) {addr n : Nat}
    (hr : addr + n ≤ addressSpace) : fetch addr n s = .done (s.mem.bytesAt addr n)
      { s with memTurns := s.memTurns.tail, history := s.history ++ [.memRead addr n (some (s.mem.bytesAt addr n))] } := by
  simp [fetch, memRead, Nat.not_lt.mpr hr, takeMemTurn_head h, MemTurn.quiet, State.record]

/-- A read that `M` refuses (R245). -/
theorem fetch_refused {s : State} {t : MemTurn} {rest : List MemTurn} (h : s.memTurns = t :: rest)
    (ht : t.verdict = .refuses) {addr n : Nat} (hr : addr + n ≤ addressSpace) : fetch addr n s = .aborted
      { s with memTurns := rest, mem := s.mem.putStores t.guestStores,
               history := s.history ++ [.memRead addr n none, .report (.guestAccessFailure addr n)] } := by
  simp [fetch, memRead, Nat.not_lt.mpr hr, takeMemTurn, h, ht, raise, report, State.record]

/-- A read that would pass `2^64` is not attempted (R66). -/
theorem fetch_past {s : State} {addr n : Nat} (hr : addressSpace < addr + n) : fetch addr n s = .aborted
      { s with history := s.history ++ [.report (.guestAccessFailure addr n)] } := by
  simp [fetch, memRead, hr, raise, report, State.record]

/-- A write that is granted. -/
theorem store_granted {s : State} (h : s.memTurns.headD MemTurn.quiet = MemTurn.quiet) {addr : Nat} {v : List Byte}
    (hr : addr + v.length ≤ addressSpace) : store addr v s = .done ()
      { s with memTurns := s.memTurns.tail, mem := s.mem.putBytes addr v,
               history := s.history ++ [.memWrite addr v true] } := by
  simp [store, memWrite, Nat.not_lt.mpr hr, takeMemTurn_head h, MemTurn.quiet, State.record]

/-- A write that `M` refuses (R66, R245). -/
theorem store_refused {s : State} {t : MemTurn} {rest : List MemTurn} (h : s.memTurns = t :: rest)
    (ht : t.verdict = .refuses) {addr : Nat} {v : List Byte} (hr : addr + v.length ≤ addressSpace) :
    store addr v s = .aborted
      { s with memTurns := rest, mem := (s.mem.putStores t.guestStores).putSome s.freeDraws 0 addr v,
               freeDraws := s.freeDraws + 1,
               history := s.history ++ [.memWrite addr v false, .report (.guestAccessFailure addr v.length)] } := by
  simp [store, memWrite, Nat.not_lt.mpr hr, takeMemTurn, h, ht, raise, report, State.record]

/-- A write the backend takes. -/
theorem push_takes {s : State} (h : s.beTurns.headD .takes = .takes) (w : List Byte) (buffer offset : Nat) :
    push w buffer offset s = .done ()
      { s with beTurns := s.beTurns.tail, outStream := s.outStream ++ w, history := s.history ++ [.beWrite w] } := by
  unfold push beWrite takeBeTurn
  cases hs : s.beTurns with
  | nil => simp [State.record, hs]
  | cons t rest =>
    rw [hs] at h
    simp only [List.headD_cons] at h
    subst h
    simp [State.record]

/-- A write the backend fails, of which it took `k` bytes. -/
theorem push_fails {s : State} {rest : List BeTurn} (h : s.beTurns = .fails :: rest) (w : List Byte)
    (buffer offset : Nat) : ∃ k, k ≤ w.length ∧ push w buffer offset s = .aborted
      { s with beTurns := rest, freeDraws := s.freeDraws + 1,
               history := s.history ++ [.beWriteFailed w k, .report (.backendWriteFailure buffer offset)] } := by
  refine ⟨min w.length (Config.freeTaken s.freeDraws), Nat.min_le_left _ _, ?_⟩
  simp [push, beWrite, takeBeTurn, h, raise, report, State.record]

/-! ### The descriptor fetch -/

/-- The machine after the descriptor fetch on quiet memory. -/
def State.fetched (s : State) (a : Word64) : State :=
  { s with memTurns := s.memTurns.drop (s.fetchEvents a).length, history := s.history ++ s.fetchEvents a }

/-- The descriptor fetch of an SGL that can be fetched (R140). -/
theorem decodeSGL_granted {s : State} {a : Word64} (h : Leading MemTurn.quiet (s.fetchEvents a).length s.memTurns)
    (hs : s.SglFetchable a) : decodeSGL a s = .done (s.headerAt a, s.buffersAt a) (s.fetched a) := by
  obtain ⟨hc, hf⟩ := hs
  unfold fitsSpace at hf
  have h1 : s.memTurns.headD MemTurn.quiet = MemTurn.quiet := by
    unfold State.fetchEvents at h
    exact Leading.headD h
  unfold decodeSGL
  rw [fetch_granted h1 (by omega)]
  simp only [Run.done_andThen, Given.val_eq]
  rw [show decodeHeader s.cfg (s.mem.bytesAt a.toNat s.cfg.hdrBytes) = s.headerAt a from rfl,
    if_neg (Nat.not_lt.mpr hc)]
  unfold fetchList State.fetched
  by_cases h0 : (s.headerAt a).bufferCount = 0
  · have hb : s.buffersAt a = [] := by simp [State.buffersAt, h0, decodeBuffers]
    simp [h0, hb, State.fetchEvents]
  · have h0' : (s.headerAt a).bufferCount.toNat ≠ 0 := fun e => h0 (BitVec.eq_of_toNat_eq e)
    have h2 : s.memTurns.tail.headD MemTurn.quiet = MemTurn.quiet := by
      simp only [State.fetchEvents, h0, if_false, List.length_cons, List.length_nil] at h
      rw [← List.drop_one]
      exact (Leading.drop (n := 1) (k := 1) h).headD
    rw [if_neg h0']
    simp only [Given.val_eq]
    rw [fetch_granted (s := { s with memTurns := s.memTurns.tail, history := _ }) h2 (by omega)]
    unfold State.fetchEvents
    rw [if_neg h0]
    simp [State.buffersAt, ← List.drop_one]

/-! ### The drain as its chunks -/

/-- The drain of a list of chunks: each read, then pushed. -/
def drainChunks : List Chunk → State → Run Unit
  | [], s => .done () s
  | c :: rest, s =>
    (fetch c.address c.size s).andThen fun w s =>
      (push w c.buffer c.offset s).andThen fun _ s => drainChunks rest s

theorem Run.andThen_assoc {α β γ : Type} (r : Run α) (k : α → State → Run β) (l : β → State → Run γ) :
    (r.andThen k).andThen l = r.andThen fun x s => (k x s).andThen l := by
  cases r <;> rfl

theorem drainChunks_append (cs ds : List Chunk) (s : State) :
    drainChunks (cs ++ ds) s = (drainChunks cs s).andThen fun _ s => drainChunks ds s := by
  induction cs generalizing s with
  | nil => rfl
  | cons c rest ih => simp only [List.cons_append, drainChunks, ih, Run.andThen_assoc]

/-- The loop over one buffer from its `j`-th chunk on is the drain of the chunks that are left (R161). -/
theorem drainBuffer_eq_from (b : Buffer) (index : Nat) {n j off : Nat} (s : State)
    (hn : j + n = (b.length.toNat + (Config.windowBytes - 1)) / Config.windowBytes)
    (ho : n ≠ 0 → off = Config.windowBytes * j) :
    drainBuffer b index n off s = drainChunks ((List.range' j n).map fun j =>
      ⟨index, Config.windowBytes * j, b.base.toNat + Config.windowBytes * j,
        min Config.windowBytes (b.length.toNat - Config.windowBytes * j)⟩) s := by
  induction n generalizing j off s with
  | zero => rfl
  | succ n ih =>
    have ho := ho (by simp)
    subst ho
    rw [List.range'_succ, List.map_cons, drainChunks, drainBuffer, if_pos (by simp only [Config.windowBytes] at *; omega)]
    simp only [Given.val_eq]
    congr 1
    funext w t
    congr 1
    funext _ u
    exact ih u (by omega) (fun hz => by simp only [Config.windowBytes] at *; omega)

/-- The loop of R160 step 2 is the drain of its chunks, in order, whatever the ports answer (R161). -/
theorem drainBuffers_eq (bufs : List Buffer) (index : Nat) (s : State) :
    drainBuffers bufs index s = drainChunks (chunksFrom index bufs) s := by
  induction bufs generalizing index s with
  | nil => rfl
  | cons b rest ih =>
    rw [drainBuffers, chunksFrom, drainChunks_append, drainBuffer_eq_from b index (j := 0) (off := 0) s
      (by rw [Nat.zero_add, chunkCount, Given.val_eq]) (fun _ => rfl)]
    simp only [chunkCount, Given.val_eq, Buffer.chunks, List.range_eq_range', ih]

/-- The machine after these chunks are drained on quiet ports. -/
def State.drained (s : State) (cs : List Chunk) : State :=
  { s with
    memTurns := s.memTurns.drop cs.length
    beTurns := s.beTurns.drop cs.length
    outStream := s.outStream ++ cs.flatMap s.chunkBytes
    history := s.history ++ cs.flatMap s.chunkEvents }

/-- Chunks that lie in the address space, with quiet ports for as long as they last, are drained whole (R160). -/
theorem drainChunks_granted {cs : List Chunk} {s : State} (hf : ∀ c ∈ cs, c.Fits)
    (hm : Leading MemTurn.quiet cs.length s.memTurns) (hb : Leading BeTurn.takes cs.length s.beTurns) :
    drainChunks cs s = .done () (s.drained cs) := by
  induction cs generalizing s with
  | nil => simp [drainChunks, State.drained]
  | cons c rest ih =>
    have hc : c.address + c.size ≤ addressSpace := hf c (by simp)
    rw [List.length_cons] at hm hb
    rw [drainChunks, fetch_granted hm.headD hc]
    simp only [Run.done_andThen]
    rw [push_takes (s := { s with memTurns := s.memTurns.tail, history := _ }) hb.headD]
    simp only [Run.done_andThen]
    rw [ih (fun d hd => hf d (by simp [hd]))
      (by rw [Nat.add_comm] at hm; simpa using hm.drop) (by rw [Nat.add_comm] at hb; simpa using hb.drop)]
    simp only [State.drained, List.drop_tail, List.length_cons, List.flatMap_cons, List.append_assoc]
    rfl

/-! ### The chunks and the buffers' contents -/

theorem mem_chunks {b : Buffer} {index : Nat} {c : Chunk} (h : c ∈ b.chunks index) : ∃ j,
    Config.windowBytes * j < b.length.toNat ∧ c = ⟨index, Config.windowBytes * j, b.base.toNat + Config.windowBytes * j,
      min Config.windowBytes (b.length.toNat - Config.windowBytes * j)⟩ := by
  obtain ⟨j, hj, rfl⟩ := List.mem_map.mp h
  rw [List.mem_range] at hj
  exact ⟨j, by simp only [Config.windowBytes] at *; omega, rfl⟩

/-- The chunks of a buffer that lies in the address space lie in it. -/
theorem chunksFrom_fit {bufs : List Buffer} {index : Nat} (h : ∀ b ∈ bufs, fitsSpace b.base.toNat b.length.toNat) :
    ∀ c ∈ chunksFrom index bufs, c.Fits := by
  induction bufs generalizing index with
  | nil => simp [chunksFrom]
  | cons b rest ih =>
    intro c hc
    rcases List.mem_append.mp hc with hc | hc
    · obtain ⟨j, hj, rfl⟩ := mem_chunks hc
      have hb := h b (by simp)
      unfold fitsSpace at hb
      simp only [Chunk.Fits, fitsSpace, Config.windowBytes] at *
      omega
    · exact ih (fun d hd => h d (by simp [hd])) c hc

/-- The bytes of a buffer's chunks, from the `j`-th on, are the rest of its bytes. -/
theorem chunkBytes_from (s : State) (b : Buffer) (index : Nat) {n j : Nat}
    (hn : j + n = (b.length.toNat + (Config.windowBytes - 1)) / Config.windowBytes) :
    ((List.range' j n).map fun j => (⟨index, Config.windowBytes * j, b.base.toNat + Config.windowBytes * j,
        min Config.windowBytes (b.length.toNat - Config.windowBytes * j)⟩ : Chunk)).flatMap s.chunkBytes =
      s.mem.bytesAt (b.base.toNat + Config.windowBytes * j) (b.length.toNat - Config.windowBytes * j) := by
  induction n generalizing j with
  | zero =>
    rw [show b.length.toNat - Config.windowBytes * j = 0 by simp only [Config.windowBytes] at *; omega]
    rfl
  | succ n ih =>
    rw [List.range'_succ, List.map_cons, List.flatMap_cons, ih (by omega)]
    simp only [State.chunkBytes]
    by_cases hl : b.length.toNat - Config.windowBytes * j ≤ Config.windowBytes
    · rw [Nat.min_eq_right hl, show b.length.toNat - Config.windowBytes * (j + 1) = 0 by
        simp only [Config.windowBytes] at *; omega]
      simp [Memory.bytesAt]
    · rw [Nat.min_eq_left (by omega), show b.base.toNat + Config.windowBytes * (j + 1) =
        b.base.toNat + Config.windowBytes * j + Config.windowBytes by ring, ← Memory.bytesAt_add,
        show Config.windowBytes + (b.length.toNat - Config.windowBytes * (j + 1)) =
          b.length.toNat - Config.windowBytes * j by simp only [Config.windowBytes] at *; omega]

/-- The chunks hold the buffers' contents, whole, in list order (R80). -/
theorem chunkBytes_chunksFrom (s : State) (bufs : List Buffer) (index : Nat) :
    (chunksFrom index bufs).flatMap s.chunkBytes = s.contentsOf bufs := by
  induction bufs generalizing index with
  | nil => rfl
  | cons b rest ih =>
    have := chunkBytes_from s b index (j := 0) (by rw [Nat.zero_add])
    rw [chunksFrom, List.flatMap_append, ih, Buffer.chunks, List.range_eq_range', this]
    simp [State.contentsOf]

/-! ### `OUT_SUBMIT` on quiet ports -/

/-- The machine after the descriptor fetch and the first `k` chunks on quiet ports. -/
def State.afterChunks (s : State) (a : Word64) (k : Nat) : State :=
  { s with
    memTurns := s.memTurns.drop ((s.fetchEvents a).length + k)
    beTurns := s.beTurns.drop k
    outStream := s.outStream ++ ((s.chunksAt a).take k).flatMap s.chunkBytes
    history := s.history ++ s.fetchEvents a ++ ((s.chunksAt a).take k).flatMap s.chunkEvents }

section afterChunks
variable (s : State) (a : Word64) (k : Nat)
@[simp] theorem State.afterChunks_dev : (s.afterChunks a k).dev = s.dev := rfl
@[simp] theorem State.afterChunks_cfg : (s.afterChunks a k).cfg = s.cfg := rfl
@[simp] theorem State.afterChunks_backend : (s.afterChunks a k).backend = s.backend := rfl
@[simp] theorem State.afterChunks_mem : (s.afterChunks a k).mem = s.mem := rfl
@[simp] theorem State.afterChunks_arrivals : (s.afterChunks a k).arrivals = s.arrivals := rfl
@[simp] theorem State.afterChunks_freeDraws : (s.afterChunks a k).freeDraws = s.freeDraws := rfl
@[simp] theorem State.afterChunks_memTurns :
    (s.afterChunks a k).memTurns = s.memTurns.drop ((s.fetchEvents a).length + k) := rfl
@[simp] theorem State.afterChunks_beTurns : (s.afterChunks a k).beTurns = s.beTurns.drop k := rfl
theorem State.afterChunks_outStream :
    (s.afterChunks a k).outStream = s.outStream ++ ((s.chunksAt a).take k).flatMap s.chunkBytes := rfl
theorem State.afterChunks_history : (s.afterChunks a k).history =
    s.history ++ s.fetchEvents a ++ ((s.chunksAt a).take k).flatMap s.chunkEvents := rfl
end afterChunks

/-- `OUT_SUBMIT` with quiet ports for the descriptor fetch and `k` chunks: what is left to do is the other chunks, the
notification and the header write-back (R160). -/
theorem outSubmit_from {s : State} {a : Word64} {k : Nat} (hs : s.SglFetchable a)
    (hk : k ≤ (s.chunksAt a).length) (hf : ∀ c ∈ (s.chunksAt a).take k, c.Fits)
    (hm : Leading MemTurn.quiet ((s.fetchEvents a).length + k) s.memTurns) (hb : Leading BeTurn.takes k s.beTurns) :
    outSubmit a s = (drainChunks ((s.chunksAt a).drop k) (s.afterChunks a k)).andThen fun _ t => encodeHeader a
      { s.headerAt a with status := t.cfg.statusDone }
      (notifyIf (notifyRequested t.cfg (s.headerAt a).notifyFlags) .out t) := by
  have hl : ((s.chunksAt a).take k).length = k := by rw [List.length_take]; omega
  have hd : drainChunks (s.chunksAt a) (s.fetched a) = drainChunks ((s.chunksAt a).drop k) (s.afterChunks a k) := by
    conv_lhs => rw [← List.take_append_drop k (s.chunksAt a), drainChunks_append]
    rw [drainChunks_granted (s := s.fetched a) hf (by rw [hl]; exact hm.drop) (by rw [hl]; exact hb)]
    simp only [Run.done_andThen, State.drained, State.fetched, hl, List.drop_drop]
    rfl
  unfold outSubmit
  rw [decodeSGL_granted (hm.mono (by omega)) hs]
  simp only [Run.done_andThen, drainBuffers_eq, notifyIf_cfg]
  rw [← hd]
  rfl

/-- All chunks drained, what is left is the header write-back. -/
theorem outSubmit_drained {s : State} {a : Word64} (hs : s.SglFetchable a) (hf : ∀ c ∈ s.chunksAt a, c.Fits)
    (hm : Leading MemTurn.quiet ((s.fetchEvents a).length + (s.chunksAt a).length) s.memTurns)
    (hb : Leading BeTurn.takes (s.chunksAt a).length s.beTurns) :
    outSubmit a s = encodeHeader a { s.headerAt a with status := s.cfg.statusDone }
      (notifyIf (notifyRequested s.cfg (s.headerAt a).notifyFlags) .out
        (s.afterChunks a (s.chunksAt a).length)) := by
  rw [outSubmit_from hs (Nat.le_refl _) (by rwa [List.take_length]) hm hb, List.drop_length]
  rfl

/-- The chunk that comes next, and what it ends in. -/
theorem outSubmit_at {s : State} {a : Word64} {k : Nat} {c : Chunk} (hs : s.SglFetchable a)
    (hk : (s.chunksAt a)[k]? = some c) (hf : ∀ c ∈ (s.chunksAt a).take k, c.Fits)
    (hm : Leading MemTurn.quiet ((s.fetchEvents a).length + k) s.memTurns) (hb : Leading BeTurn.takes k s.beTurns)
    {u : State} (hu : (fetch c.address c.size (s.afterChunks a k)).andThen (fun w s => push w c.buffer c.offset s) =
      .aborted u) : outSubmit a s = .aborted u := by
  obtain ⟨hlt, rfl⟩ := List.getElem?_eq_some_iff.mp hk
  rw [outSubmit_from hs (Nat.le_of_lt hlt) hf hm hb, List.drop_eq_getElem_cons hlt, drainChunks,
    ← Run.andThen_assoc, hu]
  rfl

/-! ### The scatter -/

theorem Memory.putAt_append (m : Memory) {l₁ l₂ : List Nat} {v₁ v₂ : List Byte} (h : l₁.length = v₁.length) :
    m.putAt (l₁ ++ l₂) (v₁ ++ v₂) = (m.putAt l₁ v₁).putAt l₂ v₂ := by
  simp [Memory.putAt, List.zip_append h]

/-- Bytes beyond the slots are not stored. -/
@[simp] theorem Memory.putAt_nil (m : Memory) (v : List Byte) : m.putAt [] v = m := rfl

/-- Slots beyond the bytes are not written. -/
theorem Memory.putAt_range (m : Memory) {a n : Nat} (l : List Nat) {v : List Byte} (h : v.length ≤ n) :
    m.putAt (List.range' a n ++ l) v = m.putBytes a v := by
  induction v generalizing m a n with
  | nil => simp [Memory.putAt, Memory.putBytes]
  | cons b rest ih =>
    cases n with
    | zero => simp at h
    | succ n =>
      simp only [List.length_cons, Nat.add_le_add_iff_right] at h
      rw [List.range'_succ, List.cons_append, Memory.putBytes, ← ih (m.put a b) h]
      rfl

/-- The slots of a list of buffers, in the order of the byte stream. -/
def slotsOf (bufs : List Buffer) : List Nat := bufs.flatMap fun b => List.range' b.base.toNat b.length.toNat

theorem length_slotsOf (bufs : List Buffer) : (slotsOf bufs).length = sumLengths bufs := by
  simp [slotsOf, sumLengths, List.length_flatMap]

theorem Device.freeSlots_eq (d : Device) : d.freeSlots = (slotsOf (d.registered.drop d.curIdx)).drop d.curOff.toNat := rfl

theorem drop_slotsOf {b : Buffer} {rest : List Buffer} {off : Nat} (h : off ≤ b.length.toNat) :
    (slotsOf (b :: rest)).drop off = List.range' (b.base.toNat + off) (b.length.toNat - off) ++ slotsOf rest := by
  rw [slotsOf, List.flatMap_cons, List.drop_append_of_le_length (by simpa using h)]
  simp [slotsOf]

/-- From `s` to `t` the scatter wrote memory inside the buffers at and after the cursor, and did nothing else but move
the cursor and, in the end, report. -/
structure Scattered (s t : State) (mem : Memory) (es : List Event) : Prop where
  eq : t = { s with
    memTurns := t.memTurns
    mem := mem
    history := s.history ++ es
    dev := { s.dev with curIdx := t.dev.curIdx, curOff := t.dev.curOff } }
  turns : t.memTurns <:+ s.memTurns

/-- Every event is a granted write inside the buffers. -/
def WritesInside (bufs : List Buffer) (es : List Event) : Prop :=
  ∀ e ∈ es, ∃ x bytes, e = .memWrite x bytes true ∧
    ∀ y, inRange x bytes.length y → ∃ b ∈ bufs, inRange b.base.toNat b.length.toNat y

theorem WritesInside.mono {bufs bufs' : List Buffer} {es : List Event} (h : WritesInside bufs es)
    (k : ∀ b ∈ bufs, b ∈ bufs') : WritesInside bufs' es := by
  intro e he
  obtain ⟨x, bytes, rfl, hy⟩ := h e he
  exact ⟨x, bytes, rfl, fun y h => let ⟨b, hb, hr⟩ := hy y h; ⟨b, k b hb, hr⟩⟩

theorem storePayload_quiet {s : State} (hm : s.MemQuiet) {addr : Nat} {v : List Byte}
    (hr : v ≠ [] → addr + v.length ≤ addressSpace) :
    ∃ mt es, mt <:+ s.memTurns ∧ (∀ e ∈ es, e = .memWrite addr v true) ∧ storePayload addr v s = .done ()
      { s with memTurns := mt, mem := s.mem.putBytes addr v, history := s.history ++ es } := by
  unfold storePayload
  split
  · next h =>
    refine ⟨s.memTurns, [], List.suffix_refl _, by simp, ?_⟩
    rw [List.isEmpty_iff.mp h]
    simp [Memory.putBytes]
  · next h => exact ⟨_, [_], List.tail_suffix _, by simp, store_granted hm.head (hr (by simpa using h))⟩

/-- The scatter on quiet memory (R184, R185), when the slots it fills lie in the address space: the input goes to the
free slots in order; if it fits, the cursor ends at the position after it; if not, the buffers are full, the cursor is
one past the last and E2 ends the command. -/
theorem scatter_quiet {n : Nat} {bufs : List Buffer} {input : List Byte} {s : State} (hm : s.MemQuiet)
    (hi : s.dev.CursorInv) (hb : input ≠ [] → bufs = s.dev.registered.drop s.dev.curIdx)
    (hfit : ∀ x ∈ s.dev.freeSlots.take input.length, x < addressSpace) :
    (input.length ≤ s.dev.freeSlots.length → ∃ t es, scatter n bufs input s = .done () t ∧ WritesInside bufs es ∧
      Scattered s t (s.mem.putAt s.dev.freeSlots input) es ∧
      t.dev.cursorPosition = s.dev.cursorPosition + input.length ∧ (input ≠ [] → t.dev.CursorAtLastByte)) ∧
    (s.dev.freeSlots.length < input.length → ∃ t es, scatter n bufs input s = .aborted t ∧ WritesInside bufs es ∧
      Scattered s t (s.mem.putAt s.dev.freeSlots input)
        (es ++ [.report (.overrun n (n - (input.length - s.dev.freeSlots.length)))]) ∧
      t.dev.curIdx = s.dev.inHdr.bufferCount.toNat ∧ t.dev.curOff = 0) := by
  induction bufs generalizing input s with
  | nil =>
    cases input with
    | nil =>
      refine ⟨fun _ => ⟨s, [], rfl, by simp [WritesInside], ⟨by simp [Memory.putAt], List.suffix_refl _⟩, rfl,
        by simp⟩, fun h => by simp at h⟩
    | cons d ds =>
      have hd : s.dev.registered.drop s.dev.curIdx = [] := (hb (by simp)).symm
      have hfs : s.dev.freeSlots = [] := by simp [Device.freeSlots, hd]
      have hidx : s.dev.curIdx = s.dev.inHdr.bufferCount.toNat := by
        have h1 := List.drop_eq_nil_iff.mp hd
        rw [Device.length_registered hi.countBounded] at h1
        exact Nat.le_antisymm hi.indexBounded h1
      refine ⟨fun h => by simp [hfs] at h, fun _ => ⟨_, [], rfl, by simp [WritesInside], ?_, hidx, hi.offsetAtEnd hidx⟩⟩
      rw [hfs]
      exact ⟨rfl, List.suffix_refl _⟩
  | cons b rest ih =>
    cases input with
    | nil =>
      refine ⟨fun _ => ⟨s, [], rfl, by simp [WritesInside], ⟨by simp [Memory.putAt], List.suffix_refl _⟩, rfl,
        by simp⟩, fun h => by simp at h⟩
    | cons d ds =>
      have hreg : s.dev.registered.drop s.dev.curIdx = b :: rest := (hb (by simp)).symm
      have hget := getElem?_of_drop hreg
      have hoff : s.dev.curOff.toNat ≤ b.length.toNat := by
        rcases hi.offsetBounded b hget with h | ⟨h, -⟩
        · omega
        · simp [h]
      have hfs : s.dev.freeSlots = List.range' (b.base.toNat + s.dev.curOff.toNat)
          (b.length.toNat - s.dev.curOff.toNat) ++ slotsOf rest := by
        rw [Device.freeSlots_eq, hreg, drop_slotsOf hoff]
      simp only [scatter]
      rw [if_neg (by omega)]
      generalize hinput : d :: ds = input at *
      generalize hk : min input.length (b.length.toNat - s.dev.curOff.toNat) = k
      have hkl : (input.take k).length = k := by rw [List.length_take]; omega
      obtain ⟨mt, fs, hmt, hfe, hstore⟩ := storePayload_quiet hm (addr := b.base.toNat + s.dev.curOff.toNat)
        (v := input.take k) (by
          intro hne
          have hk0 : 0 < k := by rw [← hkl]; exact List.length_pos_of_ne_nil hne
          have := hfit (b.base.toNat + s.dev.curOff.toNat + (k - 1)) (by
            rw [hfs, List.take_append, List.mem_append, List.mem_take_iff_getElem]
            exact .inl ⟨k - 1, by rw [List.length_range']; omega, by simp⟩)
          rw [hkl]
          omega)
      rw [hstore]
      simp only [Run.done_andThen]
      have hin : WritesInside (b :: rest) fs := by
        intro e he
        refine ⟨_, _, hfe e he, fun y hy => ⟨b, by simp, ?_⟩⟩
        obtain ⟨h1, h2⟩ := hy
        rw [hkl] at h2
        exact ⟨by omega, by omega⟩
      -- the state the recursion starts from
      generalize hu : State.mk (s.dev.advance b.length.toNat k) s.cfg s.backend
        (s.mem.putBytes (b.base.toNat + s.dev.curOff.toNat) (input.take k)) s.outStream s.arrivals mt s.beTurns
        (s.history ++ fs) s.freeDraws = u
      have hud : u.dev = s.dev.advance b.length.toNat k := by rw [← hu]
      have hum : u.mem = s.mem.putBytes (b.base.toNat + s.dev.curOff.toNat) (input.take k) := by rw [← hu]
      have hinv : u.dev.CursorInv := by rw [hud]; exact hi.advance hget (by omega)
      have hdrop : input.drop k ≠ [] → rest = u.dev.registered.drop u.dev.curIdx := by
        intro hne
        rw [ne_eq, List.drop_eq_nil_iff, Nat.not_le] at hne
        rw [hud]
        exact Device.drop_advance hreg (by omega)
      have hpos : u.dev.cursorPosition = s.dev.cursorPosition + k := by
        rw [hud]
        exact Device.cursorPosition_advance hget (by omega)
      -- what is left of the slots and of the input
      have hslots : input.drop k ≠ [] → u.dev.freeSlots = slotsOf rest := by
        intro hne
        have hnb : b.length.toNat - s.dev.curOff.toNat = k := by
          rw [ne_eq, List.drop_eq_nil_iff, Nat.not_le] at hne; omega
        rw [Device.freeSlots_eq, ← hdrop hne]
        have : u.dev.curOff = 0 := by
          rw [hud]; unfold Device.advance; rw [if_pos (by omega)]
        simp [this]
      have hmem : u.mem.putAt u.dev.freeSlots (input.drop k) = s.mem.putAt s.dev.freeSlots input := by
        rw [hum, hfs]
        by_cases hne : input.drop k = []
        · rw [hne]
          rw [List.drop_eq_nil_iff] at hne
          have hki : input.take k = input := List.take_of_length_le hne
          rw [hki, Memory.putAt_range _ _ (by omega)]
          simp [Memory.putAt]
        · rw [hslots hne]
          have hnb : b.length.toNat - s.dev.curOff.toNat = k := by
            rw [List.drop_eq_nil_iff, Nat.not_le] at hne; omega
          conv_rhs => rw [← List.take_append_drop k input]
          rw [hnb, Memory.putAt_append _ (by simp [hkl])]
          congr 1
          have := Memory.putAt_range s.mem (a := b.base.toNat + s.dev.curOff.toNat) (n := k) [] (v := input.take k)
            (by omega)
          simpa using this.symm
      have hcomp : ∀ {t es}, Scattered u t (s.mem.putAt s.dev.freeSlots input) es →
          Scattered s t (s.mem.putAt s.dev.freeSlots input) (fs ++ es) := by
        rintro t es ⟨he, hs⟩
        refine ⟨?_, hs.trans (by rw [← hu]; exact hmt)⟩
        rw [he, hud, ← hu]
        dsimp only
        rw [List.append_assoc]
        congr 1
        unfold Device.advance
        split <;> rfl
      have hle' : input.length ≤ s.dev.freeSlots.length → (input.drop k).length ≤ u.dev.freeSlots.length := by
        intro hle
        by_cases hne : input.drop k = []
        · simp [hne]
        · rw [hslots hne, List.length_drop]
          rw [hfs, List.length_append, List.length_range'] at hle
          rw [List.drop_eq_nil_iff, Nat.not_le] at hne
          omega
      have hlen : s.dev.freeSlots.length < input.length → s.dev.freeSlots.length = k + u.dev.freeSlots.length := by
        intro hlt
        have hne : input.drop k ≠ [] := by
          rw [ne_eq, List.drop_eq_nil_iff, Nat.not_le]
          rw [hfs, List.length_append, List.length_range'] at hlt
          omega
        rw [hslots hne, hfs, List.length_append, List.length_range']
        rw [ne_eq, List.drop_eq_nil_iff, Nat.not_le] at hne
        omega
      have hlast : u.dev.cursorPosition + (input.drop k).length = s.dev.cursorPosition + input.length := by
        rw [hpos, List.length_drop]; omega
      have hlt' : s.dev.freeSlots.length < input.length → u.dev.freeSlots.length < (input.drop k).length := by
        intro h
        have := hlen h
        rw [List.length_drop]; omega
      have hcat : ∀ {es}, WritesInside rest es → WritesInside (b :: rest) (fs ++ es) := by
        intro es hw e he
        rcases List.mem_append.mp he with h | h
        · exact hin e h
        · exact hw.mono (fun c hc => by simp [hc]) e h
      have hfit' : ∀ x ∈ u.dev.freeSlots.take (input.drop k).length, x < addressSpace := by
        intro x hx
        by_cases hne : input.drop k = []
        · simp [hne] at hx
        · rw [hslots hne] at hx
          rw [List.drop_eq_nil_iff, Nat.not_le] at hne
          refine hfit x ?_
          rw [hfs, List.take_append, List.mem_append, List.length_range']
          rw [List.length_drop] at hx
          exact .inr (by rwa [show input.length - (b.length.toNat - s.dev.curOff.toNat) = input.length - k by omega])
      have hend : input.drop k = [] → u.dev.CursorAtLastByte := by
        intro hne
        rw [List.drop_eq_nil_iff] at hne
        rw [hud]
        refine Device.cursorAtLastByte_advance hget (by omega) ?_
        have : 0 < input.length := by rw [← hinput]; simp
        omega
      obtain ⟨hfits, hover⟩ := ih (input := input.drop k) (s := u) (hm.of_suffix (by rw [← hu]; exact hmt)) hinv hdrop
        hfit'
      refine ⟨fun hle => ?_, fun hlt => ?_⟩
      · obtain ⟨t, es, ht, hw, hs, hp, hl⟩ := hfits (hle' hle)
        rw [hmem] at hs
        refine ⟨t, fs ++ es, ht, hcat hw, hcomp hs, hp.trans hlast, fun _ => ?_⟩
        by_cases hne : input.drop k = []
        · have : u = t := by
            rw [hne] at ht
            cases rest <;> cases ht <;> rfl
          rw [← this]
          exact hend hne
        · exact hl hne
      · obtain ⟨t, es, ht, hw, hs, hx, ho⟩ := hover (hlt' hlt)
        rw [hmem, List.length_drop, Nat.sub_sub, ← hlen hlt] at hs
        refine ⟨t, fs ++ es, ht, hcat hw, ?_, ?_, ho⟩
        · rw [List.append_assoc]; exact hcomp hs
        · rw [hx, hud, Device.advance_inHdr]

/-- The header write-back and the inbound notification on quiet memory (R188). -/
theorem complete_quiet {n : Nat} {s : State} (hm : s.MemQuiet)
    (hfit : fitsSpace s.dev.inDescAddr.toNat s.cfg.hdrBytes) :
    let h : Header := { s.dev.inHdr with status := s.cfg.statusDone, actualLength := BitVec.ofNat 64 n }
    complete n s = .done () (notifyIf (notifyRequested s.cfg s.dev.inHdr.notifyFlags) .inn
      { s with
        dev := { s.dev with inHdr := h }
        memTurns := s.memTurns.tail
        mem := s.mem.putBytes s.dev.inDescAddr.toNat (headerBytes s.cfg h)
        history := s.history ++ [.memWrite s.dev.inDescAddr.toNat (headerBytes s.cfg h) true] }) := by
  intro h
  exact congrArg (Run.andThen · fun _ t => Run.done () (notifyIf (notifyRequested t.cfg h.notifyFlags) .inn t))
    (store_granted (s := { s with dev := { s.dev with inHdr := h } }) hm.head (v := headerBytes s.cfg h)
      (by simpa [fitsSpace] using hfit))

end Sys2Proof.Machine
end

