-- ==== Sys2Proof/Laws/Commands.lean ====
section
/-! SUPPORT. What every command can do when it answers a next state, said once: the inversion of exec. -/

namespace Sys2Proof.Machine

/-- What `ACK` does (R213). -/
theorem exec_ack (v : Word64) (w : AccessWidth) (s : State) : exec (.ack v w) s =
    if v.getLsbD 0 then .next (acknowledge .out s) else if v.getLsbD 1 then .next (acknowledge .inn s) else .next s :=
  rfl

/-- The tag byte as R230 writes it. -/
theorem tagByte_eq (p : Params) (i : Nat) :
    tagByte p i = if h : i < p.tag.length then (p.tag[i]).setWidth 64 else 0 := by
  unfold tagByte
  split <;> next h => simp [List.getD_eq_getElem?_getD, h]

/-- An acknowledge records nothing but a change of the line to its new level. -/
theorem acknowledge_history (dir : Direction) (s : State) : ∃ es, (acknowledge dir s).history = s.history ++ es ∧
    ∀ e ∈ es, ∃ b, e = .lineChange b ∧ b = (acknowledge dir s).dev.irqLine ∧ b ≠ s.dev.irqLine := by
  unfold acknowledge lineAfterAck
  dsimp only
  split
  · exact ⟨[], by simp⟩
  · rw [driveLine_history]
    split
    · exact ⟨[], by simp⟩
    · next h =>
      refine ⟨_, rfl, fun e he => ⟨_, List.mem_singleton.mp he, by simp, fun hb => h ?_⟩⟩
      simpa using hb.symm

/-- An acknowledge changes the device and the record only. -/
theorem acknowledge_eq (dir : Direction) (s : State) :
    acknowledge dir s = { s with dev := (acknowledge dir s).dev, history := (acknowledge dir s).history } := by
  unfold acknowledge lineAfterAck
  dsimp only
  split
  · rfl
  · unfold driveLine; split <;> rfl

/-- The ways a command can answer a next state. -/
inductive Did : Instr → State → State → Prop
  /-- `OUT_SUBMIT`, completed or ended by an error. -/
  | outSubmit {s t : State} (v : Word64) (w : AccessWidth) (wanted : Bool) (frame : Frame (inRange v.toNat s.cfg.hdrBytes) s t)
      (logged : GoesOn s t ∨ EndsIn s t) (dev : t.dev = outSubmitDev s.cfg s.dev wanted) : Did (.outSubmit v w) s t
  /-- `IN_REGISTER`, completed. -/
  | registered {s t : State} (v : Word64) (w : AccessWidth) (h : Header) (bl : List Buffer)
      (frame : Frame (fun _ => False) s t) (logged : GoesOn s t) (stream : t.outStream = s.outStream)
      (bound : h.bufferCount.toNat ≤ Config.maxBuffers) (count : bl.length = h.bufferCount.toNat)
      (dev : t.dev = (countedStale s.cfg s.dev).install v h bl) : Did (.inRegister v w) s t
  /-- `IN_REGISTER`, ended by an error. -/
  | notRegistered {s t : State} (v : Word64) (w : AccessWidth) (frame : Frame (fun _ => False) s t) (logged : EndsIn s t)
      (stream : t.outStream = s.outStream) (dev : t.dev = s.dev) : Did (.inRegister v w) s t
  /-- `ACK` with bit 0 set. -/
  | ackedOut {s : State} (v : Word64) (w : AccessWidth) (h0 : v.getLsbD 0 = true) : Did (.ack v w) s (acknowledge .out s)
  /-- `ACK` with bit 1 set alone. -/
  | ackedIn {s : State} (v : Word64) (w : AccessWidth) (h0 : v.getLsbD 0 = false) (h1 : v.getLsbD 1 = true) :
      Did (.ack v w) s (acknowledge .inn s)
  /-- `ACK` with neither bit set. -/
  | ackedNone {s : State} (v : Word64) (w : AccessWidth) (h0 : v.getLsbD 0 = false) (h1 : v.getLsbD 1 = false) :
      Did (.ack v w) s s
  /-- `NOP_WR`. -/
  | nopWr {s : State} (o v : Word64) (w : AccessWidth) : Did (.nopWr o v w) s s
  /-- `TAG_READ`, first row. -/
  | tagReadLow {s : State} (k : BitVec 4) (w : AccessWidth) (v : Word64) :
      Did (.tagReadLow k w) s (s.record (.readReturned v))
  /-- `TAG_READ`, second row. -/
  | tagReadMid {s : State} (k : BitVec 5) (w : AccessWidth) (v : Word64) :
      Did (.tagReadMid k w) s (s.record (.readReturned v))
  /-- `TAG_READ`, third row. -/
  | tagReadHigh {s : State} (k : BitVec 4) (w : AccessWidth) (v : Word64) :
      Did (.tagReadHigh k w) s (s.record (.readReturned v))
  /-- `RD_ZERO`. -/
  | rdZero {s : State} (o : Word64) (w : AccessWidth) : Did (.rdZero o w) s (s.record (.readReturned 0))
  /-- `CAPQ`. -/
  | capacity {s : State} (n : Nat) : Did .capq s (s.record (.capacityReturned n))
  /-- `DELIVER`, ended by an error. -/
  | notDelivered {s t : State} (d : List Byte) (frame : Frame (deliveryRange s) s t) (logged : EndsIn s t)
      (stream : t.outStream = s.outStream) (dev : endedDev s.cfg s.dev t.dev d.length)
      (inv : s.dev.CursorInv → t.dev.CursorInv) : Did (.deliver d) s t
  /-- `DELIVER`, dropped or completed. -/
  | delivered {s t : State} (d : List Byte) (frame : Frame (deliveryRange s) s t) (logged : GoesOn s t)
      (stream : t.outStream = s.outStream) (dev : deliveredDev s.cfg s.dev t.dev d.length)
      (inv : s.dev.CursorInv → t.dev.CursorInv) : Did (.deliver d) s t
  /-- `RESET`. -/
  | reset {s : State} : Did .reset s (resetDevice s)
  /-- `CONSTRUCT` with a backend. -/
  | constructed {s : State} (tag : List Byte) (mode : IrqMode) (b : Endpoint) : Did (.construct tag mode (some b)) s
      (resetDevice { s with cfg := { s.cfg with tag := tag, irqMode := mode }, backend := some b })
  /-- `CONSTRUCT` without one. -/
  | notConstructed {s : State} (tag : List Byte) (mode : IrqMode) : Did (.construct tag mode none) s
      ({ s with backend := none }.record .constructionFailed)

/-- Every command that answers a next state did one of these. -/
theorem did_of_next {i : Instr} {s t : State} (h : exec i s = .next t) : Did i s t := by
  cases i with
  | outSubmit v w =>
    rcases ((outSubmit_sat v s).both (outSubmit_goesOn v s)).of_next h with ⟨⟨hf, b, hd⟩, hl⟩ | ⟨⟨hf, b, hd⟩, hl⟩
    · exact .outSubmit v w b hf (.inl hl) hd
    · exact .outSubmit v w b hf (.inr hl) hd
  | inRegister v w =>
    rcases ((inRegister_sat v s).both (inRegister_goesOn v s)).of_next h with
      ⟨⟨hf, ho, hd, bl, hb, hc, he⟩, hl⟩ | ⟨⟨hf, ho, he⟩, hl⟩
    · exact .registered v w hd bl hf hl ho hb hc he
    · exact .notRegistered v w hf hl ho he
  | ack v w =>
    rw [exec_ack] at h
    split at h
    · next h0 => cases h; exact .ackedOut v w h0
    split at h
    · next h0 h1 => cases h; exact .ackedIn v w (by simpa using h0) h1
    · next h0 h1 => cases h; exact .ackedNone v w (by simpa using h0) (by simpa using h1)
  | nopWr o v w => cases h; exact .nopWr o v w
  | tagReadLow k w => cases h; exact .tagReadLow k w _
  | tagReadMid k w => cases h; exact .tagReadMid k w _
  | tagReadHigh k w => cases h; exact .tagReadHigh k w _
  | rdZero o w => cases h; exact .rdZero o w
  | capq => cases h; exact .capacity _
  | deliver d =>
    have hi : (deliver d s).Sat (fun _ t => s.dev.CursorInv → t.dev.CursorInv)
        (fun t => s.dev.CursorInv → t.dev.CursorInv) fun _ => True := by
      by_cases hc : s.dev.CursorInv
      · exact (deliver_inv hc).mono (fun _ _ h _ => h) (fun _ h _ => h) fun _ _ => trivial
      · cases deliver d s <;> first | exact trivial | exact fun h => absurd h hc
    rcases (((deliver_sat d s).both (deliver_goesOn d s)).both hi).of_next h with
      ⟨⟨⟨hf, ho, hd⟩, hl⟩, hc⟩ | ⟨⟨⟨hf, ho, hd⟩, hl⟩, hc⟩
    · exact .delivered d hf hl ho hd hc
    · exact .notDelivered d hf hl ho hd hc
  | reset => cases h; exact .reset
  | construct x y z =>
    cases z with
    | none => cases h; exact .notConstructed x y
    | some b => cases h; exact .constructed x y b

/-- The stale count may change, nothing else does. -/
theorem countedStale_eq (p : Params) (d : Device) :
    countedStale p d = { d with staleCount := (countedStale p d).staleCount } := by
  unfold countedStale; split <;> rfl

/-- A delivery keeps the line's invariant (R42 f, g). -/
theorem LineInv.delivered {s : State} {e : Device} {n : Nat} (h : LineInv s.cfg s.dev)
    (hd : deliveredDev s.cfg s.dev e n) : LineInv s.cfg e := by
  rcases hd with hd | ⟨c, b, hd, he⟩
  · rw [hd]; exact ⟨h.messageLow, h.levelIsOr⟩
  · have := h.notifyIf b .inn
    rw [notifyIf_inn_dev] at this
    rw [he, hd]
    exact ⟨this.messageLow, this.levelIsOr⟩

/-- The registration the fetched SGL installs meets the cursor's invariant. -/
theorem Device.CursorInv.installed {d : Device} {a : Word64} {h : Header} {bl : List Buffer}
    (hc : h.bufferCount.toNat ≤ Config.maxBuffers) (hl : bl.length = h.bufferCount.toNat) :
    (d.install a h bl).CursorInv where
  countBounded := hc
  indexBounded := Nat.zero_le _
  offsetBounded := by
    intro b _
    by_cases hz : b.length = 0
    · exact .inr ⟨rfl, hz⟩
    · exact .inl (Nat.pos_of_ne_zero fun he => hz (BitVec.eq_of_toNat_eq he))
  offsetAtEnd := fun _ => rfl
  nothingRegistered := fun h => absurd h (by simp)
  capacitySum := by rw [Device.install_registered hl hc]; rfl

theorem Device.reset_registered : Device.reset.registered = [] := rfl

/-- The device after reset meets the cursor's invariant. -/
theorem Device.reset_cursorInv : Device.reset.CursorInv where
  countBounded := Nat.zero_le _
  indexBounded := Nat.le_refl _
  offsetBounded := by simp [Device.reset_registered]
  offsetAtEnd := fun _ => rfl
  nothingRegistered := fun _ => ⟨rfl, rfl, rfl, rfl, rfl⟩
  capacitySum := rfl

end Sys2Proof.Machine
end

