-- ==== Sys2Proof/Laws/Decode.lean ====
section
/-! SUPPORT. The decoder: the admitted widths, and the masked rows of spec/opcode_table.json as ranges of start
offsets. -/

namespace Sys2Proof

/-- Every width is admitted under its own number (R91). -/
theorem admittedWidth_bytes (w : AccessWidth) : admittedWidth w.bytes = some w := by cases w <;> rfl

/-- An admitted number is that width's. -/
theorem bytes_of_admittedWidth {n w} (h : admittedWidth n = some w) : w.bytes = n := by
  unfold admittedWidth at h
  split at h; · cases h; simp_all [AccessWidth.bytes]
  split at h; · cases h; simp_all [AccessWidth.bytes]
  split at h; · cases h; simp_all [AccessWidth.bytes]
  split at h; · cases h; simp_all [AccessWidth.bytes]
  cases h

/-- A row whose mask has every bit set is hit at one offset only. -/
theorem OpRow.hits_of_full_mask (r : OpRow) (h : r.mask = 0xFFFFFFFFFFFFFFFF) (o : Word64) : r.hits o = (o == r.want) := by
  have : o &&& (0xFFFFFFFFFFFFFFFF : Word64) = o := by
    rw [show (0xFFFFFFFFFFFFFFFF : Word64) = BitVec.allOnes 64 from rfl, BitVec.and_allOnes]
  rw [OpRow.hits, h, this]

/-- A mask that clears the `k` low bits rounds down to a multiple of `2^k`. -/
theorem toNat_and_high_mask (o : Word64) (k : Nat) (hk : k ≤ 64): (o &&& (BitVec.allOnes 64 <<< k)).toNat = o.toNat / 2^k * 2^k := by
  have hh: o &&& (BitVec.allOnes 64 <<< k) = (o >>> k) <<< k := by
    apply BitVec.eq_of_getLsbD_eq
    intro i hi
    simp only [BitVec.getLsbD_and, BitVec.getLsbD_shiftLeft, BitVec.getLsbD_ushiftRight, BitVec.getLsbD_allOnes, hi]
    by_cases h : i < k
    · simp [h]
    · simp [h, show k + (i - k) = i by omega, show i - k < 64 by omega]
  rw [hh]
  simp [BitVec.toNat_shiftLeft, Nat.shiftRight_eq_div_pow, Nat.shiftLeft_eq]
  have := o.isLt
  have := Nat.div_mul_le_self o.toNat (2^k)
  omega

/-! ### The rows as spec/opcode_table.json writes them -/

section rows
variable (p : Params)
theorem rowOutSubmit_eq : rowOutSubmit p = ⟨0x00, 0xFFFFFFFFFFFFFFFF⟩ := by simp [rowOutSubmit]
theorem rowInRegister_eq : rowInRegister p = ⟨0x08, 0xFFFFFFFFFFFFFFFF⟩ := by simp [rowInRegister]
theorem rowAck_eq : rowAck p = ⟨0x10, 0xFFFFFFFFFFFFFFFF⟩ := by simp [rowAck]
theorem rowTagReadLow_eq : rowTagReadLow p = ⟨0x10, 0xFFFFFFFFFFFFFFF0⟩ := by simp [rowTagReadLow]
theorem rowTagReadMid_eq : rowTagReadMid p = ⟨0x20, 0xFFFFFFFFFFFFFFE0⟩ := by simp [rowTagReadMid]
theorem rowTagReadHigh_eq : rowTagReadHigh p = ⟨0x40, 0xFFFFFFFFFFFFFFF0⟩ := by
  simp [rowTagReadHigh, Config.tagWindow]
end rows

/-- First row `TAG_READ`: offsets 0x10 to 0x1F. -/
theorem rowTagReadLow_hits (p : Params) (o : Word64) : (rowTagReadLow p).hits o = decide (0x10 ≤ o.toNat ∧ o.toNat < 0x20) := by
  have h := toNat_and_high_mask o 4 (by decide)
  have : ((rowTagReadLow p).hits o = true) ↔ (0x10 ≤ o.toNat ∧ o.toNat < 0x20) := by
    simp only [OpRow.hits, rowTagReadLow_eq, beq_iff_eq]
    rw [show (0xFFFFFFFFFFFFFFF0 : Word64) = BitVec.allOnes 64 <<< 4 from rfl, ← BitVec.toNat_inj, h]
    simp; omega
  rw [Bool.eq_iff_iff, this]; simp

/-- Second row `TAG_READ`: offsets 0x20 to 0x3F. -/
theorem rowTagReadMid_hits (p : Params) (o : Word64) : (rowTagReadMid p).hits o = decide (0x20 ≤ o.toNat ∧ o.toNat < 0x40) := by
  have h := toNat_and_high_mask o 5 (by decide)
  have : ((rowTagReadMid p).hits o = true) ↔ (0x20 ≤ o.toNat ∧ o.toNat < 0x40) := by
    simp only [OpRow.hits, rowTagReadMid_eq, beq_iff_eq]
    rw [show (0xFFFFFFFFFFFFFFE0 : Word64) = BitVec.allOnes 64 <<< 5 from rfl, ← BitVec.toNat_inj, h]
    simp; omega
  rw [Bool.eq_iff_iff, this]; simp

/-- Third row `TAG_READ`: offsets 0x40 to 0x4F. -/
theorem rowTagReadHigh_hits (p : Params) (o : Word64) : (rowTagReadHigh p).hits o = decide (0x40 ≤ o.toNat ∧ o.toNat < 0x50) := by
  have h := toNat_and_high_mask o 4 (by decide)
  have : ((rowTagReadHigh p).hits o = true) ↔ (0x40 ≤ o.toNat ∧ o.toNat < 0x50) := by
    simp only [OpRow.hits, rowTagReadHigh_eq, beq_iff_eq]
    rw [show (0xFFFFFFFFFFFFFFF0 : Word64) = BitVec.allOnes 64 <<< 4 from rfl, ← BitVec.toNat_inj, h]
    simp; omega
  rw [Bool.eq_iff_iff, this]; simp

/-- The `WR` dispatch by start offset (R93). -/
theorem decodeWrite_eq (p : Params) (offset value : Word64) (w : AccessWidth) : decodeWrite p offset value w =
    if offset = 0x00 then .outSubmit value w else if offset = 0x08 then .inRegister value w
    else if offset = 0x10 then .ack value w else .nopWr offset value w := by
  simp [decodeWrite, OpRow.hits_of_full_mask, rowOutSubmit_eq, rowInRegister_eq, rowAck_eq]

/-- The `RD` dispatch by start offset (R93). -/
theorem decodeRead_eq (p : Params) (o : Word64) (w : AccessWidth) : decodeRead p o w =
    if 0x10 ≤ o.toNat ∧ o.toNat < 0x20 then .tagReadLow (o.setWidth 4) w
    else if 0x20 ≤ o.toNat ∧ o.toNat < 0x40 then .tagReadMid (o.setWidth 5) w
    else if 0x40 ≤ o.toNat ∧ o.toNat < 0x50 then .tagReadHigh (o.setWidth 4) w else .rdZero o w := by
  simp [decodeRead, rowTagReadLow_hits, rowTagReadMid_hits, rowTagReadHigh_hits]

end Sys2Proof
end

