-- ==== Sys2Proof/Laws/Delivery.lean ====
section
/-! SUPPORT. How far a delivery came, however it ends (spec/43_inbound_engine.md R184 to R190): what it stored, in which
events, and where its cursor stands. -/

namespace Sys2Proof.Machine

/-- From `s` to `t` these events were added; none raises the interrupt, and `v` is what the granted writes among them
store. -/
structure Wrote (s t : State) (v : List Byte) (es : List Event) : Prop where
  history : t.history = s.history ++ es
  quiet : ∀ e ∈ es, e.raisesInterrupt = false
  stored : es.flatMap Event.stored = v

theorem Wrote.refl (s : State) : Wrote s s [] [] := ⟨by simp, by simp, rfl⟩

theorem Wrote.trans {s t u : State} {v w : List Byte} {es fs : List Event} (h : Wrote s t v es) (k : Wrote t u w fs) :
    Wrote s u (v ++ w) (es ++ fs) where
  history := by rw [k.history, h.history, List.append_assoc]
  quiet := fun e he => (List.mem_append.mp he).elim (h.quiet e) (k.quiet e)
  stored := by rw [List.flatMap_append, h.stored, k.stored]

/-- One event that raises nothing. -/
theorem Wrote.event {s t : State} {e : Event} (hh : t.history = s.history ++ [e]) (hr : e.raisesInterrupt = false) :
    Wrote s t e.stored [e] :=
  ⟨hh, by simpa using hr, by simp⟩

/-- Only the record counts. -/
theorem Wrote.congr {s s' t : State} {v : List Byte} {es : List Event} (h : Wrote s t v es)
    (hs : s'.history = s.history) : Wrote s' t v es := ⟨by rw [hs]; exact h.history, h.quiet, h.stored⟩

theorem memWrite_wrote (addr : Nat) (v : List Byte) (s : State) : (memWrite addr v s).Sat
    (fun ok t => t.dev = s.dev ∧ ∃ es, Wrote s t (if ok then v else []) es) (fun _ => False) fun _ => True := by
  unfold memWrite
  split
  · exact ⟨rfl, [], Wrote.refl s⟩
  · split
    next t s' heq =>
    have hh : s'.history = s.history := by simpa [heq] using takeMemTurn_history s
    have hd : s'.dev = s.dev := by simpa [heq] using takeMemTurn_dev s
    split
    · trivial
    · exact ⟨hd, _, Wrote.event (e := .memWrite addr v false) (by rw [State.record_history]; dsimp only; rw [hh]) rfl⟩
    · exact ⟨hd, _, Wrote.event (e := .memWrite addr v true) (by rw [State.record_history]; dsimp only; rw [hh]) rfl⟩

/-- A write stores all its bytes, or E5 ends the command. -/
theorem store_wrote (addr : Nat) (v : List Byte) (s : State) : (store addr v s).Sat
    (fun _ t => t.dev = s.dev ∧ ∃ es, Wrote s t v es)
    (fun t => t.dev = s.dev ∧ ∃ es, Wrote s t [] (es ++ [.report (.guestAccessFailure addr v.length)]))
    fun _ => True := by
  refine Run.Sat.andThen ((memWrite_wrote addr v s).mono (fun _ _ h => h) (fun _ h => h.elim) fun _ h => h) ?_
  rintro ok t ⟨hd, es, hw⟩
  cases ok
  · exact ⟨hd, es, hw.trans (Wrote.event (e := .report _) (report_history _ _) rfl)⟩
  · exact ⟨hd, es, hw⟩

theorem storePayload_wrote (addr : Nat) (v : List Byte) (s : State) : (storePayload addr v s).Sat
    (fun _ t => t.dev = s.dev ∧ ∃ es, Wrote s t v es)
    (fun t => v ≠ [] ∧ t.dev = s.dev ∧ ∃ es, Wrote s t [] (es ++ [.report (.guestAccessFailure addr v.length)]))
    fun _ => True := by
  unfold storePayload
  split
  · next h => exact ⟨rfl, [], List.isEmpty_iff.mp h ▸ Wrote.refl s⟩
  · next h => exact (store_wrote addr v s).mono (fun _ _ h => h) (fun _ k => ⟨by simpa using h, k⟩) fun _ h => h

/-- A payload write failed (R190): the `w` bytes before it are stored, the cursor stands after them, and the report, the
last event, is of the write of the next part. -/
def PayloadFailed (s t : State) (input : List Byte) : Prop :=
  ∃ b w es, t.dev.registered[t.dev.curIdx]? = some b ∧ w < input.length ∧ t.dev.curOff.toNat < b.length.toNat ∧
    s.dev.sameButCursor t.dev ∧ t.dev.cursorPosition = s.dev.cursorPosition + w ∧
    Wrote s t (input.take w) (es ++ [.report (.guestAccessFailure (b.base.toNat + t.dev.curOff.toNat)
      (min (input.length - w) (b.length.toNat - t.dev.curOff.toNat)))])

/-- The command ended by E2. -/
def EndedByOverrun (s t : State) : Prop :=
  ∃ es n m, t.history = s.history ++ (es ++ [.report (.overrun n m)])

/-- The scatter loop stores the input whole and moves the cursor by it, or is ended by a failed payload write or by the
overrun test (R184 to R190). -/
theorem scatter_wrote {n : Nat} {bufs : List Buffer} {input : List Byte} {s : State}
    (hb : input ≠ [] → bufs = s.dev.registered.drop s.dev.curIdx) : (scatter n bufs input s).Sat
      (fun _ t => s.dev.sameButCursor t.dev ∧ t.dev.cursorPosition = s.dev.cursorPosition + input.length ∧
        ∃ es, Wrote s t input es)
      (fun t => PayloadFailed s t input ∨ EndedByOverrun s t) fun _ => True := by
  induction bufs generalizing input s with
  | nil =>
    cases input with
    | nil => exact ⟨rfl, rfl, [], Wrote.refl s⟩
    | cons d ds => exact .inr ⟨[], n, _, by rw [report_history]; rfl⟩
  | cons b rest ih =>
    cases input with
    | nil => exact ⟨rfl, rfl, [], Wrote.refl s⟩
    | cons d ds =>
      have hreg : s.dev.registered.drop s.dev.curIdx = b :: rest := (hb (by simp)).symm
      have hget := getElem?_of_drop hreg
      simp only [scatter]
      split
      · trivial
      next hoff =>
      generalize hinput : d :: ds = input at *
      generalize hk : min input.length (b.length.toNat - s.dev.curOff.toNat) = k
      have hkl : (input.take k).length = k := by rw [List.length_take]; omega
      have hpos : 0 < input.length := by rw [← hinput]; simp
      refine Run.Sat.andThen ((storePayload_wrote _ (input.take k) s).mono (fun _ _ h => h) ?_ fun _ h => h) ?_
      · rintro t ⟨hne, hd, es, hw⟩
        have hk0 := List.length_pos_of_ne_nil hne
        rw [hkl] at hw hk0
        refine .inl ⟨b, 0, es, by rw [hd]; exact hget, hpos, by rw [hd]; omega, by rw [hd]; rfl, by rw [hd]; rfl, ?_⟩
        rw [hd, Nat.sub_zero, hk]
        exact hw
      · rintro _ t ⟨hd, es, hw⟩
        have hsame : s.dev.sameButCursor (s.dev.advance b.length.toNat k) := Device.sameButCursor_advance _ _ _
        have hmove := Device.cursorPosition_advance hget (k := k) (by omega)
        rw [hd]
        refine (ih (input := input.drop k) (s := { t with dev := s.dev.advance b.length.toNat k }) ?_).mono ?_ ?_
          fun _ h => h
        · intro hne
          rw [ne_eq, List.drop_eq_nil_iff, Nat.not_le] at hne
          exact Device.drop_advance hreg (by omega)
        · rintro _ u ⟨us, up, fs, uw⟩
          refine ⟨Device.sameButCursor_trans hsame us, ?_, es ++ fs, ?_⟩
          · rw [up, hmove, List.length_drop]; omega
          · have := hw.trans (uw.congr (s' := t) rfl)
            rwa [List.take_append_drop] at this
        · rintro u (⟨c, w, fs, uc, ul, uo, us, up, uw⟩ | ⟨fs, m, p, uh⟩)
          · rw [List.length_drop] at ul uw
            refine .inl ⟨c, k + w, es ++ fs, uc, by omega, uo, Device.sameButCursor_trans hsame us, ?_, ?_⟩
            · rw [up, hmove, Nat.add_assoc]
            · have := hw.trans (uw.congr (s' := t) rfl)
              rw [List.append_assoc, List.take_add, ← Nat.sub_sub]
              exact this
          · refine .inr ⟨es ++ fs, m, p, ?_⟩
            rw [uh]
            dsimp only
            rw [hw.history, List.append_assoc, List.append_assoc]

/-- The header write failed (R190): the payload is in place, the cache says Done, and the report, the last event, is of
the header write. -/
def HeaderFailed (s t : State) (d : List Byte) : Prop :=
  ∃ es c, s.dev.sameButCursor c ∧ c.cursorPosition = s.dev.cursorPosition + d.length ∧
    t.dev = completedDev s.cfg c d.length false ∧
    Wrote s t d (es ++ [.report (.guestAccessFailure s.dev.inDescAddr.toNat s.cfg.hdrBytes)])

/-- The ways an error ends a delivery. -/
theorem deliver_ended (d : List Byte) (s : State) : (deliver d s).Sat (fun _ _ => True)
    (fun t => PayloadFailed s t d ∨ EndedByOverrun s t ∨ HeaderFailed s t d) fun _ => True := by
  unfold deliver
  split
  · trivial
  split
  · exact .inr (.inl ⟨[], _, _, by rw [report_history]; rfl⟩)
  · refine Run.Sat.andThen (((scatter_wrote (n := d.length) (input := d) (s := s) fun _ => rfl).both
      (scatter_sat (w := fun _ => True) fun _ _ _ _ => trivial)).mono (fun _ _ h => h)
      (fun _ h => h.1.imp_right .inl) fun _ _ => trivial) ?_
    rintro _ t ⟨⟨hs, hp, es, hw⟩, hf, -, -⟩
    have ha : t.dev.inDescAddr = s.dev.inDescAddr := by rw [hs]
    refine Run.Sat.andThen ((store_wrote _ _ _).mono (d' := fun _ _ => True) (fun _ _ _ => trivial) ?_ fun _ h => h)
      fun _ _ _ => trivial
    rintro u ⟨ud, fs, uw⟩
    dsimp only at uw ud
    rw [length_headerBytes, ha, hf.cfg] at uw
    refine .inr (.inr ⟨es ++ fs, t.dev, hs, hp, ?_, ?_⟩)
    · rw [ud]; simp [completedDev, hf.cfg]
    · have := hw.trans (uw.congr (s' := t) rfl)
      rwa [List.append_nil, ← List.append_assoc] at this

end Sys2Proof.Machine
end

