-- ==== Sys2Proof/Laws/PerInstr.lean ====
section
/-! SUPPORT. What holds of every command as syntax, one lemma for each constructor: the family `TagWindow` (R230: a tag
index is one of 0 to 63) and the family `AdmittedWidth` (R104: an encoding always presents an admitted width). -/

namespace Sys2Proof.Laws

namespace TagWindow

/-- The command's tag index, if it has one, is one of `0 .. TAG_WINDOW - 1` (R230). -/
def Statement (i : Instr) : Prop := ∀ k, i.tagIndex = some k → k < Config.tagWindow

theorem outSubmit (v : Word64) (w : AccessWidth) : Statement (.outSubmit v w) := by simp [Statement, Instr.tagIndex]

theorem inRegister (v : Word64) (w : AccessWidth) : Statement (.inRegister v w) := by simp [Statement, Instr.tagIndex]

theorem ack (v : Word64) (w : AccessWidth) : Statement (.ack v w) := by simp [Statement, Instr.tagIndex]

theorem nopWr (o v : Word64) (w : AccessWidth) : Statement (.nopWr o v w) := by simp [Statement, Instr.tagIndex]

theorem tagReadLow (k : BitVec 4) (w : AccessWidth) : Statement (.tagReadLow k w) := by
  intro n h
  cases h
  have := k.isLt
  simp only [Config.tagWindow]
  omega

theorem tagReadMid (k : BitVec 5) (w : AccessWidth) : Statement (.tagReadMid k w) := by
  intro n h
  cases h
  have := k.isLt
  simp only [Config.tagWindow]
  omega

theorem tagReadHigh (k : BitVec 4) (w : AccessWidth) : Statement (.tagReadHigh k w) := by
  intro n h
  cases h
  have := k.isLt
  simp only [Config.tagWindow]
  omega

theorem rdZero (o : Word64) (w : AccessWidth) : Statement (.rdZero o w) := by simp [Statement, Instr.tagIndex]

theorem capq : Statement .capq := by simp [Statement, Instr.tagIndex]

theorem deliver (d : List Byte) : Statement (.deliver d) := by simp [Statement, Instr.tagIndex]

theorem reset : Statement .reset := by simp [Statement, Instr.tagIndex]

theorem construct (tag : List Byte) (mode : IrqMode) (b : Option Endpoint) : Statement (.construct tag mode b) := by
  simp [Statement, Instr.tagIndex]

end TagWindow

namespace AdmittedWidth

/-- No encoding of the command is refused for its width (R91, R92, R104). -/
def Statement (i : Instr) : Prop := ∀ p, decode p (encode p i) ≠ .error .widthNotAdmitted

theorem mmioWr (p : Params) (o v : Word64) (w : AccessWidth) : decode p (.mmioWr o v w.bytes) ≠ .error .widthNotAdmitted := by
  simp only [decode, admittedWidth_bytes]
  split <;> [skip; split] <;> simp

theorem mmioRd (p : Params) (o : Word64) (w : AccessWidth) : decode p (.mmioRd o w.bytes) ≠ .error .widthNotAdmitted := by
  simp only [decode, admittedWidth_bytes]
  split <;> simp

theorem outSubmit (v : Word64) (w : AccessWidth) : Statement (.outSubmit v w) := fun p => mmioWr p _ v w

theorem inRegister (v : Word64) (w : AccessWidth) : Statement (.inRegister v w) := fun p => mmioWr p _ v w

theorem ack (v : Word64) (w : AccessWidth) : Statement (.ack v w) := fun p => mmioWr p _ v w

theorem nopWr (o v : Word64) (w : AccessWidth) : Statement (.nopWr o v w) := fun p => mmioWr p o v w

theorem tagReadLow (k : BitVec 4) (w : AccessWidth) : Statement (.tagReadLow k w) := fun p => mmioRd p _ w

theorem tagReadMid (k : BitVec 5) (w : AccessWidth) : Statement (.tagReadMid k w) := fun p => mmioRd p _ w

theorem tagReadHigh (k : BitVec 4) (w : AccessWidth) : Statement (.tagReadHigh k w) := fun p => mmioRd p _ w

theorem rdZero (o : Word64) (w : AccessWidth) : Statement (.rdZero o w) := fun p => mmioRd p o w

theorem capq : Statement .capq := fun p => by simp [encode, decode]

theorem deliver (d : List Byte) : Statement (.deliver d) := fun p => by
  simp only [encode, decode]
  split <;> simp

theorem reset : Statement .reset := fun p => by simp [encode, decode]

theorem construct (tag : List Byte) (mode : IrqMode) (b : Option Endpoint) : Statement (.construct tag mode b) :=
  fun p => by simp [encode, decode]

end AdmittedWidth

end Sys2Proof.Laws
end

