-- ==== Sys2Proof/Tests/Slice0.lean ====
section
/-! SUPPORT. The model's own tests: ill-formed terms that WellFormed refuses, transaction tuples written out from the
spec, single commands from spec/95_test_vectors.md, and for each statement with hypotheses a witness that meets them. -/

namespace Sys2Proof.Tests

open Sys2Proof.Machine

/-! ### Helpers -/

/-- The next state, if there is one. -/
def after (i : Instr) (s : State) : Option State :=
  match exec i s with
  | .next t => some t
  | .fault _ => none
  | .refused _ => none

/-- A command whose next state is there answers it. -/
theorem next_of_after {i : Instr} {s : State} (h : (after i s).isSome = true) : ∃ t, exec i s = .next t := by
  unfold after at h
  split at h
  · exact ⟨_, by assumption⟩
  · cases h
  · cases h

/-- A command whose next state is there and passes a test answers such a state. -/
theorem next_with {i : Instr} {s : State} (p : State → Bool) (h : (after i s).any p = true) :
    ∃ t, exec i s = .next t ∧ p t = true := by
  unfold after at h
  split at h
  · exact ⟨_, by assumption, by simpa using h⟩
  · simp at h
  · simp at h

/-- Memory with these byte strings stored. -/
def memoryOf (l : List (Nat × List Byte)) : Memory := l.foldl (fun m c => m.putBytes c.1 c.2) []

/-- The machine after reset with these byte strings in memory. -/
def withMemory (l : List (Nat × List Byte)) : State := { State.reset with mem := memoryOf l }

/-- The 24 bytes of a header with small fields, written out by the table of R96. -/
def hdr (notify status length count : Byte) : List Byte :=
  [notify, 0, 0, 0, status, 0, 0, 0, length, 0, 0, 0, 0, 0, 0, 0, count, 0, 0, 0, 0, 0, 0, 0]

/-- The 16 bytes of a buffer entry at `b1 b0` with a small length, written out by the table of R97. -/
def entry (b1 b0 length : Byte) : List Byte := [b0, b1, 0, 0, 0, 0, 0, 0, length, 0, 0, 0, 0, 0, 0, 0]

/-- The start of program P1 (vector V60 at 0x1000, "Hello, " and "world"). -/
def hello : State := withMemory [(0x1000, hdr 1 0 0 2 ++ entry 0x20 0x00 7 ++ entry 0x30 0x00 5),
  (0x2000, [0x48, 0x65, 0x6C, 0x6C, 0x6F, 0x2C, 0x20]), (0x3000, [0x77, 0x6F, 0x72, 0x6C, 0x64])]

/-- The start of program P2: `H{1,0,0,2}`, A = `{0x5000,4}`, B = `{0x6000,4}` at 0x4000. -/
def receive : State := withMemory [(0x4000, hdr 1 0 0 2 ++ entry 0x50 0x00 4 ++ entry 0x60 0x00 4)]

/-- The device of vectors V1 to V11 with a cursor and a cached status: that SGL registered. -/
def registeredDev (idx : Nat) (off : Word64) (status : Word32) : Device :=
  { (Device.reset.install 0x4000 ⟨1, status, 0, 2⟩ [⟨0x5000, 4⟩, ⟨0x6000, 4⟩]) with curIdx := idx, curOff := off }

/-- The machine of vectors V1 to V11, the SGL registered and in memory. -/
def registered (idx : Nat) (off : Word64) : State := { receive with dev := registeredDev idx off 0 }

/-- "ABCDEFGH". -/
def abcdefgh : List Byte := [0x41, 0x42, 0x43, 0x44, 0x45, 0x46, 0x47, 0x48]

/-- The machine after reset with pending flags and a line. -/
def pendingState (outPending inPending line : Bool) : State :=
  { State.reset with dev := { Device.reset with outPending := outPending, inPending := inPending, irqLine := line } }

/-- The parameters with `SIZE_BYTES = 4`. -/
def fourBytes : Params := { Params.spec with sizeBytes := .four }

/-- The parameters with the smallest region of R61. -/
def smallRegion : Params := { Params.spec with regionBytes := 0x50 }

/-! ### WellFormed: an ill-formed term for each check -/

theorem test_wf_value_too_wide : Instr.wf Params.spec (.outSubmit 0x100 .w1) = false := by decide
theorem test_wf_value_fits : Instr.wf Params.spec (.outSubmit 0xFF .w1) = true := by decide
theorem test_wf_in_register_value : Instr.wf Params.spec (.inRegister 0x10000 .w2) = false := by decide
theorem test_wf_ack_value : Instr.wf Params.spec (.ack 0x100000000 .w4) = false := by decide
theorem test_wf_nop_at_command_register : Instr.wf Params.spec (.nopWr 0x08 0 .w8) = false := by decide
theorem test_wf_nop_beyond_region : Instr.wf smallRegion (.nopWr 0x50 0 .w8) = false := by decide
theorem test_wf_zero_in_tag_window : Instr.wf Params.spec (.rdZero 0x4F .w1) = false := by decide
theorem test_wf_zero_beyond_region : Instr.wf smallRegion (.rdZero 0x50 .w1) = false := by decide
theorem test_wf_tag_low_beyond_region : Instr.wf { Params.spec with regionBytes := 0x11 } (.tagReadLow 1 .w1) = false := by
  decide
theorem test_wf_tag_mid_beyond_region : Instr.wf { Params.spec with regionBytes := 0x21 } (.tagReadMid 1 .w1) = false := by
  decide
theorem test_wf_tag_high_beyond_region : Instr.wf { Params.spec with regionBytes := 0x41 } (.tagReadHigh 1 .w1) = false := by
  decide
theorem test_wf_delivery_too_long (d : List Byte) (h : 2 ^ 32 ≤ d.length) : Instr.wf fourBytes (.deliver d) = false :=
  decide_eq_false (Nat.not_lt.mpr h)
theorem test_params_wf : Params.spec.wf = true := by decide
theorem test_params_region_too_small : Params.wf { Params.spec with regionBytes := 0x4F } = false := by decide
theorem test_params_same_status : Params.wf { Params.spec with statusDone := 0 } = false := by decide

/-! ### Decoding: transaction tuples written out from R90 to R92, R101, R102 and vectors V50 to V56 -/

theorem test_decode_outSubmit : decode Params.spec (.mmioWr 0x00 0x80 1) = .ok (.outSubmit 0x80 .w1) := by rfl
theorem test_decode_inRegister : decode Params.spec (.mmioWr 0x08 0x4000 8) = .ok (.inRegister 0x4000 .w8) := by rfl
theorem test_decode_ack : decode Params.spec (.mmioWr 0x10 1 1) = .ok (.ack 1 .w1) := by rfl
theorem test_decode_nopWr_straddling : decode Params.spec (.mmioWr 0x0C 7 8) = .ok (.nopWr 0x0C 7 .w8) := by rfl
theorem test_decode_tagReadLow_last : decode Params.spec (.mmioRd 0x1F 2) = .ok (.tagReadLow 0xF .w2) := by rfl
theorem test_decode_tagReadMid_first : decode Params.spec (.mmioRd 0x20 1) = .ok (.tagReadMid 0 .w1) := by rfl
theorem test_decode_tagReadHigh_last : decode Params.spec (.mmioRd 0x4F 1) = .ok (.tagReadHigh 0xF .w1) := by rfl
theorem test_decode_rdZero_below : decode Params.spec (.mmioRd 0x0F 4) = .ok (.rdZero 0x0F .w4) := by rfl
theorem test_decode_capq : decode Params.spec .beCall = .ok .capq := by rfl
theorem test_decode_deliver : decode Params.spec (.beData [0x78]) = .ok (.deliver [0x78]) := by rfl
theorem test_decode_reset : decode Params.spec .hostReset = .ok .reset := by rfl
theorem test_decode_construct : decode Params.spec (.hostConstruct [0x64] .message (some 3))
    = .ok (.construct [0x64] .message (some 3)) := by rfl
theorem test_decode_width_three : decode Params.spec (.mmioWr 0x00 0 3) = .error .widthNotAdmitted := by rfl

/-- The table's match 0x08 of 64 bits is `IN_REGISTER`; the very next step runs it (log 2). -/
theorem test_table_word : decodeTableWord 64 0x08 = some (.inRegister 0 .w8) ∧
    (State.reset.withFetchWord 64 0x08).arrivals = [.command (.mmioWr 0x08 0 8)] := by decide

/-! ### Single commands from spec/95_test_vectors.md -/

/-- P1 step 2: the whole trace. -/
theorem test_outSubmit_trace : (after (.outSubmit 0x1000 .w8) hello).map (·.history) = some [
    .memRead 0x1000 24 (some (hdr 1 0 0 2)),
    .memRead 0x1018 32 (some (entry 0x20 0x00 7 ++ entry 0x30 0x00 5)),
    .memRead 0x2000 7 (some [0x48, 0x65, 0x6C, 0x6C, 0x6F, 0x2C, 0x20]),
    .beWrite [0x48, 0x65, 0x6C, 0x6C, 0x6F, 0x2C, 0x20],
    .memRead 0x3000 5 (some [0x77, 0x6F, 0x72, 0x6C, 0x64]),
    .beWrite [0x77, 0x6F, 0x72, 0x6C, 0x64],
    .lineChange true,
    .memWrite 0x1000 (hdr 1 1 0 2) true] := by decide

/-- V24: the backend fails the second chunk: E3, no interrupt, no header write. -/
theorem test_outSubmit_backend_failure :
    (after (.outSubmit 0x1000 .w8) { hello with beTurns := [.takes, .fails] }).map
      (fun t => (t.dev.outPending, t.mem == hello.mem, t.outStream, t.history.drop 6)) =
    some (false, true, [0x48, 0x65, 0x6C, 0x6C, 0x6F, 0x2C, 0x20], [.report (.backendWriteFailure 1 0)]) := by decide

/-- P2 step 2. -/
theorem test_inRegister : (after (.inRegister 0x4000 .w8) receive).map
      (fun t => (t.dev.inDescAddr, t.dev.inHdr, t.dev.registered, t.dev.totalCapacity, t.dev.inValid)) =
    some (0x4000, ⟨1, 0, 0, 2⟩, [⟨0x5000, 4⟩, ⟨0x6000, 4⟩], 8, true) := by decide

/-- V14: a live registration is replaced: E4 and `stale_count` 1. -/
theorem test_inRegister_stale : (after (.inRegister 0x4000 .w8) (registered 0 3)).map
      (fun t => (t.dev.staleCount, t.dev.curOff, t.history.drop 2)) =
    some (1, 0, [.report (.staleRegistration 0x4000 0x4000)]) := by decide

/-- V1: both buffers filled, `H{1,1,8,2}` written, then the line. -/
theorem test_deliver : (after (.deliver abcdefgh) (registered 0 0)).map (fun t => (t.dev.curIdx, t.history)) = some (2, [
    .memWrite 0x5000 [0x41, 0x42, 0x43, 0x44] true, .memWrite 0x6000 [0x45, 0x46, 0x47, 0x48] true,
    .memWrite 0x4000 (hdr 1 1 8 2) true, .lineChange true]) := by decide

/-- V11: memory refuses the second buffer: E5, the cursor after the first, status still Pending. -/
theorem test_deliver_refused :
    (after (.deliver abcdefgh) { registered 0 0 with memTurns := [MemTurn.quiet, ⟨[], [], .refuses⟩] }).map
      (fun t => (t.dev == registeredDev 1 0 0, t.history.drop 1)) =
    some (true, [.memWrite 0x6000 [0x45, 0x46, 0x47, 0x48] false, .report (.guestAccessFailure 0x6000 4)]) := by decide

/-- V6: cursor (0,3) leaves 5. -/
theorem test_capq : (after .capq (registered 0 3)).map (·.history) = some [.capacityReturned 5] := by decide

/-- V43: both pending, `ACK.OUT`, under either line model. -/
theorem test_ack_both_models :
    (after (.ack 1 .w8) (pendingState true true true)).map (·.dev.irqLine) = some true ∧
    (after (.ack 1 .w8) { pendingState true true true with cfg := { Params.spec with lineModel := .singleLatchLiteral } }).map
      (·.dev.irqLine) = some false := by decide

/-- P2 step 6: `ACK.BOTH` handles the outbound flag only. -/
theorem test_ack_first_match : (after (.ack 3 .w8) (pendingState true true true)).map
    (fun t => (t.dev.outPending, t.dev.inPending)) = some (false, true) := by decide

/-- V53. -/
theorem test_nopWr : after (.nopWr 0x18 0xFFFFFFFFFFFFFFFF .w8) hello = some hello := by decide

/-- V55: `TAG = "dma0"`, one byte at width 8, and 0 beyond the length. -/
theorem test_tagRead :
    let s : State := { State.reset with cfg := { Params.spec with tag := [0x64, 0x6D, 0x61, 0x30] } }
    (after (.tagReadLow 0 .w8) s).map (·.history) = some [.readReturned 0x64] ∧
    (after (.tagReadLow 4 .w1) s).map (·.history) = some [.readReturned 0] ∧
    (after (.tagReadMid 0 .w1) s).map (·.history) = some [.readReturned 0] ∧
    (after (.tagReadHigh 15 .w1) s).map (·.history) = some [.readReturned 0] := by decide

/-- A tag of 64 bytes: each row reads its own part of the window. -/
theorem test_tagRead_rows :
    let s : State := { State.reset with cfg := { Params.spec with tag := (List.range 64).map (BitVec.ofNat 8) } }
    (after (.tagReadLow 15 .w1) s).map (·.history) = some [.readReturned 15] ∧
    (after (.tagReadMid 0 .w1) s).map (·.history) = some [.readReturned 16] ∧
    (after (.tagReadHigh 15 .w1) s).map (·.history) = some [.readReturned 63] := by decide

/-- V56. -/
theorem test_rdZero : (after (.rdZero 0x08 .w8) (registered 0 0)).map (·.history) = some [.readReturned 0] := by decide

/-- V70. -/
theorem test_reset : (after .reset (registered 1 1)).map (fun t => (t.dev == Device.reset, t.history)) = some (true, []) := by
  decide

/-- R282. -/
theorem test_construct : (after (.construct [0x64] .message (some 3)) { State.reset with backend := none }).map
      (fun t => (t.cfg.tag, t.cfg.irqMode, t.backend)) = some ([0x64], .message, some 3) ∧
    (after (.construct [0x64] .message none) { State.reset with backend := none }).map (·.history) =
      some [.constructionFailed] := by decide

/-- V60: the bytes of the header in both byte orders. -/
theorem test_header_bytes : headerBytes Params.spec ⟨1, 0, 0, 2⟩ = hdr 1 0 0 2 ∧
    headerBytes { Params.spec with byteOrder := .bigEndian } ⟨1, 0, 0, 2⟩ =
      [0, 0, 0, 1, 0, 0, 0, 0, 0, 0, 0, 0, 0, 0, 0, 0, 0, 0, 0, 0, 0, 0, 0, 2] := by decide

/-- V23: chunks of a buffer. -/
theorem test_chunk_count : [1, 16383, 16384, 16385, 32768, 40000, 0].map (chunkCount Params.spec) = [1, 1, 1, 2, 2, 3, 0] := by decide

/-! ### Witnesses: for each statement with hypotheses, a state and operands that meet them -/

/-- `H{1,0,0,65}` at 0x1000 (V25). -/
def malformed : State := withMemory [(0x1000, hdr 1 0 0 65)]

/-- A list whose second buffer passes `2^64`. -/
def beyond : State := withMemory [(0x1000, hdr 1 0 0 2 ++ entry 0x20 0x00 3 ++
  [0xFF, 0xFF, 0xFF, 0xFF, 0xFF, 0xFF, 0xFF, 0xFF, 2, 0, 0, 0, 0, 0, 0, 0])]

/-- One arrival. -/
def arriving (t : Transaction) : State := { State.reset with arrivals := [.command t] }

theorem fetchable {s : State} {a : Word64} (hc : (s.headerAt a).bufferCount.toNat ≤ Config.maxBuffers)
    (hf : a.toNat + (s.cfg.hdrBytes + Config.bufBytes * (s.headerAt a).bufferCount.toNat) ≤ addressSpace) :
    s.SglFetchable a := ⟨hc, hf⟩

theorem still {s : State} (h : s.memTurns = []) : s.GuestStill := by simp [State.GuestStill, h]

theorem registered_inv : (registered 0 0).Inv where
  cursor := Device.CursorInv.installed (d := Device.reset) (a := 0x4000) (h := ⟨1, 0, 0, 2⟩)
    (bl := [⟨0x5000, 4⟩, ⟨0x6000, 4⟩]) (by decide) (by decide)
  line := ⟨fun h => absurd h (by decide), fun _ _ => rfl⟩
  memory := by decide

theorem pending_inv : (pendingState true true true).Inv where
  cursor := Device.reset_cursorInv.congr rfl rfl rfl rfl rfl rfl rfl
  line := ⟨fun h => absurd h (by decide), fun _ _ => rfl⟩
  memory := rfl

theorem witness_DecodeEncodeRoundTrip : Instr.wf Params.spec (.outSubmit 0xFFFFFFFFFFFFFFFF .w8) = true ∧
    Instr.wf Params.spec (.nopWr 0x11 0xFFFF .w2) = true ∧ Instr.wf smallRegion (.rdZero 0x0F .w1) = true ∧
    Instr.wf smallRegion (.tagReadHigh 15 .w8) = true := by decide

theorem witness_EncodeDecodeRoundTrip : decode Params.spec (.mmioRd 0x3F 8) = .ok (.tagReadMid 0x1F .w8) := by rfl

theorem witness_DispatchByStartOffset : (decodeRead fourBytes 0x10 .w1).tagIndex = some 0 ∧
    (decodeRead Params.spec 0x4F .w1).tagIndex = some 63 ∧ decodeRead Params.spec 0x0F .w1 = .rdZero 0x0F .w1 ∧
    decodeRead Params.spec 0x50 .w1 = .rdZero 0x50 .w1 := by decide

theorem witness_UnadmittedAccessesRefused :
    (3 ≠ 1 ∧ 3 ≠ 2 ∧ 3 ≠ 4 ∧ 3 ≠ 8 ∧ (arriving (.mmioWr 0 0 3)).arrivals = [.command (.mmioWr 0 0 3)]) ∧
    ({ arriving (.mmioRd 0x50 8) with cfg := smallRegion } : State).cfg.regionBytes ≤ (0x50 : Word64).toNat ∧
    ((0 : Word64).toNat < Params.spec.regionBytes ∧ 2 ^ (8 * 1) ≤ (0x100 : Word64).toNat) ∧
    (∃ d : List Byte, 2 ^ (8 * fourBytes.sizeBytes.bytes) ≤ d.length) :=
  ⟨by decide, by decide, by decide, List.replicate (2 ^ (8 * fourBytes.sizeBytes.bytes)) 0,
    Nat.le_of_eq (List.length_replicate ..).symm⟩

theorem witness_StepRunsDecodedCommand : (arriving .beCall).arrivals = .command .beCall :: [] ∧
    decode (arriving .beCall).cfg .beCall = .ok .capq ∧ notLetIn (arriving .beCall) .capq = none := ⟨rfl, rfl, rfl⟩

theorem witness_StepOnOtherArrivals : State.reset.arrivals = [] ∧
    ({ State.reset with arrivals := [.guestStores [(0x10, 1)]] } : State).arrivals = .guestStores [(0x10, 1)] :: [] ∧
    decode (arriving (.mmioRd 0 5)).cfg (.mmioRd 0 5) = .error .widthNotAdmitted ∧
    notLetIn (arriving (.hostConstruct [] .level none)) (.construct [] .level none) = some .alreadyConstructed :=
  ⟨rfl, rfl, rfl, rfl⟩

theorem witness_WireFieldsFollowByteOrder : enc .littleEndian 4 0x01020304 = [4, 3, 2, 1] ∧
    enc .bigEndian 4 0x01020304 = [1, 2, 3, 4] := by decide

theorem witness_HeaderRoundTrip : (0xFFFFFFFF : Word64).toNat < 2 ^ (8 * fourBytes.sizeBytes.bytes) ∧
    (0xFFFFFFFFFFFFFFFF : Word64).toNat < 2 ^ (8 * Params.spec.sizeBytes.bytes) := by decide

theorem witness_BufferEntriesLieSixteenApart :
    (decodeBuffers Params.spec (entry 0x20 0 7 ++ entry 0x30 0 5) 2)[1]? = some ⟨0x3000, 5⟩ := by decide

theorem witness_MemoryReadsWhatWasWritten :
    hello.mem.wf = true ∧ 0xFFFFFFFFFFFFFFFE + ([1, 2] : List Byte).length ≤ addressSpace := by decide

theorem witness_MemReadAsRuled : addressSpace < 0xFFFFFFFFFFFFFFFF + 2 ∧ 0xFFFFFFFFFFFFFFFF + 1 ≤ addressSpace ∧
    State.reset.memTurns = [] ∧
    (⟨[(0x10, 1)], [(0x11, 2)], .grants⟩ : MemTurn).verdict = .grants ∧ (⟨[], [], .refuses⟩ : MemTurn).verdict = .refuses ∧
    (⟨[], [], .never⟩ : MemTurn).verdict = .never := by decide

theorem witness_MemWriteAsRuled : hello.mem.wf = true ∧
    addressSpace < 0xFFFFFFFFFFFFFFFF + ([1, 2] : List Byte).length ∧
    0xFFFFFFFFFFFFFFFF + ([1] : List Byte).length ≤ addressSpace ∧ hello.memTurns = [] ∧
    ({ hello with memTurns := [⟨[], [], .refuses⟩] } : State).memTurns = ⟨[], [], .refuses⟩ :: [] := by decide

theorem witness_BackendWriteAsRuled : State.reset.beTurns = [] ∧
    ({ State.reset with beTurns := [.takes] } : State).beTurns = .takes :: [] ∧
    ({ State.reset with beTurns := [.fails] } : State).beTurns = .fails :: [] ∧
    ({ State.reset with beTurns := [.never] } : State).beTurns = .never :: [] := by decide

theorem witness_TagReadReturnsOneByte : 0x10 ≤ (0x10 : Word64).toNat ∧ (0x4F : Word64).toNat < 0x50 := by decide

theorem witness_OtherReadsReturnZero : (0x0F : Word64).toNat < 0x10 ∧ 0x50 ≤ (0x50 : Word64).toNat := by decide

theorem witness_OtherWritesChangeNothing : (0x04 : Word64) ≠ 0x00 ∧ (0x04 : Word64) ≠ 0x08 ∧ (0x04 : Word64) ≠ 0x10 := by
  decide

theorem witness_ReadsRevealOnlyTheTag : (registered 0 0).cfg.tag = (pendingState true true true).cfg.tag := by decide

theorem witness_QuietCommandsTouchNoMemory : ∃ t, exec (.ack 1 .w8) (pendingState true true true) = .next t :=
  next_of_after (by decide)

theorem witness_AckClearsFirstMatch : (3 : Word64).getLsbD 0 = true ∧
    ((2 : Word64).getLsbD 0 = false ∧ (2 : Word64).getLsbD 1 = true) ∧
    ((0xFFFFFFFFFFFFFFFC : Word64).getLsbD 0 = false ∧ (0xFFFFFFFFFFFFFFFC : Word64).getLsbD 1 = false) := by decide

theorem witness_AckTruthTable : (pendingState true false true).cfg.irqMode = .level ∧
    (pendingState true false true).cfg.lineModel = .perDirectionOr ∧
    (pendingState true false true).dev.irqLine =
      ((pendingState true false true).dev.outPending || (pendingState true false true).dev.inPending) := by decide

theorem witness_AckNeverRaises : (pendingState true true true).Inv ∧
    ∃ t, exec (.ack 2 .w8) (pendingState true true true) = .next t := ⟨pending_inv, next_of_after (by decide)⟩

theorem witness_OutSubmitCompletes : hello.Quiet ∧ hello.SglFetchable 0x1000 ∧
    (∀ c ∈ hello.chunksAt 0x1000, c.address + c.size ≤ addressSpace) ∧
    hello.chunksAt 0x1000 = [⟨0, 0, 0x2000, 7⟩, ⟨1, 0, 0x3000, 5⟩] :=
  ⟨⟨by decide, by decide⟩, fetchable (by decide) (by decide), by decide, by decide⟩

theorem witness_OutSubmitOnlyNotifies : hello.GuestStill ∧ ∃ t, exec (.outSubmit 0x1000 .w8) hello = .next t :=
  ⟨still rfl, next_of_after (by decide)⟩

/-- A backend that fails the second chunk; a refused read of it; one that would pass `2^64`; a refused header write. -/
theorem witness_BackendFailureEndsSubmission :
    (hello.SglFetchable 0x1000 ∧ (hello.fetchEvents 0x1000).length = 2 ∧
      hello.chunksAt 0x1000 = [⟨0, 0, 0x2000, 7⟩, ⟨1, 0, 0x3000, 5⟩] ∧
      (∀ c ∈ (hello.chunksAt 0x1000).take (1 + 1), c.address + c.size ≤ addressSpace) ∧ hello.Quiet) ∧
    ({ hello with beTurns := [.takes, .fails] } : State).beTurns = List.replicate 1 .takes ++ .fails :: [] ∧
    ({ hello with memTurns := [MemTurn.quiet, MemTurn.quiet, MemTurn.quiet, ⟨[], [], .refuses⟩] } : State).memTurns =
      List.replicate (2 + 1) MemTurn.quiet ++ ⟨[], [], .refuses⟩ :: [] ∧
    (beyond.SglFetchable 0x1000 ∧ beyond.Quiet ∧ (beyond.chunksAt 0x1000)[1]? = some ⟨1, 0, 0xFFFFFFFFFFFFFFFF, 2⟩ ∧
      (∀ c ∈ (beyond.chunksAt 0x1000).take 1, c.address + c.size ≤ addressSpace) ∧
      ¬ 0xFFFFFFFFFFFFFFFF + 2 ≤ addressSpace) ∧
    ({ hello with memTurns := List.replicate 4 MemTurn.quiet ++ [⟨[], [], .refuses⟩] } : State).memTurns =
      List.replicate (2 + 2) MemTurn.quiet ++ ⟨[], [], .refuses⟩ :: [] := by
  refine ⟨⟨fetchable (by decide) (by decide), by decide, by decide, by decide, by decide, by decide⟩, by decide,
    by decide, ⟨fetchable (by decide) (by decide), ⟨by decide, by decide⟩, by decide, by decide, by decide⟩, by decide⟩

theorem witness_MalformedDescriptorRejected : malformed.Quiet ∧
    (0x1000 : Word64).toNat + malformed.cfg.hdrBytes ≤ addressSpace ∧
    Config.maxBuffers < (malformed.headerAt 0x1000).bufferCount.toNat :=
  ⟨⟨by decide, by decide⟩, by decide, by decide⟩

/-- A header one byte too high; a header that ends at `2^64`, with a list of one entry. -/
theorem witness_DescriptorPastAddressSpaceFails :
    addressSpace < (0xFFFFFFFFFFFFFFE9 : Word64).toNat + State.reset.cfg.hdrBytes ∧
    let s := withMemory [(0xFFFFFFFFFFFFFFE8, hdr 1 0 0 1)]
    s.Quiet ∧ (0xFFFFFFFFFFFFFFE8 : Word64).toNat + s.cfg.hdrBytes ≤ addressSpace ∧
    (s.headerAt 0xFFFFFFFFFFFFFFE8).bufferCount = 1 :=
  ⟨by decide, ⟨by decide, by decide⟩, by decide, by decide⟩

/-- A refused header read; a granted one after a guest store, then a refused list read. -/
theorem witness_RefusedHeaderReadEndsCommand :
    (({ hello with memTurns := [⟨[], [], .refuses⟩] } : State).memTurns = ⟨[], [], .refuses⟩ :: [] ∧
      (0x1000 : Word64).toNat + hello.cfg.hdrBytes ≤ addressSpace) ∧
    ({ hello with memTurns := [⟨[(0x1010, 1)], [], .grants⟩, ⟨[], [], .refuses⟩] } : State).memTurns =
      ⟨[(0x1010, 1)], [], .grants⟩ :: ⟨[], [], .refuses⟩ :: [] ∧
    (decodeHeader hello.cfg ((hello.mem.putStores [(0x1010, 1)]).seenBytes [] 0x1000 hello.cfg.hdrBytes)).bufferCount = 1 ∧
    0x1000 + hello.cfg.hdrBytes + 16 * 1 ≤ addressSpace := by
  decide

/-- The first registration and the replacement of a live one. -/
theorem witness_InRegisterInstalls : (receive.Quiet ∧ receive.SglFetchable 0x4000 ∧ receive.dev.inValid = false) ∧
    ((registered 0 3).Quiet ∧ (registered 0 3).SglFetchable 0x4000 ∧ (registered 0 3).dev.inValid = true ∧
      (registered 0 3).dev.inHdr.status = (registered 0 3).cfg.statusPending) :=
  ⟨⟨⟨by decide, by decide⟩, fetchable (by decide) (by decide), by decide⟩,
    ⟨⟨by decide, by decide⟩, fetchable (by decide) (by decide), by decide, by decide⟩⟩

theorem witness_RejectedRegistrationChangesNothing : ∃ t, exec (.inRegister 0x1000 .w8) malformed = .next t ∧
    t.history = malformed.history ++ t.history ∧ ∃ e ∈ t.history, e.endsCommand = true := by
  obtain ⟨t, h, p⟩ := next_with (i := .inRegister 0x1000 .w8) (s := malformed) (·.history.any Event.endsCommand) (by decide)
  exact ⟨t, h, rfl, List.any_eq_true.mp p⟩

theorem witness_InRegisterFrame : receive.GuestStill ∧ ∃ t, exec (.inRegister 0x4000 .w8) receive = .next t :=
  ⟨still rfl, next_of_after (by decide)⟩

/-- The clauses of `CAPQ`: never registered; Pending with the cursor inside; Pending with the cursor past the end. -/
theorem witness_CapqAnswersUnconsumedCapacity : State.reset.dev.inValid = false ∧
    ((registered 1 3).dev.inValid = true ∧ (registered 1 3).dev.inHdr.status ≠ (registered 1 3).cfg.statusDone ∧
      (registered 1 3).dev.registered[(registered 1 3).dev.curIdx]? = some ⟨0x6000, 4⟩) ∧
    (registered 2 0).dev.registered.length ≤ (registered 2 0).dev.curIdx := by decide

theorem witness_CapqAfterRegistration : receive.Quiet ∧ receive.SglFetchable 0x4000 ∧
    (receive.headerAt 0x4000).status = receive.cfg.statusPending ∧ receive.cfg.statusPending ≠ receive.cfg.statusDone :=
  ⟨⟨by decide, by decide⟩, fetchable (by decide) (by decide), by decide, by decide⟩

theorem witness_ForeignStatusLosesBytes :
    let s : State := { receive with dev := registeredDev 0 0 2 }
    s.dev.inValid = true ∧ s.dev.inHdr.status ≠ s.cfg.statusPending ∧ s.dev.inHdr.status ≠ s.cfg.statusDone ∧
    ∃ t, exec (.inRegister 0x4000 .w8) s = .next t :=
  ⟨by decide, by decide, by decide, next_of_after (by decide)⟩

theorem witness_DeliveryDroppedWithoutLiveRegistration : State.reset.dev.inValid = false ∧
    ({ receive with dev := registeredDev 0 0 1 } : State).dev.inHdr.status ≠ receive.cfg.statusPending := by decide

/-- The delivery that fills the buffers exactly (V1). -/
theorem witness_DeliveryScattersAndCompletes :
    let s := registered 0 0
    s.Inv ∧ s.Quiet ∧ s.dev.inValid = true ∧ s.dev.inHdr.status = s.cfg.statusPending ∧
    s.cfg.statusPending ≠ s.cfg.statusDone ∧ abcdefgh.length = s.dev.freeSlots.length ∧
    (∀ x ∈ s.dev.freeSlots.take abcdefgh.length, x < addressSpace) ∧
    s.dev.inDescAddr.toNat + s.cfg.hdrBytes ≤ addressSpace :=
  ⟨registered_inv, ⟨by decide, by decide⟩, by decide, by decide, by decide, by decide, by decide, by decide⟩

/-- One byte more than the space. -/
theorem witness_OverrunFillsThenFails :
    let s := registered 0 0
    s.Inv ∧ s.Quiet ∧ s.dev.inValid = true ∧ s.dev.inHdr.status = s.cfg.statusPending ∧
    s.cfg.overrunPolicy = .fillThenFail ∧ s.dev.freeSlots.length < (abcdefgh ++ [0x49]).length ∧
    ∀ x ∈ s.dev.freeSlots, x < addressSpace :=
  ⟨registered_inv, ⟨by decide, by decide⟩, by decide, by decide, by decide, by decide, by decide⟩

theorem witness_OverrunPrecheckRejectsWhole :
    let s : State := { registered 0 0 with cfg := { Params.spec with overrunPolicy := .precheck } }
    s.dev.inValid = true ∧ s.dev.inHdr.status = s.cfg.statusPending ∧ s.cfg.overrunPolicy = .precheck ∧
    capacity s.cfg s.dev < (abcdefgh ++ [0x49]).length := by decide

theorem witness_EmptyDeliveryCompletes :
    let s := registered 2 0
    s.Quiet ∧ s.dev.inValid = true ∧ s.dev.inHdr.status = s.cfg.statusPending ∧
    s.dev.inDescAddr.toNat + s.cfg.hdrBytes ≤ addressSpace :=
  ⟨⟨by decide, by decide⟩, by decide, by decide, by decide⟩

/-- A refused payload write (V11); a refused header write. -/
theorem witness_AccessFailureInDelivery :
    (∃ t, exec (.deliver abcdefgh) { registered 0 0 with memTurns := [MemTurn.quiet, ⟨[], [], .refuses⟩] } = .next t ∧
      .report (.guestAccessFailure 0x6000 4) ∈ t.history) ∧
    ∃ t, exec (.deliver abcdefgh)
        { registered 0 0 with memTurns := [MemTurn.quiet, MemTurn.quiet, ⟨[], [], .refuses⟩] } = .next t ∧
      .report (.guestAccessFailure 0x4000 24) ∈ t.history := by
  obtain ⟨t, h, p⟩ := next_with (i := .deliver abcdefgh)
    (s := { registered 0 0 with memTurns := [MemTurn.quiet, ⟨[], [], .refuses⟩] })
    (fun t => decide (.report (.guestAccessFailure 0x6000 4) ∈ t.history)) (by decide)
  obtain ⟨u, k, q⟩ := next_with (i := .deliver abcdefgh)
    (s := { registered 0 0 with memTurns := [MemTurn.quiet, MemTurn.quiet, ⟨[], [], .refuses⟩] })
    (fun t => decide (.report (.guestAccessFailure 0x4000 24) ∈ t.history)) (by decide)
  exact ⟨⟨t, h, by simpa using p⟩, u, k, by simpa using q⟩

theorem witness_DeliveryStaysInBounds : (registered 0 0).GuestStill ∧
    (∃ t, exec (.deliver abcdefgh) (registered 0 0) = .next t) ∧ ¬ (registered 0 0).dev.ownsAddress 0x5004 ∧
    ¬ inRange (registered 0 0).dev.inDescAddr.toNat (registered 0 0).cfg.hdrBytes 0x5004 := by
  refine ⟨still rfl, next_of_after (by decide), ?_, ?_⟩
  · show ¬ ∃ b ∈ (registered 0 0).dev.registered, b.base.toNat ≤ 0x5004 ∧ 0x5004 < b.base.toNat + b.length.toNat
    decide
  · show ¬ (_ ∧ _)
    decide

theorem witness_CompletedRegistrationTakesNoMore :
    let s : State := { receive with dev := registeredDev 0 0 1 }
    s.dev.inHdr.status = s.cfg.statusDone ∧ s.cfg.statusPending ≠ s.cfg.statusDone := by decide

theorem witness_ConstructFixesConfiguration : State.reset.backend = some 0 ∧
    ({ State.reset with backend := none } : State).backend = none ∧ ∀ x y z, Instr.capq ≠ .construct x y z :=
  ⟨rfl, rfl, by simp⟩

/-- The flag is set by a submission and cleared by an acknowledge. -/
theorem witness_OutPendingChangesOnlyByRule :
    (hello.dev.outPending = false ∧ ∃ t, exec (.outSubmit 0x1000 .w8) hello = .next t ∧ t.dev.outPending = true) ∧
    ((pendingState true false true).dev.outPending = true ∧
      ∃ t, exec (.ack 1 .w8) (pendingState true false true) = .next t ∧ (!t.dev.outPending) = true) :=
  ⟨⟨by decide, next_with (·.dev.outPending) (by decide)⟩, by decide, next_with (!·.dev.outPending) (by decide)⟩

theorem witness_InPendingChangesOnlyByRule :
    ((registered 0 0).dev.inPending = false ∧
      ∃ t, exec (.deliver abcdefgh) (registered 0 0) = .next t ∧ t.dev.inPending = true) ∧
    ((pendingState false true true).dev.inPending = true ∧
      ∃ t, exec (.ack 2 .w8) (pendingState false true true) = .next t ∧ (!t.dev.inPending) = true) :=
  ⟨⟨by decide, next_with (·.dev.inPending) (by decide)⟩, by decide, next_with (!·.dev.inPending) (by decide)⟩

theorem witness_InValidChangesOnlyByRule :
    (receive.dev.inValid = false ∧ ∃ t, exec (.inRegister 0x4000 .w8) receive = .next t ∧ t.dev.inValid = true) ∧
    ((registered 0 0).dev.inValid = true ∧ ∃ t, exec .reset (registered 0 0) = .next t ∧ (!t.dev.inValid) = true) :=
  ⟨⟨by decide, next_with (·.dev.inValid) (by decide)⟩, by decide, next_with (!·.dev.inValid) (by decide)⟩

theorem witness_RegistrationChangesOnlyByRule : (∃ t, exec (.deliver abcdefgh) (registered 0 0) = .next t) ∧
    (∀ v w, Instr.deliver abcdefgh ≠ .inRegister v w) ∧ Instr.deliver abcdefgh ≠ .reset ∧
    ∀ x y z, Instr.deliver abcdefgh ≠ .construct x y z :=
  ⟨next_of_after (by decide), by simp, by simp, by simp⟩

theorem witness_StaleCountCountsReplacements :
    (∃ t, exec (.inRegister 0x4000 .w8) (registered 0 3) = .next t ∧ (t.dev.staleCount == 1) = true) ∧
    Instr.inRegister 0x4000 .w8 ≠ .reset ∧ ∀ x y z, Instr.inRegister 0x4000 .w8 ≠ .construct x y z :=
  ⟨next_with (·.dev.staleCount == 1) (by decide), by simp, by simp⟩

theorem witness_OutboundStreamIsWhatWasWritten : ∃ t, exec (.outSubmit 0x1000 .w8) hello = .next t ∧
    t.history = hello.history ++ t.history ∧ (t.history.flatMap Event.pushed).length = 12 := by
  obtain ⟨t, h, p⟩ := next_with (i := .outSubmit 0x1000 .w8) (s := hello)
    (fun t => (t.history.flatMap Event.pushed).length == 12) (by decide)
  exact ⟨t, h, rfl, by simpa using p⟩

/-- A command that one error ends. -/
theorem witness_AtMostOneEndingError : ∃ t, exec (.outSubmit 0x1000 .w8) malformed = .next t ∧
    (t.history.filter Event.endsCommand).length = 1 := by
  obtain ⟨t, h, p⟩ := next_with (i := .outSubmit 0x1000 .w8) (s := malformed)
    (fun t => (t.history.filter Event.endsCommand).length == 1) (by decide)
  exact ⟨t, h, by simpa using p⟩

theorem witness_RecordOnlyGrows : ∃ t, step (arriving .beCall) = .next t := ⟨_, rfl⟩

/-- The two ways a step refuses: an arrival that does not decode, and one that `H` must not present. -/
theorem witness_NoCommandIsRefused :
    step (arriving (.mmioRd 0 5)) = .refused (.notADeviceAccess .widthNotAdmitted) ∧
    step (arriving (.hostConstruct [] .level none)) = .refused .alreadyConstructed := ⟨rfl, rfl⟩

theorem witness_EveryCommandEnds : (registered 0 0).Inv ∧ (registered 0 0).PortsAnswer :=
  ⟨registered_inv, by decide, by decide⟩

theorem witness_StepKeepsInvariant : State.reset.Inv ∧ (arriving .beCall).Inv ∧ ∃ t, step (arriving .beCall) = .next t := by
  have h : ∀ l, ({ State.reset with arrivals := l } : State).Inv := fun l =>
    ⟨Device.reset_cursorInv, ⟨fun _ => rfl, fun _ _ => rfl⟩, rfl⟩
  exact ⟨h [], h _, _, rfl⟩

theorem witness_OutboundInterruptPrecedesHeaderWrite : hello.Quiet ∧ hello.SglFetchable 0x1000 ∧
    ∀ c ∈ hello.chunksAt 0x1000, c.address + c.size ≤ addressSpace :=
  ⟨witness_OutSubmitCompletes.1, witness_OutSubmitCompletes.2.1, witness_OutSubmitCompletes.2.2.1⟩

theorem witness_OutSubmitWritesOnlyItsHeader : hello.GuestStill ∧ ∃ t, exec (.outSubmit 0x1000 .w8) hello = .next t :=
  witness_OutSubmitOnlyNotifies

theorem witness_DeliveryFrame : ∃ t, exec (.deliver abcdefgh) (registered 0 0) = .next t :=
  witness_DeliveryStaysInBounds.2.1

theorem witness_ConfigurationIsConstant : (∃ t, exec .reset (registered 0 0) = .next t) ∧
    ∀ x y z, Instr.reset ≠ .construct x y z := ⟨next_of_after (by decide), by simp⟩

end Sys2Proof.Tests
end

section
/-! SUPPORT. Proofs of the statements of spec/00_scope.md: the wire fields as sums of powers of 256 (R11), how a step
reaches the meaning of the command it decodes (R6, R12), and that every command ends (R13). -/

namespace Sys2Proof.Machine

/-! ### The wire fields -/

theorem decLittle_eq_sum (s : List Byte) :
    decLittle s = ∑ i ∈ Finset.range s.length, (s.getD i 0).toNat * 256 ^ i := by
  induction s with
  | nil => rfl
  | cons b rest ih =>
    rw [decLittle, ih, List.length_cons, Finset.sum_range_succ', Finset.mul_sum, add_comm]
    congr 1
    · exact Finset.sum_congr rfl fun i _ => by rw [List.getD_cons_succ, pow_succ]; ring
    · simp

/-- Reversing the bytes turns the weight of byte `i` from `256^i` into `256^(N-1-i)`. -/
theorem decLittle_reverse_eq_sum (s : List Byte) : decLittle s.reverse =
    ∑ i ∈ Finset.range s.length, (s.getD i 0).toNat * 256 ^ (s.length - 1 - i) := by
  rw [decLittle_eq_sum, List.length_reverse, ← Finset.sum_range_reflect]
  refine Finset.sum_congr rfl fun i hi => ?_
  have hi : i < s.length := Finset.mem_range.mp hi
  rw [List.getD_reverse _ (by omega), show s.length - 1 - (s.length - 1 - i) = i by omega]

/-- Byte `i` of the big-endian coding (R11). -/
theorem getElem?_reverse_encLittle (v : Nat) {n i : Nat} (h : i < n) :
    (encLittle n v).reverse[i]? = some (BitVec.ofNat 8 (v >>> (8 * (n - 1 - i)))) := by
  rw [List.getElem?_reverse (by simpa using h), length_encLittle, getElem?_encLittle v (by omega)]

/-- Settles O8: the little-endian sum by induction on the bytes, the big-endian one by reflecting it. -/
theorem wireFieldsFollowByteOrder : Obligations.WireFieldsFollowByteOrder :=
  ⟨decLittle_eq_sum, decLittle_reverse_eq_sum, fun n v => ⟨length_enc _ n v, length_enc _ n v⟩,
    fun _ v _ => getElem?_encLittle v, fun _ v _ => getElem?_reverse_encLittle v⟩

/-! ### The step of an arriving command -/

theorem fetchNext_of_command {s : State} {t : Transaction} {rest : List Arrival}
    (h : s.arrivals = .command t :: rest) : fetchNext s = .command t { s with arrivals := rest } := by
  simp [fetchNext, h]

/-- What `H` lets in depends on the backend, not on what else arrives. -/
@[simp] theorem notLetIn_setArrivals (s : State) (rest : List Arrival) (i : Instr) :
    notLetIn { s with arrivals := rest } i = notLetIn s i := rfl

/-- Settles O6. -/
theorem stepRunsDecodedCommand : Obligations.StepRunsDecodedCommand := by
  intro s t rest i harr hdec hlet
  simp only [step, fetchNext_of_command harr, hdec, notLetIn_setArrivals, hlet]

/-! ### Every command ends -/

/-- A command that is stuck only where a port call never returns ends where every port call is answered. -/
theorem Run.Sat.next_of_portsAnswer {r : Run Unit} {d : Unit → State → Prop} {a : State → Prop} {s : State}
    (h : r.Sat d a fun _ => ¬ s.PortsAnswer) (hp : s.PortsAnswer) : ∃ t, r.outcome = .next t := by
  obtain ⟨t, ht, -⟩ := (h.mono (fun _ _ k => k) (fun _ k => k) fun _ k => k hp).next_of_not_stuck
  exact ⟨t, ht⟩

theorem exec_ack_next (v : Word64) (w : AccessWidth) (s : State) : ∃ t, exec (.ack v w) s = .next t := by
  rw [exec_ack]
  split
  · exact ⟨_, rfl⟩
  · split <;> exact ⟨_, rfl⟩

theorem exec_construct_next (tag : List Byte) (mode : IrqMode) (b : Option Endpoint) (s : State) :
    ∃ t, exec (.construct tag mode b) s = .next t := by
  cases b <;> exact ⟨_, rfl⟩

/-- Settles O57: the three commands with port calls are stuck only where a port never answers, `DELIVER` by the
invariant of its cursor; every other command computes its next state. -/
theorem everyCommandEnds : Obligations.EveryCommandEnds := by
  intro i s hinv hports
  cases i with
  | outSubmit v w => exact (outSubmit_sat v s).next_of_portsAnswer hports
  | inRegister v w => exact (inRegister_sat v s).next_of_portsAnswer hports
  | deliver d => exact (deliver_inv hinv.cursor).next_of_portsAnswer hports
  | ack v w => exact exec_ack_next v w s
  | construct tag mode b => exact exec_construct_next tag mode b s
  | nopWr | tagReadLow | tagReadMid | tagReadHigh | rdZero | capq | reset => exact ⟨_, rfl⟩

end Sys2Proof.Machine
end

section
/-! SUPPORT. Proofs of the statements of spec/10_state.md: how a step answers a next state, which command changes which
register of the device (R22 to R32, R34), the invariant of R42, and what a register read reveals (R41). -/

namespace Sys2Proof.Machine

/-! ### One step -/

theorem step_of_idle {s : State} (h : s.arrivals = []) : step s = .next s := by simp [step, fetchNext, h]

theorem step_of_guestStores {s : State} {stores : Stores} {rest : List Arrival}
    (h : s.arrivals = .guestStores stores :: rest) :
    step s = .next { s with arrivals := rest, mem := s.mem.putStores stores } := by simp [step, fetchNext, h]

theorem step_of_decodeError {s : State} {t : Transaction} {rest : List Arrival} {e : DecodeError}
    (h : s.arrivals = .command t :: rest) (hd : decode s.cfg t = .error e) :
    step s = .refused (.notADeviceAccess e) := by
  simp only [step, fetchNext_of_command h, hd]

theorem step_of_notLetIn {s : State} {t : Transaction} {rest : List Arrival} {i : Instr} {r : Refusal}
    (h : s.arrivals = .command t :: rest) (hd : decode s.cfg t = .ok i) (hr : notLetIn s i = some r) :
    step s = .refused r := by
  simp only [step, fetchNext_of_command h, hd, notLetIn_setArrivals, hr]

/-- Settles O7. -/
theorem stepOnOtherArrivals : Obligations.StepOnOtherArrivals := fun _ =>
  ⟨step_of_idle, fun _ _ => step_of_guestStores, fun _ _ _ => step_of_decodeError, fun _ _ _ _ => step_of_notLetIn⟩

/-- A step that answers a next state was idle, let guest stores land, or ran a command. -/
theorem step_next_cases {s t : State} (h : step s = .next t) :
    t = s ∨ (∃ rest stores, t = { s with arrivals := rest, mem := s.mem.putStores stores }) ∨
      ∃ rest i, exec i { s with arrivals := rest } = .next t := by
  match harr : s.arrivals with
  | [] =>
    rw [step_of_idle harr] at h
    cases h
    exact .inl rfl
  | .guestStores stores :: rest =>
    rw [step_of_guestStores harr] at h
    cases h
    exact .inr (.inl ⟨rest, stores, rfl⟩)
  | .command tr :: rest =>
    match hdec : decode s.cfg tr with
    | .error e => rw [step_of_decodeError harr hdec] at h; cases h
    | .ok i =>
      match hlet : notLetIn s i with
      | some r => rw [step_of_notLetIn harr hdec hlet] at h; cases h
      | none => exact .inr (.inr ⟨rest, i, (stepRunsDecodedCommand s tr rest i harr hdec hlet).symm.trans h⟩)

/-! ### The device after a command -/

/-- `Notify(Out)`, if the header asks for it, is all `OUT_SUBMIT` does to the device (R34). -/
theorem outSubmitDev_eq_notifyIf (s : State) (wanted : Bool) :
    outSubmitDev s.cfg s.dev wanted = (notifyIf wanted .out s).dev := (notifyIf_out_dev wanted s).symm

theorem countedStale_staleCount (p : Params) (d : Device) :
    (countedStale p d).staleCount = if d.live p then d.staleCount + 1 else d.staleCount := by
  unfold countedStale
  split <;> rfl

theorem Device.live_iff {p : Params} {d : Device} :
    d.live p = true ↔ d.inValid = true ∧ d.inHdr.status = p.statusPending := by simp [Device.live]

/-- What a delivery may change: the inbound flag, the line, the cached header and the cursor. -/
theorem deliveredDev.frame {p : Params} {d e : Device} {n : Nat} (h : deliveredDev p d e n) :
    e = { d with
      inPending := e.inPending
      irqLine := e.irqLine
      inHdr := e.inHdr
      curIdx := e.curIdx
      curOff := e.curOff } := by
  rcases h with hd | ⟨c, wanted, hd, rfl⟩
  · rw [hd]
  · rw [hd]; rfl

/-- The cached header after a delivery (R27, R188): as before, or Done with the call's byte count. -/
theorem deliveredDev.inHdr {p : Params} {d e : Device} {n : Nat} (h : deliveredDev p d e n) :
    e.inHdr = d.inHdr ∨
      e.inHdr = { d.inHdr with status := p.statusDone, actualLength := BitVec.ofNat 64 n } := by
  rcases h with hd | ⟨c, wanted, hd, rfl⟩
  · rw [hd]; exact .inl rfl
  · rw [hd]; exact .inr rfl

/-- A delivery never clears the inbound flag. -/
theorem deliveredDev.inPending {p : Params} {d e : Device} {n : Nat} (h : deliveredDev p d e n)
    (hp : d.inPending = true) : e.inPending = true := by
  rcases h with hd | ⟨c, wanted, hd, rfl⟩
  · rw [hd]; exact hp
  · rw [hd]; simp [completedDev, hp]

/-- What a command that answers a next state did to the device's own state, with no regard to the ports. -/
inductive DevChange : Instr → State → State → Prop
  /-- Any command that leaves the device alone. -/
  | kept {i : Instr} {s t : State} (cfg : t.cfg = s.cfg) (dev : t.dev = s.dev) : DevChange i s t
  /-- `OUT_SUBMIT` (R34). -/
  | notified {s t : State} (v : Word64) (w : AccessWidth) (wanted : Bool) (cfg : t.cfg = s.cfg)
      (dev : t.dev = outSubmitDev s.cfg s.dev wanted) : DevChange (.outSubmit v w) s t
  /-- `IN_REGISTER`, completed (R180). -/
  | registered {s t : State} (v : Word64) (w : AccessWidth) (h : Header) (bl : List Buffer) (cfg : t.cfg = s.cfg)
      (bound : h.bufferCount.toNat ≤ Config.maxBuffers) (count : bl.length = h.bufferCount.toNat)
      (dev : t.dev = (countedStale s.cfg s.dev).install v h bl) : DevChange (.inRegister v w) s t
  /-- `ACK` with bit 0 set (R213). -/
  | ackedOut {s : State} (v : Word64) (w : AccessWidth) (h0 : v.getLsbD 0 = true) :
      DevChange (.ack v w) s (acknowledge .out s)
  /-- `ACK` with bit 1 set alone (R213). -/
  | ackedIn {s : State} (v : Word64) (w : AccessWidth) (h0 : v.getLsbD 0 = false) (h1 : v.getLsbD 1 = true) :
      DevChange (.ack v w) s (acknowledge .inn s)
  /-- `DELIVER`, however it ended (R184). -/
  | delivered {s t : State} (d : List Byte) (cfg : t.cfg = s.cfg) (dev : deliveredDev s.cfg s.dev t.dev d.length)
      (inv : s.dev.CursorInv → t.dev.CursorInv) : DevChange (.deliver d) s t
  /-- `RESET`, or `CONSTRUCT` with a backend (R280, R282). -/
  | reset {i : Instr} {s t : State} (cause : i = .reset ∨ ∃ x y z, i = .construct x y z)
      (dev : t.dev = Device.reset) : DevChange i s t

theorem Did.devChange {i : Instr} {s t : State} (h : Did i s t) : DevChange i s t := by
  cases h with
  | outSubmit v w wanted frame _ dev => exact .notified v w wanted frame.cfg dev
  | registered v w h bl frame _ _ bound count dev => exact .registered v w h bl frame.cfg bound count dev
  | notRegistered v w frame _ _ dev => exact .kept frame.cfg dev
  | ackedOut v w h0 => exact .ackedOut v w h0
  | ackedIn v w h0 h1 => exact .ackedIn v w h0 h1
  | delivered d frame _ _ dev inv => exact .delivered d frame.cfg dev inv
  | notDelivered d frame _ _ dev inv => exact .delivered d frame.cfg dev.delivered inv
  | reset => exact .reset (.inl rfl) rfl
  | constructed tag mode b => exact .reset (.inr ⟨tag, mode, some b, rfl⟩) rfl
  | ackedNone | nopWr | tagReadLow | tagReadMid | tagReadHigh | rdZero | capacity | notConstructed =>
    exact .kept rfl rfl

theorem devChange_of_next {i : Instr} {s t : State} (h : exec i s = .next t) : DevChange i s t :=
  (did_of_next h).devChange

/-! ### The invariant -/

/-- Every command keeps the registration part of the invariant (R42 a to e, R30, R31). -/
theorem DevChange.cursorInv {i : Instr} {s t : State} (h : DevChange i s t) (hi : s.dev.CursorInv) :
    t.dev.CursorInv := by
  cases h with
  | kept _ dev => rw [dev]; exact hi
  | notified v w wanted _ dev => rw [dev]; exact hi.congr rfl rfl rfl rfl rfl rfl rfl
  | registered v w h bl _ bound count dev => rw [dev]; exact .installed bound count
  | ackedOut | ackedIn => rw [acknowledge_dev]; exact hi.congr rfl rfl rfl rfl rfl rfl rfl
  | delivered d _ _ inv => exact inv hi
  | reset _ dev => rw [dev]; exact Device.reset_cursorInv

theorem LineInv.reset (p : Params) : LineInv p Device.reset := ⟨fun _ => rfl, fun _ _ => rfl⟩

/-- Every command keeps the line's part of the invariant (R42 f, g; R24). -/
theorem DevChange.lineInv {i : Instr} {s t : State} (h : DevChange i s t) (hi : LineInv s.cfg s.dev) :
    LineInv t.cfg t.dev := by
  cases h with
  | kept cfg dev => rw [cfg, dev]; exact hi
  | notified v w wanted cfg dev => rw [cfg, dev, outSubmitDev_eq_notifyIf]; exact hi.notifyIf wanted .out
  | registered v w h bl cfg _ _ dev =>
    rw [cfg, dev, countedStale_eq]
    exact ⟨hi.messageLow, hi.levelIsOr⟩
  | ackedOut => rw [acknowledge_cfg]; exact hi.acknowledge .out
  | ackedIn => rw [acknowledge_cfg]; exact hi.acknowledge .inn
  | delivered d cfg dev _ => rw [cfg]; exact hi.delivered dev
  | reset _ dev => rw [dev]; exact .reset t.cfg

/-- Every command keeps the canonical form of memory. -/
theorem Did.mem_wf {i : Instr} {s t : State} (h : Did i s t) (hm : s.mem.wf = true) : t.mem.wf = true := by
  cases h with
  | outSubmit _ _ _ frame | registered _ _ _ _ frame | notRegistered _ _ frame | delivered _ frame
  | notDelivered _ frame => exact frame.memory hm
  | ackedOut | ackedIn => rw [acknowledge_mem]; exact hm
  | ackedNone | nopWr | tagReadLow | tagReadMid | tagReadHigh | rdZero | capacity | reset | constructed
  | notConstructed => exact hm

theorem exec_keeps_inv {i : Instr} {s t : State} (hi : s.Inv) (h : exec i s = .next t) : t.Inv where
  cursor := (devChange_of_next h).cursorInv hi.cursor
  line := (devChange_of_next h).lineInv hi.line
  memory := (did_of_next h).mem_wf hi.memory

/-- Settles O60: an idle step changes nothing, guest stores keep the canonical form, and every command keeps each part
of the invariant. -/
theorem stepKeepsInvariant : Obligations.StepKeepsInvariant := by
  intro s t hi h
  rcases step_next_cases h with rfl | ⟨rest, stores, rfl⟩ | ⟨rest, i, he⟩
  · exact hi
  · exact ⟨hi.cursor, hi.line, Memory.wf_putStores hi.memory⟩
  · have hr : ({ s with arrivals := rest } : State).Inv := ⟨hi.cursor, hi.line, hi.memory⟩
    exact exec_keeps_inv hr he

theorem State.resetWith_inv (p : Params) (b : Option Endpoint) : (State.resetWith p b).Inv :=
  ⟨Device.reset_cursorInv, .reset p, rfl⟩

/-- Settles O59. -/
theorem resetMeetsInvariant : Obligations.ResetMeetsInvariant :=
  ⟨State.resetWith_inv, State.resetWith_inv _ _⟩

/-! ### Which command changes which register -/

/-- Settles O25: what the command left of the device is `Notify(Out)`, asked for or not. -/
theorem outSubmitOnlyNotifies : Obligations.OutSubmitOnlyNotifies := by
  intro s t a w h
  cases did_of_next h with
  | outSubmit _ _ wanted frame _ dev =>
    refine ⟨?_, frame.cfg, frame.backend, frame.arrivals⟩
    rw [dev, outSubmitDev_eq_notifyIf]
    cases wanted
    · exact .inl rfl
    · exact .inr rfl

/-- A flag that keeps its value is neither set nor cleared. -/
theorem flag_kept {a b : Bool} {P Q : Prop} (h : b = a) :
    (a = false → b = true → P) ∧ (a = true → b = false → Q) := by
  subst h
  cases b <;> simp

/-- Settles O48: only a submission sets the flag; the acknowledge of the other direction and a delivery keep it. -/
theorem outPendingChangesOnlyByRule : Obligations.OutPendingChangesOnlyByRule := by
  intro i s t h
  cases devChange_of_next h with
  | kept _ dev => exact flag_kept (by rw [dev])
  | notified v w wanted _ dev =>
    exact ⟨fun _ _ => ⟨v, w, rfl⟩, fun h1 h0 => by simp [dev, outSubmitDev, h1] at h0⟩
  | registered v w h bl _ _ _ dev => exact flag_kept (by rw [dev, countedStale_eq]; rfl)
  | ackedOut v w h0 =>
    have clear : (acknowledge .out s).dev.outPending = false := by rw [acknowledge_dev]; rfl
    exact ⟨fun _ h1 => by simp [clear] at h1, fun _ _ => .inl ⟨v, w, rfl, h0⟩⟩
  | ackedIn => exact flag_kept (by rw [acknowledge_dev]; rfl)
  | delivered d _ dev _ => exact flag_kept (by rw [dev.frame])
  | reset cause dev => exact ⟨fun _ h1 => by simp [dev, Device.reset] at h1, fun _ _ => .inr cause⟩

/-- Settles O49: only a delivery sets the flag, and none clears it; the acknowledge of the other direction keeps it. -/
theorem inPendingChangesOnlyByRule : Obligations.InPendingChangesOnlyByRule := by
  intro i s t h
  cases devChange_of_next h with
  | kept _ dev => exact flag_kept (by rw [dev])
  | notified v w wanted _ dev => exact flag_kept (by rw [dev]; rfl)
  | registered v w h bl _ _ _ dev => exact flag_kept (by rw [dev, countedStale_eq]; rfl)
  | ackedOut => exact flag_kept (by rw [acknowledge_dev]; rfl)
  | ackedIn v w h0 h1 =>
    have clear : (acknowledge .inn s).dev.inPending = false := by rw [acknowledge_dev]; rfl
    exact ⟨fun _ hs => by simp [clear] at hs, fun _ _ => .inl ⟨v, w, rfl, h0, h1⟩⟩
  | delivered d _ dev _ => exact ⟨fun _ _ => ⟨d, rfl⟩, fun h1 h0 => by simp [dev.inPending h1] at h0⟩
  | reset cause dev => exact ⟨fun _ h1 => by simp [dev, Device.reset] at h1, fun _ _ => .inr cause⟩

/-- Settles O50: a completed registration sets it, and only the reset state has it clear again. -/
theorem inValidChangesOnlyByRule : Obligations.InValidChangesOnlyByRule := by
  intro i s t h
  cases devChange_of_next h with
  | kept _ dev => exact flag_kept (by rw [dev])
  | notified v w wanted _ dev => exact flag_kept (by rw [dev]; rfl)
  | registered v w h bl _ _ _ dev => exact ⟨fun _ _ => ⟨v, w, rfl⟩, fun _ h0 => by simp [dev] at h0⟩
  | ackedOut | ackedIn => exact flag_kept (by rw [acknowledge_dev]; rfl)
  | delivered d _ dev _ => exact flag_kept (by rw [dev.frame])
  | reset cause dev => exact ⟨fun _ h1 => by simp [dev, Device.reset] at h1, fun _ _ => cause⟩

/-- Settles O51: a delivery completes the cached header, no other of these commands touches the registration. -/
theorem registrationChangesOnlyByRule : Obligations.RegistrationChangesOnlyByRule := by
  intro i s t h notRegister notReset notConstruct
  cases devChange_of_next h with
  | kept _ dev => rw [dev]; exact ⟨rfl, rfl, rfl, rfl, rfl, .inl rfl⟩
  | notified v w wanted _ dev => rw [dev]; exact ⟨rfl, rfl, rfl, rfl, rfl, .inl rfl⟩
  | registered v w => exact absurd rfl (notRegister v w)
  | ackedOut | ackedIn => rw [acknowledge_dev]; exact ⟨rfl, rfl, rfl, rfl, rfl, .inl rfl⟩
  | delivered d _ dev _ =>
    have ha : t.dev.inDescAddr = s.dev.inDescAddr := by rw [dev.frame]
    have hb : t.dev.inBuf = s.dev.inBuf := by rw [dev.frame]
    have hc : t.dev.totalCapacity = s.dev.totalCapacity := by rw [dev.frame]
    rcases dev.inHdr with hh | hh
    · exact ⟨ha, by rw [hh], by rw [hh], hb, hc, .inl hh⟩
    · exact ⟨ha, by rw [hh], by rw [hh], hb, hc, .inr ⟨d, rfl, by rw [hh], by rw [hh]⟩⟩
  | reset cause _ => exact (cause.elim notReset fun ⟨x, y, z, hi⟩ => notConstruct x y z hi).elim

/-- Settles O52: only a completed registration touches the count, by `countStale`. -/
theorem staleCountCountsReplacements : Obligations.StaleCountCountsReplacements := by
  intro i s t h notReset notConstruct
  cases devChange_of_next h with
  | kept _ dev => exact .inl (by rw [dev])
  | notified v w wanted _ dev => exact .inl (by rw [dev]; rfl)
  | registered v w h bl _ _ _ dev =>
    rw [dev, Device.install_staleCount, countedStale_staleCount]
    split
    · next live =>
      obtain ⟨valid, pending⟩ := Device.live_iff.mp live
      exact .inr ⟨⟨v, w, rfl⟩, valid, pending, rfl⟩
    · exact .inl rfl
  | ackedOut | ackedIn => exact .inl (by rw [acknowledge_dev]; exact Device.setPending_staleCount _ _ _)
  | delivered d _ dev _ => exact .inl (by rw [dev.frame])
  | reset cause _ => exact (cause.elim notReset fun ⟨x, y, z, hi⟩ => notConstruct x y z hi).elim

/-! ### Register reads -/

/-- What a register read at this start offset returns (R93, R123, R230): a tag byte in the tag window, else 0. -/
def readValue (p : Params) (offset : Word64) : Word64 :=
  if 0x10 ≤ offset.toNat ∧ offset.toNat < 0x50 then tagByte p (offset.toNat - 0x10) else 0

theorem readValue_inside {p : Params} {offset : Word64} (h : 0x10 ≤ offset.toNat ∧ offset.toNat < 0x50) :
    readValue p offset = tagByte p (offset.toNat - 0x10) := if_pos h

theorem readValue_outside {p : Params} {offset : Word64} (h : ¬ (0x10 ≤ offset.toNat ∧ offset.toNat < 0x50)) :
    readValue p offset = 0 := if_neg h

/-- Whichever row is hit, a read returns the value of its start offset and changes nothing (R69, R93). -/
theorem exec_decodeRead (p : Params) (s : State) (offset : Word64) (w : AccessWidth) :
    exec (decodeRead p offset w) s = .next (returnRead (readValue s.cfg offset) s) := by
  rw [decodeRead_eq]
  split
  · have index : (offset.setWidth 4).toNat = offset.toNat - 0x10 := by simp only [BitVec.toNat_setWidth]; omega
    rw [readValue_inside (by omega), ← index]; rfl
  split
  · have index : 0x10 + (offset.setWidth 5).toNat = offset.toNat - 0x10 := by
      simp only [BitVec.toNat_setWidth]; omega
    rw [readValue_inside (by omega), ← index]; rfl
  split
  · have index : s.cfg.tagWindow.val - 0x10 + (offset.setWidth 4).toNat = offset.toNat - 0x10 := by
      simp only [Given.val_eq, Config.tagWindow, BitVec.toNat_setWidth]; omega
    rw [readValue_inside (by omega), ← index]; rfl
  · rw [readValue_outside (by omega)]; rfl

theorem tagByte_lt (p : Params) (i : Nat) : (tagByte p i).toNat < 256 := by
  have := (p.tag.getD i 0).isLt
  simp only [tagByte, BitVec.toNat_setWidth]
  omega

theorem readValue_lt (p : Params) (offset : Word64) : (readValue p offset).toNat < 256 := by
  unfold readValue
  split
  · exact tagByte_lt p _
  · decide

/-- The value depends on the tag alone. -/
theorem readValue_congr {p q : Params} (h : p.tag = q.tag) (offset : Word64) :
    readValue p offset = readValue q offset := by
  simp only [readValue, tagByte, h]

/-- Settles O18: both runs answer the value the tag gives at the offset. -/
theorem readsRevealOnlyTheTag : Obligations.ReadsRevealOnlyTheTag := by
  intro s₁ s₂ offset w htag
  refine ⟨readValue s₁.cfg offset, readValue_lt _ _, exec_decodeRead _ s₁ offset w, ?_⟩
  rw [readValue_congr htag]
  exact exec_decodeRead _ s₂ offset w

end Sys2Proof.Machine
end

section
/-! SUPPORT. Proofs of the statements of spec/20_memory.md: what `MemRead` and `MemWrite` do at each turn of `M` (R66,
R74), which commands reach guest memory (R62), the outbound stream and the record (R63, R73), the order of an outbound
command's accesses (R67, R72), and descriptors past the address space (R66, R144). -/

namespace Sys2Proof.Machine

/-! ### Guest memory as data -/

theorem Memory.bytesAt_putBytes_same {m : Memory} {a : Nat} {v : List Byte} (hm : m.wf = true)
    (hr : a + v.length ≤ addressSpace) : (m.putBytes a v).bytesAt a v.length = v := by
  induction v generalizing m a with
  | nil => rfl
  | cons b rest ih =>
    rw [List.length_cons] at hr
    have first : (m.putBytes a (b :: rest)).byteAt a = b := by
      rw [Memory.putBytes, Memory.byteAt_putBytes_other _ (by omega), Memory.byteAt_put_same b hm]
    have others : (m.putBytes a (b :: rest)).bytesAt (a + 1) rest.length = rest :=
      ih (Memory.wf_put b (by omega) hm) (by omega)
    rw [List.length_cons, Memory.bytesAt, first, others]

/-- Settles O11: the read-back by induction on the bytes written. -/
theorem memoryReadsWhatWasWritten : Obligations.MemoryReadsWhatWasWritten := fun m _ _ hm hr =>
  ⟨Memory.bytesAt_putBytes_same hm hr, Memory.wf_putBytes hr hm, fun _ => Memory.byteAt_putBytes_other m⟩

/-! ### `MemRead` and `MemWrite` at each turn of `M` -/

theorem takeMemTurn_of_nil {s : State} (h : s.memTurns = []) : takeMemTurn s = (MemTurn.quiet, s) := by
  simp [takeMemTurn, h]

theorem takeMemTurn_of_cons {s : State} {t : MemTurn} {rest : List MemTurn} (h : s.memTurns = t :: rest) :
    takeMemTurn s = (t, { s with memTurns := rest, mem := s.mem.putStores t.guestStores }) := by
  simp [takeMemTurn, h]

theorem memRead_past {addr n : Nat} (h : addressSpace < addr + n) (s : State) : memRead addr n s = .done none s := by
  simp [memRead, h]

theorem memWrite_past {addr : Nat} {v : List Byte} (h : addressSpace < addr + v.length) (s : State) :
    memWrite addr v s = .done false s := by
  simp [memWrite, h]

section turn
variable {s u : State} {t : MemTurn} (ht : takeMemTurn s = (t, u))
include ht

theorem memRead_of_grants {addr n : Nat} (hr : addr + n ≤ addressSpace) (hv : t.verdict = .grants) :
    memRead addr n s = .done (some (u.mem.seenBytes t.seen addr n))
      (u.record (.memRead addr n (some (u.mem.seenBytes t.seen addr n)))) := by
  simp [memRead, Nat.not_lt.mpr hr, ht, hv]

theorem memRead_of_refuses {addr n : Nat} (hr : addr + n ≤ addressSpace) (hv : t.verdict = .refuses) :
    memRead addr n s = .done none (u.record (.memRead addr n none)) := by
  simp [memRead, Nat.not_lt.mpr hr, ht, hv]

theorem memRead_of_never {addr n : Nat} (hr : addr + n ≤ addressSpace) (hv : t.verdict = .never) :
    memRead addr n s = .stuck .memoryNeverAnswers := by
  simp [memRead, Nat.not_lt.mpr hr, ht, hv]

theorem memWrite_of_grants {addr : Nat} {v : List Byte} (hr : addr + v.length ≤ addressSpace)
    (hv : t.verdict = .grants) :
    memWrite addr v s = .done true ({ u with mem := u.mem.putBytes addr v }.record (.memWrite addr v true)) := by
  simp [memWrite, Nat.not_lt.mpr hr, ht, hv]

theorem memWrite_of_refuses {addr : Nat} {v : List Byte} (hr : addr + v.length ≤ addressSpace)
    (hv : t.verdict = .refuses) : memWrite addr v s = .done false
      ({ u with mem := u.mem.putSome u.freeDraws 0 addr v, freeDraws := u.freeDraws + 1 }.record
        (.memWrite addr v false)) := by
  simp [memWrite, Nat.not_lt.mpr hr, ht, hv]

theorem memWrite_of_never {addr : Nat} {v : List Byte} (hr : addr + v.length ≤ addressSpace)
    (hv : t.verdict = .never) : memWrite addr v s = .stuck .memoryNeverAnswers := by
  simp [memWrite, Nat.not_lt.mpr hr, ht, hv]

end turn

/-- A byte of a read that no store races is the byte memory holds (R74). -/
theorem Memory.getElem?_seenBytes_not_raced (m : Memory) {seen : Stores} {addr n k : Nat} (hk : k < n)
    (h : ∀ c ∈ seen, c.1.toNat ≠ addr + k) : (m.seenBytes seen addr n)[k]? = some (m.byteAt (addr + k)) := by
  rw [Memory.getElem?_seenBytes m seen addr hk, Memory.seenAt_not_raced m h]

/-- Settles O12: an empty list of turns is a quiet one; a granted read answers the bytes seen. -/
theorem memReadAsRuled : Obligations.MemReadAsRuled := by
  intro s addr n
  refine ⟨fun h => memRead_past h s, fun hr hnil => ?_, fun hr t rest hcons => ⟨fun hv => ?_, fun hv => ?_, fun hv => ?_⟩⟩
  · rw [← Memory.seenBytes_nil]
    exact memRead_of_grants (takeMemTurn_of_nil hnil) hr rfl
  · exact memRead_of_refuses (takeMemTurn_of_cons hcons) hr hv
  · exact ⟨_, Memory.length_seenBytes _ _ _ _, fun k => Memory.getElem?_seenBytes_not_raced _,
      memRead_of_grants (takeMemTurn_of_cons hcons) hr hv⟩
  · exact memRead_of_never (takeMemTurn_of_cons hcons) hr hv

/-- An address outside a range lies below or above it. -/
theorem lt_or_le_of_not_inRange {a n x : Nat} (h : ¬ inRange a n x) : x < a ∨ a + n ≤ x := by
  unfold inRange at h
  omega

/-- Settles O13: a refused write stores some of its bytes and nothing else. -/
theorem memWriteAsRuled : Obligations.MemWriteAsRuled := by
  intro s addr v hm
  refine ⟨fun h => memWrite_past h s, fun hr hnil => ?_, fun hr t rest hcons => ⟨fun hv => ?_, fun hv => ?_, fun hv => ?_⟩⟩
  · exact memWrite_of_grants (takeMemTurn_of_nil hnil) hr rfl
  · exact memWrite_of_grants (takeMemTurn_of_cons hcons) hr hv
  · exact ⟨_, memWrite_of_refuses (takeMemTurn_of_cons hcons) hr hv, rfl,
      fun x hx => Memory.byteAt_putSome_other _ (lt_or_le_of_not_inRange hx),
      fun k b => Memory.byteAt_putSome (Memory.wf_putStores hm) _ _ _ hr⟩
  · exact memWrite_of_never (takeMemTurn_of_cons hcons) hr hv

/-! ### Which commands reach guest memory -/

/-- Settles O19: an acknowledge records at most a change of the line, the reads and `CAPQ` their answer, the others
nothing. -/
theorem quietCommandsTouchNoMemory : Obligations.QuietCommandsTouchNoMemory := by
  intro i s t notOutSubmit notInRegister notDeliver h
  cases did_of_next h with
  | outSubmit v w => exact absurd rfl (notOutSubmit v w)
  | registered v w | notRegistered v w => exact absurd rfl (notInRegister v w)
  | delivered d | notDelivered d => exact absurd rfl (notDeliver d)
  | ackedOut | ackedIn =>
    obtain ⟨es, hh, edges⟩ := acknowledge_history _ s
    refine ⟨acknowledge_mem _ s, acknowledge_outStream _ s, acknowledge_memTurns _ s, acknowledge_beTurns _ s, es, hh,
      fun e he => ?_⟩
    obtain ⟨b, rfl, -⟩ := edges e he
    rfl
  | ackedNone | nopWr | reset | constructed =>
    exact ⟨rfl, rfl, rfl, rfl, [], (List.append_nil _).symm, List.forall_mem_nil _⟩
  | tagReadLow | tagReadMid | tagReadHigh | rdZero | capacity | notConstructed =>
    exact ⟨rfl, rfl, rfl, rfl, [_], rfl, List.forall_mem_singleton.mpr rfl⟩

/-! ### The outbound stream and the record -/

theorem GoesOn.logged {s t : State} (h : GoesOn s t) : ∃ es, Logged s t es :=
  let ⟨es, hl, _⟩ := h
  ⟨es, hl⟩

theorem EndsIn.logged {s t : State} (h : EndsIn s t) : ∃ es, Logged s t es :=
  let ⟨_, _, hl, _⟩ := h
  ⟨_, hl⟩

/-- One event that pushes nothing. -/
theorem Logged.record (s : State) {e : Event} (hp : e.pushed = []) : Logged s (s.record e) [e] :=
  ⟨rfl, by simp [hp]⟩

theorem acknowledge_logged (dir : Direction) (s : State) : ∃ es, Logged s (acknowledge dir s) es := by
  obtain ⟨es, hh, edges⟩ := acknowledge_history dir s
  have silent : es.flatMap Event.pushed = [] := List.flatMap_eq_nil_iff.mpr fun e he => by
    obtain ⟨b, rfl, -⟩ := edges e he
    rfl
  exact ⟨es, hh, by rw [silent, acknowledge_outStream, List.append_nil]⟩

/-- Whatever a command did, the record grew, and the stream by what the new events push (R63, R73). -/
theorem Did.logged {i : Instr} {s t : State} (h : Did i s t) : ∃ es, Logged s t es := by
  cases h with
  | outSubmit _ _ _ _ logged => exact logged.elim GoesOn.logged EndsIn.logged
  | registered _ _ _ _ _ logged | notRegistered _ _ _ logged | delivered _ _ logged | notDelivered _ _ logged =>
    exact logged.logged
  | ackedOut | ackedIn => exact acknowledge_logged _ s
  | ackedNone | nopWr | reset | constructed => exact ⟨[], (Logged.refl s).congr rfl rfl⟩
  | tagReadLow | tagReadMid | tagReadHigh | rdZero | capacity => exact ⟨_, Logged.record s rfl⟩
  | notConstructed => exact ⟨_, (Logged.record s (e := .constructionFailed) rfl).congr rfl rfl⟩

/-- Settles O54: the events of a command are determined by the two records. -/
theorem outboundStreamIsWhatWasWritten : Obligations.OutboundStreamIsWhatWasWritten := by
  intro i s t es h hh
  obtain ⟨fs, hf, ho⟩ := (did_of_next h).logged
  rw [List.append_cancel_left (hh.symm.trans hf)]
  exact ho

/-- Settles O56: an idle step and guest stores record nothing, a command adds its events. -/
theorem recordOnlyGrows : Obligations.RecordOnlyGrows := by
  intro s t h
  rcases step_next_cases h with rfl | ⟨rest, stores, rfl⟩ | ⟨rest, i, ran⟩
  · exact List.prefix_rfl
  · exact List.prefix_rfl
  · obtain ⟨es, hh, -⟩ := (did_of_next ran).logged
    exact ⟨es, hh.symm⟩

/-! ### The order of an outbound command -/

theorem State.SglFetchable.header_fits {s : State} {a : Word64} (h : s.SglFetchable a) :
    a.toNat + s.cfg.hdrBytes ≤ addressSpace := by
  obtain ⟨-, hf⟩ := h
  unfold fitsSpace at hf
  omega

/-- The machine after the fetch and all chunks on quiet ports, with `Notify(Out)` done if the header asks (R163). -/
def State.notifiedOut (s : State) (a : Word64) : State :=
  notifyIf (notifyRequested s.cfg (s.headerAt a).notifyFlags) .out (s.afterChunks a (s.chunksAt a).length)

/-- `OUT_SUBMIT` on quiet ports: fetch, chunks, notification, and last the header with the status Done (R160). -/
theorem outSubmit_quiet {s : State} {a : Word64} (hq : s.Quiet) (hs : s.SglFetchable a)
    (hf : ∀ c ∈ s.chunksAt a, c.Fits) :
    let bytes := headerBytes s.cfg { s.headerAt a with status := s.cfg.statusDone }
    outSubmit a s = .done () { s.notifiedOut a with
      memTurns := (s.notifiedOut a).memTurns.tail
      mem := (s.notifiedOut a).mem.putBytes a.toNat bytes
      history := (s.notifiedOut a).history ++ [.memWrite a.toNat bytes true] } := by
  obtain ⟨hm, hb⟩ := hq
  have cfg : (s.notifiedOut a).cfg = s.cfg := notifyIf_cfg _ _ _
  have quiet : (s.notifiedOut a).memTurns.headD MemTurn.quiet = MemTurn.quiet := by
    rw [State.notifiedOut, notifyIf_memTurns, State.afterChunks_memTurns]
    exact State.MemQuiet.head (s := s.afterChunks a _) fun t ht => hm t (List.mem_of_mem_drop ht)
  intro bytes
  rw [outSubmit_drained hs hf (Leading.of_all hm _) (Leading.of_all hb _), ← State.notifiedOut, encodeHeader, cfg]
  exact store_granted quiet (by rw [length_headerBytes]; exact hs.header_fits)

theorem notifyRequested_iff {p : Params} {flags : Word32} :
    notifyRequested p flags = true ↔ flags &&& p.notifyMask ≠ 0 := bne_iff_ne

/-- The record before the header write-back: fetch, chunks, and the raise if it is asked for and not coalesced. -/
theorem State.notifiedOut_history (s : State) (a : Word64) : (s.notifiedOut a).history =
    s.history ++ s.fetchEvents a ++ (s.chunksAt a).flatMap s.chunkEvents ++
      (if (s.headerAt a).notifyFlags &&& s.cfg.notifyMask ≠ 0 ∧ s.dev.outPending = false
        then raiseEvents s.cfg.irqMode s.dev.irqLine else []) := by
  rw [State.notifiedOut, notifyIf_history, State.afterChunks_history, List.take_length]
  simp only [notifyRequested_iff]
  rfl

/-- Settles O24. -/
theorem outboundInterruptPrecedesHeaderWrite : Obligations.OutboundInterruptPrecedesHeaderWrite := by
  intro s a w hq hs hf
  refine ⟨_, congrArg Run.outcome (outSubmit_quiet hq hs hf), ?_⟩
  rw [State.notifiedOut_history]

/-! ### Descriptors past the address space -/

/-- An error in the descriptor fetch ends either command that makes one (R144). -/
theorem exec_of_decodeSGL_aborted {s t : State} {a : Word64} (w : AccessWidth) (h : decodeSGL a s = .aborted t) :
    ∀ i ∈ [Instr.outSubmit a w, .inRegister a w], exec i s = .next t := by
  have out : exec (.outSubmit a w) s = .next t := by
    rw [exec, execOutSubmit, outSubmit, h]; rfl
  have inn : exec (.inRegister a w) s = .next t := by
    rw [exec, execInRegister, inRegister, h]; rfl
  exact List.forall_mem_cons.mpr ⟨out, List.forall_mem_singleton.mpr inn⟩

theorem decodeSGL_header_past {s : State} {a : Word64} (h : addressSpace < a.toNat + s.cfg.hdrBytes) :
    decodeSGL a s = .aborted
      { s with history := s.history ++ [.report (.guestAccessFailure a.toNat s.cfg.hdrBytes)] } := by
  rw [decodeSGL, fetch_past h]
  rfl

theorem decodeSGL_list_past {s : State} {a : Word64} (hq : s.MemQuiet) (hfit : fitsSpace a.toNat s.cfg.hdrBytes)
    (hmax : (s.headerAt a).bufferCount.toNat ≤ Config.maxBuffers) (hne : (s.headerAt a).bufferCount.toNat ≠ 0)
    (hpast : addressSpace < a.toNat + s.cfg.hdrBytes + Config.bufBytes * (s.headerAt a).bufferCount.toNat) :
    decodeSGL a s = .aborted { s with
      memTurns := s.memTurns.tail
      history := s.history ++ [.memRead a.toNat s.cfg.hdrBytes (some (s.mem.bytesAt a.toNat s.cfg.hdrBytes)),
        .report (.guestAccessFailure (a.toNat + s.cfg.hdrBytes)
          (Config.bufBytes * (s.headerAt a).bufferCount.toNat))] } := by
  have header : decodeHeader s.cfg (s.mem.bytesAt a.toNat s.cfg.hdrBytes) = s.headerAt a := rfl
  rw [decodeSGL, fetch_granted hq.head hfit]
  simp only [Run.done_andThen, header, Given.val_eq]
  rw [if_neg (Nat.not_lt.mpr hmax), fetchList, if_neg hne]
  simp only [Given.val_eq]
  rw [fetch_past hpast]
  simp

/-- Settles O29: the fetch of the header, or that of the list, is not attempted. -/
theorem descriptorPastAddressSpaceFails : Obligations.DescriptorPastAddressSpaceFails := fun _ _ w i hi =>
  ⟨fun hpast => exec_of_decodeSGL_aborted w (decodeSGL_header_past hpast) i hi,
    fun hq hfit hmax hpast hne => exec_of_decodeSGL_aborted w (decodeSGL_list_past hq hfit hmax hne hpast) i hi⟩

end Sys2Proof.Machine
end

section
/-! SUPPORT. Proofs of the statements of spec/30_encoding.md: the two round trips between commands and transaction tuples
(R90 to R93, R101, R102, R105), the dispatch by start offset (R93), the layout of header and buffer list (R96, R97), and
what a step refuses (R103, R104). -/

namespace Sys2Proof

/-! ### Register writes -/

/-- The command a register write at this start offset is (R93, R120). -/
inductive WriteAt (value : Word64) (width : AccessWidth) : Word64 → Instr → Prop
  | outSubmit : WriteAt value width 0x00 (.outSubmit value width)
  | inRegister : WriteAt value width 0x08 (.inRegister value width)
  | ack : WriteAt value width 0x10 (.ack value width)
  | nopWr {offset : Word64} (notOut : offset ≠ 0x00) (notIn : offset ≠ 0x08) (notAck : offset ≠ 0x10) :
      WriteAt value width offset (.nopWr offset value width)

theorem writeAt_decodeWrite (p : Params) (offset value : Word64) (w : AccessWidth) :
    WriteAt value w offset (decodeWrite p offset value w) := by
  rw [decodeWrite_eq]
  split
  · next h => subst h; exact .outSubmit
  split
  · next h => subst h; exact .inRegister
  split
  · next h => subst h; exact .ack
  · next notOut notIn notAck => exact .nopWr notOut notIn notAck

/-- The command registers are the three offsets of R36. -/
theorem isCommandRegister_eq_false {p : Params} {offset : Word64} :
    isCommandRegister p offset = false ↔ offset ≠ 0x00 ∧ offset ≠ 0x08 ∧ offset ≠ 0x10 := by
  simp [isCommandRegister, and_assoc]

section writeAt
variable {p : Params} {offset value : Word64} {w : AccessWidth} {i : Instr} (h : WriteAt value w offset i)
include h

theorem decodeWrite_of_writeAt : decodeWrite p offset value w = i := by
  rw [decodeWrite_eq]
  cases h with
  | outSubmit | inRegister | ack => rfl
  | nopWr notOut notIn notAck => rw [if_neg notOut, if_neg notIn, if_neg notAck]

theorem WriteAt.encode_eq : encode p i = .mmioWr offset value w.bytes := by
  cases h with
  | outSubmit => rw [encode, rowOutSubmit_eq]
  | inRegister => rw [encode, rowInRegister_eq]
  | ack => rw [encode, rowAck_eq]
  | nopWr => rfl

theorem WriteAt.wf_eq : i.wf p = (inRegion p offset && valueFits value w) := by
  cases h with
  | outSubmit | inRegister | ack => simp only [Instr.wf, Given.val_eq]
  | nopWr notOut notIn notAck => simp [Instr.wf, isCommandRegister_eq_false.mpr ⟨notOut, notIn, notAck⟩]

end writeAt

/-! ### Register reads -/

/-- The command a register read at this start offset is (R93, R121), its tag index counted from the row's first
offset (R107). -/
inductive ReadAt (width : AccessWidth) (offset : Word64) : Instr → Prop
  | low (index : BitVec 4) (start : offset.toNat = 0x10 + index.toNat) : ReadAt width offset (.tagReadLow index width)
  | mid (index : BitVec 5) (start : offset.toNat = 0x20 + index.toNat) : ReadAt width offset (.tagReadMid index width)
  | high (index : BitVec 4) (start : offset.toNat = 0x40 + index.toNat) : ReadAt width offset (.tagReadHigh index width)
  | zero (outside : ¬ (0x10 ≤ offset.toNat ∧ offset.toNat < 0x50)) : ReadAt width offset (.rdZero offset width)

theorem readAt_decodeRead (p : Params) (offset : Word64) (w : AccessWidth) :
    ReadAt w offset (decodeRead p offset w) := by
  rw [decodeRead_eq]
  split
  · exact .low _ (by simp only [BitVec.toNat_setWidth]; omega)
  split
  · exact .mid _ (by simp only [BitVec.toNat_setWidth]; omega)
  split
  · exact .high _ (by simp only [BitVec.toNat_setWidth]; omega)
  · exact .zero (by omega)

/-- The tag window is the 64 offsets of R40. -/
theorem inTagWindow_eq_false {p : Params} {offset : Word64} :
    inTagWindow p offset = false ↔ ¬ (0x10 ≤ offset.toNat ∧ offset.toNat < 0x50) := by
  simp [inTagWindow, Config.tagWindow]

/-- The low bits of an offset are the index, if the row starts at a multiple of the row's length. -/
theorem setWidth_eq_index {n base : Nat} {offset : Word64} {index : BitVec n}
    (start : offset.toNat = 2 ^ n * base + index.toNat) : offset.setWidth n = index := by
  apply BitVec.eq_of_toNat_eq
  rw [BitVec.toNat_setWidth, start, Nat.mul_add_mod, Nat.mod_eq_of_lt index.isLt]

/-- The offset `index` places after the start of a row that ends inside 64 bits. -/
theorem toNat_add_index {n : Nat} (base : Word64) (index : BitVec n) (h : base.toNat + 2 ^ n ≤ 2 ^ 64) :
    (base + index.setWidth 64).toNat = base.toNat + index.toNat := by
  have := index.isLt
  rw [BitVec.toNat_add, BitVec.toNat_setWidth, Nat.mod_eq_of_lt (a := index.toNat) (by omega),
    Nat.mod_eq_of_lt (by omega)]

/-- The offset a row's encoding names is the one its index is counted to. -/
theorem add_index_eq {n : Nat} {base offset : Word64} {index : BitVec n}
    (start : offset.toNat = base.toNat + index.toNat) (h : base.toNat + 2 ^ n ≤ 2 ^ 64) :
    base + index.setWidth 64 = offset :=
  BitVec.eq_of_toNat_eq ((toNat_add_index base index h).trans start.symm)

section readAt
variable {p : Params} {offset : Word64} {w : AccessWidth} {i : Instr} (h : ReadAt w offset i)
include h

theorem decodeRead_of_readAt : decodeRead p offset w = i := by
  rw [decodeRead_eq]
  cases h with
  | low index start =>
    have := index.isLt
    rw [if_pos (by omega), setWidth_eq_index (base := 1) start]
  | mid index start =>
    have := index.isLt
    rw [if_neg (by omega), if_pos (by omega), setWidth_eq_index (base := 1) start]
  | high index start =>
    have := index.isLt
    rw [if_neg (by omega), if_neg (by omega), if_pos (by omega), setWidth_eq_index (base := 4) start]
  | zero outside => rw [if_neg (by omega), if_neg (by omega), if_neg (by omega)]

theorem ReadAt.encode_eq : encode p i = .mmioRd offset w.bytes := by
  cases h with
  | low index start => rw [encode, rowTagReadLow_eq, add_index_eq start (by decide)]
  | mid index start => rw [encode, rowTagReadMid_eq, add_index_eq start (by decide)]
  | high index start => rw [encode, rowTagReadHigh_eq, add_index_eq start (by decide)]
  | zero => rfl

theorem ReadAt.wf_eq : i.wf p = inRegion p offset := by
  cases h with
  | low index start | mid index start | high index start =>
    simp [Instr.wf, inRegion, start, Config.tagWindow, ← Nat.add_assoc]
  | zero outside => simp [Instr.wf, inTagWindow_eq_false.mpr outside]

/-- The tag index counts from the first offset of the tag window (R93, R230). -/
theorem ReadAt.tagIndex_of_inside (inside : 0x10 ≤ offset.toNat ∧ offset.toNat < 0x50) :
    i.tagIndex = some (offset.toNat - 0x10) := by
  cases h with
  | low index start | mid index start | high index start =>
    simp only [Instr.tagIndex, Config.tagWindow, start, Option.some.injEq]
    omega
  | zero outside => exact absurd inside outside

theorem ReadAt.eq_rdZero_of_outside (outside : ¬ (0x10 ≤ offset.toNat ∧ offset.toNat < 0x50)) :
    i = .rdZero offset w := by
  cases h with
  | low index start | mid index start | high index start =>
    have := index.isLt
    omega
  | zero => rfl

end readAt

/-! ### The decoder -/

/-- A register write decodes exactly if its width is admitted, its offset lies in the region and its value fits. -/
theorem decode_mmioWr_iff {p : Params} {offset value : Word64} {n : Nat} {i : Instr} :
    decode p (.mmioWr offset value n) = .ok i ↔
      ∃ w : AccessWidth, w.bytes = n ∧ (inRegion p offset && valueFits value w) = true ∧ WriteAt value w offset i := by
  constructor
  · intro h
    match hw : admittedWidth n with
    | none => simp [decode, hw] at h
    | some w =>
      simp only [decode, hw] at h
      split at h
      · cases h
      split at h
      · cases h
      cases h
      next region fits => exact ⟨w, bytes_of_admittedWidth hw, by simp_all, writeAt_decodeWrite p offset value w⟩
  · rintro ⟨w, rfl, admitted, command⟩
    obtain ⟨region, fits⟩ := Bool.and_eq_true_iff.mp admitted
    simp [decode, admittedWidth_bytes, region, fits, decodeWrite_of_writeAt command]

/-- A register read decodes exactly if its width is admitted and its offset lies in the region. -/
theorem decode_mmioRd_iff {p : Params} {offset : Word64} {n : Nat} {i : Instr} :
    decode p (.mmioRd offset n) = .ok i ↔
      ∃ w : AccessWidth, w.bytes = n ∧ inRegion p offset = true ∧ ReadAt w offset i := by
  constructor
  · intro h
    match hw : admittedWidth n with
    | none => simp [decode, hw] at h
    | some w =>
      simp only [decode, hw] at h
      split at h
      · cases h
      cases h
      next region => exact ⟨w, bytes_of_admittedWidth hw, by simpa using region, readAt_decodeRead p offset w⟩
  · rintro ⟨w, rfl, region, command⟩
    simp [decode, admittedWidth_bytes, region, decodeRead_of_readAt command]

/-- A delivery decodes exactly if its length fits the wire type `size` (R101). -/
theorem decode_beData_iff {p : Params} {bytes : List Byte} {i : Instr} :
    decode p (.beData bytes) = .ok i ↔ deliveryFits p bytes = true ∧ i = .deliver bytes := by
  cases fits : deliveryFits p bytes with
  | false => simp [decode, fits]
  | true => simp [decode, fits, eq_comm]

theorem WriteAt.decode_encode {p : Params} {offset value : Word64} {w : AccessWidth} {i : Instr}
    (h : WriteAt value w offset i) (hwf : i.wf p = true) : decode p (encode p i) = .ok i := by
  rw [h.encode_eq]
  exact decode_mmioWr_iff.mpr ⟨w, rfl, h.wf_eq.symm.trans hwf, h⟩

theorem ReadAt.decode_encode {p : Params} {offset : Word64} {w : AccessWidth} {i : Instr}
    (h : ReadAt w offset i) (hwf : i.wf p = true) : decode p (encode p i) = .ok i := by
  rw [h.encode_eq]
  exact decode_mmioRd_iff.mpr ⟨w, rfl, h.wf_eq.symm.trans hwf, h⟩

/-- Settles O1: each register access is the command at its start offset, a `TAG_READ` at its row's first offset plus the
index; the other formats carry their operands as they are. -/
theorem decodeEncodeRoundTrip : Obligations.DecodeEncodeRoundTrip := by
  intro p i hwf
  cases i with
  | outSubmit v w => exact WriteAt.outSubmit.decode_encode hwf
  | inRegister v w => exact WriteAt.inRegister.decode_encode hwf
  | ack v w => exact WriteAt.ack.decode_encode hwf
  | nopWr o v w =>
    have other : isCommandRegister p o = false := by simp_all [Instr.wf]
    obtain ⟨notOut, notIn, notAck⟩ := isCommandRegister_eq_false.mp other
    exact (WriteAt.nopWr notOut notIn notAck).decode_encode hwf
  | tagReadLow k w => exact (ReadAt.low k (toNat_add_index 0x10 k (by decide))).decode_encode hwf
  | tagReadMid k w => exact (ReadAt.mid k (toNat_add_index 0x20 k (by decide))).decode_encode hwf
  | tagReadHigh k w => exact (ReadAt.high k (toNat_add_index 0x40 k (by decide))).decode_encode hwf
  | rdZero o w =>
    have outside : inTagWindow p o = false := by simp_all [Instr.wf]
    exact (ReadAt.zero (inTagWindow_eq_false.mp outside)).decode_encode hwf
  | deliver d => exact decode_beData_iff.mpr ⟨hwf, rfl⟩
  | capq | reset | construct => rfl

/-- Settles O2: an accepted register access is at the start offset of the command it gives. -/
theorem encodeDecodeRoundTrip : Obligations.EncodeDecodeRoundTrip := by
  intro p t i h
  cases t with
  | mmioWr o v n =>
    obtain ⟨w, rfl, admitted, command⟩ := decode_mmioWr_iff.mp h
    exact ⟨command.encode_eq, command.wf_eq.trans admitted⟩
  | mmioRd o n =>
    obtain ⟨w, rfl, region, command⟩ := decode_mmioRd_iff.mp h
    exact ⟨command.encode_eq, command.wf_eq.trans region⟩
  | beData d =>
    obtain ⟨fits, rfl⟩ := decode_beData_iff.mp h
    exact ⟨rfl, fits⟩
  | beCall | hostReset | hostConstruct =>
    cases h
    exact ⟨rfl, rfl⟩

/-- The `RD` dispatch by the rows of spec/opcode_table.json, first hit first (R93, R107). -/
theorem decodeRead_eq_rows (p : Params) (offset : Word64) (w : AccessWidth) : decodeRead p offset w =
    if offset &&& 0xFFFFFFFFFFFFFFF0 = 0x10 then .tagReadLow (offset.setWidth 4) w
    else if offset &&& 0xFFFFFFFFFFFFFFE0 = 0x20 then .tagReadMid (offset.setWidth 5) w
    else if offset &&& 0xFFFFFFFFFFFFFFF0 = 0x40 then .tagReadHigh (offset.setWidth 4) w
    else .rdZero offset w := by
  simp only [decodeRead, OpRow.hits, rowTagReadLow_eq, rowTagReadMid_eq, rowTagReadHigh_eq, beq_iff_eq]

/-- Settles O3: what a read decodes to is the command at its start offset. -/
theorem dispatchByStartOffset : Obligations.DispatchByStartOffset := fun p =>
  ⟨decodeWrite_eq p,
    fun offset w =>
      have command := readAt_decodeRead p offset w
      ⟨command.tagIndex_of_inside, command.eq_rdZero_of_outside⟩,
    decodeRead_eq_rows p⟩

/-- Settles O4: the decoder evaluates each tuple. -/
theorem specTransactionsDecode : Obligations.SpecTransactionsDecode :=
  ⟨rfl, rfl, rfl, rfl, rfl, rfl, rfl, rfl, rfl, rfl, rfl⟩

/-! ### Transactions that do not reach the device -/

theorem admittedWidth_eq_none {n : Nat} (h : n ≠ 1 ∧ n ≠ 2 ∧ n ≠ 4 ∧ n ≠ 8) : admittedWidth n = none := by
  obtain ⟨h1, h2, h4, h8⟩ := h
  rw [admittedWidth, if_neg h1, if_neg h2, if_neg h4, if_neg h8]

theorem exists_width {n : Nat} (h : n = 1 ∨ n = 2 ∨ n = 4 ∨ n = 8) : ∃ w : AccessWidth, w.bytes = n := by
  rcases h with rfl | rfl | rfl | rfl
  · exact ⟨.w1, rfl⟩
  · exact ⟨.w2, rfl⟩
  · exact ⟨.w4, rfl⟩
  · exact ⟨.w8, rfl⟩

theorem inRegion_eq_false {p : Params} {offset : Word64} : inRegion p offset = false ↔ p.regionBytes ≤ offset.toNat := by
  simp [inRegion]

theorem valueFits_eq_false {value : Word64} {w : AccessWidth} :
    valueFits value w = false ↔ 2 ^ (8 * w.bytes) ≤ value.toNat := by
  simp [valueFits]

theorem deliveryFits_eq_false {p : Params} {bytes : List Byte} :
    deliveryFits p bytes = false ↔ 2 ^ (8 * p.sizeBytes.bytes) ≤ bytes.length := by
  simp [deliveryFits]

theorem decode_widthNotAdmitted (p : Params) (offset value : Word64) {n : Nat} (h : n ≠ 1 ∧ n ≠ 2 ∧ n ≠ 4 ∧ n ≠ 8) :
    ∀ t ∈ [Transaction.mmioWr offset value n, .mmioRd offset n], decode p t = .error .widthNotAdmitted := by
  simp [decode, admittedWidth_eq_none h]

theorem decode_beyondRegion {p : Params} {offset : Word64} (value : Word64) (w : AccessWidth)
    (h : p.regionBytes ≤ offset.toNat) :
    ∀ t ∈ [Transaction.mmioWr offset value w.bytes, .mmioRd offset w.bytes], decode p t = .error .beyondRegion := by
  simp [decode, admittedWidth_bytes, inRegion_eq_false.mpr h]

theorem decode_valueWiderThanAccess {p : Params} {offset value : Word64} {w : AccessWidth}
    (region : offset.toNat < p.regionBytes) (h : 2 ^ (8 * w.bytes) ≤ value.toNat) :
    decode p (.mmioWr offset value w.bytes) = .error .valueWiderThanAccess := by
  have inside : inRegion p offset = true := decide_eq_true region
  simp [decode, admittedWidth_bytes, inside, valueFits_eq_false.mpr h]

theorem decode_deliveryTooLong {p : Params} {bytes : List Byte} (h : 2 ^ (8 * p.sizeBytes.bytes) ≤ bytes.length) :
    decode p (.beData bytes) = .error .deliveryTooLong := by
  simp [decode, deliveryFits_eq_false.mpr h]

end Sys2Proof

namespace Sys2Proof.Machine

/-- Settles O5: the decoder names the refusal, and the step passes it on. -/
theorem unadmittedAccessesRefused : Obligations.UnadmittedAccessesRefused := by
  intro s rest offset value n
  refine ⟨fun hn t ht harr => ?_, fun hn past t ht harr => ?_, fun hn region wide harr => ?_, fun d long harr => ?_⟩
  · exact step_of_decodeError harr (decode_widthNotAdmitted s.cfg offset value hn t ht)
  · obtain ⟨w, rfl⟩ := exists_width hn
    exact step_of_decodeError harr (decode_beyondRegion value w past t ht)
  · obtain ⟨w, rfl⟩ := exists_width hn
    exact step_of_decodeError harr (decode_valueWiderThanAccess region wide)
  · exact step_of_decodeError harr (decode_deliveryTooLong long)

/-! ### What a step refuses -/

/-- A command runs to its end, or a port call never returns; neither is a refusal. -/
theorem Run.outcome_ne_refused (r : Run Unit) (x : Refusal) : r.outcome ≠ .refused x := by
  cases r <;> nofun

theorem exec_ne_refused (i : Instr) (s : State) (r : Refusal) : exec i s ≠ .refused r := by
  cases i with
  | outSubmit v w => exact (outSubmit v s).outcome_ne_refused r
  | inRegister v w => exact (inRegister v s).outcome_ne_refused r
  | deliver d => exact (deliver d s).outcome_ne_refused r
  | ack v w =>
    obtain ⟨t, ht⟩ := exec_ack_next v w s
    rw [ht]; nofun
  | construct tag mode b =>
    obtain ⟨t, ht⟩ := exec_construct_next tag mode b s
    rw [ht]; nofun
  | nopWr | tagReadLow | tagReadMid | tagReadHigh | rdZero | capq | reset => nofun

/-- A step that refuses found an arrival that does not decode, or one that `H` must not present. -/
theorem step_refused_cases {s : State} {r : Refusal} (h : step s = .refused r) :
    ∃ t rest, s.arrivals = .command t :: rest ∧
      ((∃ e, decode s.cfg t = .error e ∧ r = .notADeviceAccess e) ∨
        ∃ i, decode s.cfg t = .ok i ∧ notLetIn s i = some r) := by
  match harr : s.arrivals with
  | [] => rw [step_of_idle harr] at h; cases h
  | .guestStores stores :: rest => rw [step_of_guestStores harr] at h; cases h
  | .command t :: rest =>
    refine ⟨t, rest, rfl, ?_⟩
    match hdec : decode s.cfg t with
    | .error e =>
      rw [step_of_decodeError harr hdec] at h
      cases h
      exact .inl ⟨e, rfl, rfl⟩
    | .ok i =>
      match hlet : notLetIn s i with
      | some q =>
        rw [step_of_notLetIn harr hdec hlet] at h
        cases h
        exact .inr ⟨i, rfl, hlet⟩
      | none =>
        rw [stepRunsDecodedCommand s t rest i harr hdec hlet] at h
        exact absurd h (exec_ne_refused i _ r)

/-- Settles O58: the cases of a refusing step, and the two ways to refuse. -/
theorem noCommandIsRefused : Obligations.NoCommandIsRefused := by
  refine ⟨exec_ne_refused, fun s r => ⟨step_refused_cases, ?_⟩⟩
  rintro ⟨t, rest, harr, ⟨e, hdec, rfl⟩ | ⟨i, hdec, hlet⟩⟩
  · exact step_of_decodeError harr hdec
  · exact step_of_notLetIn harr hdec hlet

/-! ### The header and the buffer list -/

/-- The bound of an `n`-byte field, in powers of 256. -/
theorem lt_256_pow {v n : Nat} (h : v < 2 ^ (8 * n)) : v < 256 ^ n := by
  rwa [show 256 = 2 ^ 8 from rfl, ← pow_mul]

section header
variable (p : Params) (h : Header)

/-- The four fields one after the other (R96). -/
theorem headerBytes_eq : headerBytes p h = enc p.byteOrder 4 h.notifyFlags.toNat ++ (enc p.byteOrder 4 h.status.toNat ++
    (enc p.byteOrder p.sizeBytes.bytes h.actualLength.toNat ++
      enc p.byteOrder p.sizeBytes.bytes h.bufferCount.toNat)) := by
  simp only [headerBytes, List.append_assoc]

theorem drop_four_headerBytes : (headerBytes p h).drop 4 = enc p.byteOrder 4 h.status.toNat ++
    (enc p.byteOrder p.sizeBytes.bytes h.actualLength.toNat ++
      enc p.byteOrder p.sizeBytes.bytes h.bufferCount.toNat) := by
  rw [headerBytes_eq]
  exact List.drop_left' (length_enc _ _ _)

theorem drop_eight_headerBytes : (headerBytes p h).drop 8 =
    enc p.byteOrder p.sizeBytes.bytes h.actualLength.toNat ++ enc p.byteOrder p.sizeBytes.bytes h.bufferCount.toNat := by
  rw [show 8 = 4 + 4 from rfl, ← List.drop_drop, drop_four_headerBytes]
  exact List.drop_left' (length_enc _ _ _)

theorem headerBytes_notifyFlags : (headerBytes p h).take 4 = enc p.byteOrder 4 h.notifyFlags.toNat := by
  rw [headerBytes_eq]
  exact List.take_left' (length_enc _ _ _)

theorem headerBytes_status : ((headerBytes p h).drop 4).take 4 = enc p.byteOrder 4 h.status.toNat := by
  rw [drop_four_headerBytes]
  exact List.take_left' (length_enc _ _ _)

theorem headerBytes_actualLength : ((headerBytes p h).drop 8).take p.sizeBytes.bytes =
    enc p.byteOrder p.sizeBytes.bytes h.actualLength.toNat := by
  rw [drop_eight_headerBytes]
  exact List.take_left' (length_enc _ _ _)

theorem headerBytes_bufferCount : (headerBytes p h).drop (8 + p.sizeBytes.bytes) =
    enc p.byteOrder p.sizeBytes.bytes h.bufferCount.toNat := by
  rw [← List.drop_drop, drop_eight_headerBytes]
  exact List.drop_left' (length_enc _ _ _)

end header

/-- Reading a field written in `n` bytes gives it back. -/
theorem ofNat_dec_enc (o : ByteOrder) {n k : Nat} (v : BitVec n) (h : v.toNat < 2 ^ (8 * k)) :
    BitVec.ofNat n (dec o (enc o k v.toNat)) = v := by
  rw [dec_enc o (lt_256_pow h), BitVec.ofNat_toNat, BitVec.setWidth_eq]

/-- The header the codec writes is the header it reads, if its `size` fields fit (R96, R142). -/
theorem decodeHeader_headerBytes {p : Params} {h : Header} (length : h.actualLength.toNat < 2 ^ (8 * p.sizeBytes.bytes))
    (count : h.bufferCount.toNat < 2 ^ (8 * p.sizeBytes.bytes)) : decodeHeader p (headerBytes p h) = h := by
  have last : (enc p.byteOrder p.sizeBytes.bytes h.bufferCount.toNat).take p.sizeBytes.bytes =
      enc p.byteOrder p.sizeBytes.bytes h.bufferCount.toNat := List.take_of_length_le (length_enc _ _ _).le
  simp only [decodeHeader, slice, List.drop_zero, headerBytes_notifyFlags, headerBytes_status, headerBytes_actualLength,
    headerBytes_bufferCount, last, ofNat_dec_enc _ _ length, ofNat_dec_enc _ _ count,
    ofNat_dec_enc (k := 4) _ _ h.notifyFlags.isLt, ofNat_dec_enc (k := 4) _ _ h.status.isLt]

/-- Settles O9: each field is what `take` and `drop` leave of the four fields. -/
theorem headerRoundTrip : Obligations.HeaderRoundTrip := fun p =>
  ⟨fun _ => ⟨rfl, rfl, rfl, rfl⟩,
    fun h => ⟨length_headerBytes p h, headerBytes_notifyFlags p h, headerBytes_status p h, headerBytes_actualLength p h,
      headerBytes_bufferCount p h⟩,
    fun _ => decodeHeader_headerBytes⟩

/-- Entry `i` of the list is read at `16·i` (R97). -/
theorem getElem?_decodeBuffers (p : Params) (q : List Byte) {n i : Nat} (h : i < n) :
    (decodeBuffers p q n)[i]? = some (decodeBuffer p (q.drop (16 * i))) := by
  induction n generalizing q i with
  | zero => omega
  | succ n ih =>
    cases i with
    | zero => rfl
    | succ i =>
      rw [decodeBuffers, List.getElem?_cons_succ, ih _ (by omega), Given.val_eq, List.drop_drop, Nat.mul_succ,
        Nat.add_comm]

/-- Settles O10: the two halves of entry `i`. -/
theorem bufferEntriesLieSixteenApart : Obligations.BufferEntriesLieSixteenApart := by
  intro p q n i h
  rw [getElem?_decodeBuffers p q h, decodeBuffer, slice, slice, List.drop_drop, List.drop_drop, Nat.add_zero]

end Sys2Proof.Machine
end

section
/-! SUPPORT. Proofs of the statements of spec/40_register_decoder.md: the reads and writes without effect (R122, R123).
Which offsets they have is what `ReadAt` and `WriteAt` say of the decoder. -/

namespace Sys2Proof.Machine

/-- `RD_ZERO` returns the number 0 at every width (R123). -/
theorem exec_rdZero (offset : Word64) (w : AccessWidth) (s : State) :
    exec (.rdZero offset w) s = .next (s.record (.readReturned 0)) := rfl

/-- `NOP_WR` is accepted silently (R122). -/
theorem exec_nopWr (offset value : Word64) (w : AccessWidth) (s : State) :
    exec (.nopWr offset value w) s = .next s := rfl

/-- Settles O16: outside the tag window a read hits no row of the table. -/
theorem otherReadsReturnZero : Obligations.OtherReadsReturnZero := by
  intro s offset w
  refine ⟨fun outside => ?_, exec_rdZero offset w s⟩
  have notInWindow : ¬ (0x10 ≤ offset.toNat ∧ offset.toNat < 0x50) := by omega
  exact decodeRead_of_readAt (.zero notInWindow)

/-- Settles O17: at no command register a write hits no row of the table. -/
theorem otherWritesChangeNothing : Obligations.OtherWritesChangeNothing := fun s offset value w =>
  ⟨fun notOut notIn notAck => decodeWrite_of_writeAt (.nopWr notOut notIn notAck), exec_nopWr offset value w s⟩

end Sys2Proof.Machine
end

section
/-! SUPPORT. Proofs of the statements of spec/41_descriptor_codec.md: the write-back stays in the header (R143), and the
three ways a descriptor fetch inside the address space ends in an error (R141, R144 d). -/

namespace Sys2Proof.Machine

/-! ### The header write-back -/

/-- Settles O26: the frame of `OUT_SUBMIT` is the header at `a`. -/
theorem outSubmitWritesOnlyItsHeader : Obligations.OutSubmitWritesOnlyItsHeader := by
  intro s t a w still h
  cases did_of_next h with
  | outSubmit _ _ _ frame => exact frame.bytes still

/-! ### Malformed descriptors -/

/-- A count above the bound ends the fetch after the header read (R141). -/
theorem decodeSGL_malformed {s : State} {a : Word64} (hq : s.MemQuiet) (hfit : fitsSpace a.toNat s.cfg.hdrBytes)
    (hmax : Config.maxBuffers < (s.headerAt a).bufferCount.toNat) :
    decodeSGL a s = .aborted { s with
      memTurns := s.memTurns.tail
      history := s.history ++ [.memRead a.toNat s.cfg.hdrBytes (some (s.mem.bytesAt a.toNat s.cfg.hdrBytes)),
        .report (.malformedDescriptor a (s.headerAt a).bufferCount)] } := by
  have header : decodeHeader s.cfg (s.mem.bytesAt a.toNat s.cfg.hdrBytes) = s.headerAt a := rfl
  rw [decodeSGL, fetch_granted hq.head hfit]
  simp only [Run.done_andThen, header, Given.val_eq]
  rw [if_pos hmax]
  simp [raise, report, State.record]

/-- Settles O28. -/
theorem malformedDescriptorRejected : Obligations.MalformedDescriptorRejected := fun _ _ w hq hfit hmax i hi =>
  ⟨_, exec_of_decodeSGL_aborted w (decodeSGL_malformed hq.1 hfit hmax) i hi, rfl, rfl, rfl, rfl⟩

/-! ### Refused descriptor reads -/

/-- A read that is granted, whatever races it: its bytes are those the turn lets it see (R68, R74). -/
theorem fetch_seen {s : State} {t : MemTurn} {rest : List MemTurn} (h : s.memTurns = t :: rest)
    (ht : t.verdict = .grants) {addr n : Nat} (hr : addr + n ≤ addressSpace) :
    let bytes := (s.mem.putStores t.guestStores).seenBytes t.seen addr n
    fetch addr n s = .done bytes
      { s with memTurns := rest, mem := s.mem.putStores t.guestStores,
               history := s.history ++ [.memRead addr n (some bytes)] } := by
  rw [fetch, memRead_of_grants (takeMemTurn_of_cons h) hr ht]
  rfl

theorem decodeSGL_header_refused {s : State} {a : Word64} (hfit : fitsSpace a.toNat s.cfg.hdrBytes) {t : MemTurn}
    {rest : List MemTurn} (h : s.memTurns = t :: rest) (ht : t.verdict = .refuses) :
    decodeSGL a s = .aborted { s with
      memTurns := rest
      mem := s.mem.putStores t.guestStores
      history := s.history ++ [.memRead a.toNat s.cfg.hdrBytes none,
        .report (.guestAccessFailure a.toNat s.cfg.hdrBytes)] } := by
  rw [decodeSGL, fetch_refused h ht hfit]
  rfl

theorem fetchList_refused {s : State} {a count : Nat} (hne : count ≠ 0)
    (hfit : fitsSpace (a + s.cfg.hdrBytes) (Config.bufBytes * count)) {t : MemTurn} {rest : List MemTurn}
    (h : s.memTurns = t :: rest) (ht : t.verdict = .refuses) :
    fetchList a count s = .aborted { s with
      memTurns := rest
      mem := s.mem.putStores t.guestStores
      history := s.history ++ [.memRead (a + s.cfg.hdrBytes) (Config.bufBytes * count) none,
        .report (.guestAccessFailure (a + s.cfg.hdrBytes) (Config.bufBytes * count))] } := by
  rw [fetchList, if_neg hne, Given.val_eq, fetch_refused h ht hfit]
  rfl

/-- The list read asks for as many entries as the header says that the first read saw (R144 d, e). -/
theorem decodeSGL_list_refused {s : State} {a : Word64} (hfit : fitsSpace a.toNat s.cfg.hdrBytes) {t u : MemTurn}
    {rest : List MemTurn} (h : s.memTurns = t :: u :: rest) (ht : t.verdict = .grants) (hu : u.verdict = .refuses) :
    let header := (s.mem.putStores t.guestStores).seenBytes t.seen a.toNat s.cfg.hdrBytes
    let count := (decodeHeader s.cfg header).bufferCount.toNat
    count ≠ 0 → count ≤ Config.maxBuffers → fitsSpace (a.toNat + s.cfg.hdrBytes) (Config.bufBytes * count) →
    decodeSGL a s = .aborted { s with
      memTurns := rest
      mem := (s.mem.putStores t.guestStores).putStores u.guestStores
      history := s.history ++ [.memRead a.toNat s.cfg.hdrBytes (some header),
        .memRead (a.toNat + s.cfg.hdrBytes) (Config.bufBytes * count) none,
        .report (.guestAccessFailure (a.toNat + s.cfg.hdrBytes) (Config.bufBytes * count))] } := by
  intro header count hne hmax hlist
  rw [decodeSGL, fetch_seen h ht hfit]
  simp only [Run.done_andThen, Given.val_eq]
  rw [if_neg (Nat.not_lt.mpr hmax),
    fetchList_refused (s := { s with memTurns := u :: rest, mem := _, history := _ }) hne hlist rfl hu]
  simp [header, count]

/-- Settles O30: `M` refuses the header read, or grants it and refuses the list read. -/
theorem refusedHeaderReadEndsCommand : Obligations.RefusedHeaderReadEndsCommand := fun _ _ w hfit i hi =>
  ⟨fun _ _ h ht => exec_of_decodeSGL_aborted w (decodeSGL_header_refused hfit h ht) i hi,
    fun _ _ _ h ht hu hpos hmax hlist => exec_of_decodeSGL_aborted w
      (decodeSGL_list_refused hfit h ht hu (Nat.ne_of_gt hpos) hmax hlist) i hi⟩

end Sys2Proof.Machine
end

section
/-! SUPPORT. Proofs of the statements of spec/42_outbound_engine.md: what `BeWrite` does at each turn of `B` (R63,
R162), the completion of an `OUT_SUBMIT` (R160, R163, R164), and where one stops after its descriptor fetch (R165, R167,
R168 h). -/

namespace Sys2Proof.Machine

/-! ### `BeWrite` at each turn of `B` -/

theorem takeBeTurn_of_nil {s : State} (h : s.beTurns = []) : takeBeTurn s = (.takes, s) := by
  simp [takeBeTurn, h]

theorem takeBeTurn_of_cons {s : State} {t : BeTurn} {rest : List BeTurn} (h : s.beTurns = t :: rest) :
    takeBeTurn s = (t, { s with beTurns := rest }) := by
  simp [takeBeTurn, h]

theorem beWrite_of_takes {s u : State} (ht : takeBeTurn s = (.takes, u)) (w : List Byte) :
    beWrite w s = .done true ({ u with outStream := u.outStream ++ w }.record (.beWrite w)) := by
  simp [beWrite, ht]

theorem beWrite_of_fails {s u : State} (ht : takeBeTurn s = (.fails, u)) (w : List Byte) :
    beWrite w s = .done false ({ u with freeDraws := u.freeDraws + 1 }.record
      (.beWriteFailed w (min w.length (Config.freeTaken u.freeDraws)))) := by
  simp [beWrite, ht]

theorem beWrite_of_never {s u : State} (ht : takeBeTurn s = (.never, u)) (w : List Byte) :
    beWrite w s = .stuck .backendNeverAnswers := by
  simp [beWrite, ht]

/-- Settles O14: an empty list of turns takes; a failed write took at most all its bytes. -/
theorem backendWriteAsRuled : Obligations.BackendWriteAsRuled := fun _ w =>
  ⟨fun hnil => beWrite_of_takes (takeBeTurn_of_nil hnil) w,
    fun _ hcons => beWrite_of_takes (takeBeTurn_of_cons hcons) w,
    fun _ hcons => ⟨_, Nat.min_le_left _ _, beWrite_of_fails (takeBeTurn_of_cons hcons) w⟩,
    fun _ hcons => beWrite_of_never (takeBeTurn_of_cons hcons) w⟩

/-! ### The machine after the notification -/

@[simp] theorem irqRaise_freeDraws (s : State) : (irqRaise s).freeDraws = s.freeDraws := by
  unfold irqRaise; split <;> simp

@[simp] theorem notifyIf_freeDraws (b : Bool) (dir : Direction) (s : State) :
    (notifyIf b dir s).freeDraws = s.freeDraws := by
  unfold notifyIf notify; split <;> [split; skip] <;> simp

/-- The line after a raise that is asked for and not coalesced: high in `Level` mode, as it was in `Message` mode
(R210 to R212). -/
theorem ite_raisedLine (m : IrqMode) (line wanted pending : Bool) :
    (if wanted && !pending then raisedLine m line else line) =
      if wanted = true ∧ pending = false ∧ m = .level then true else line := by
  cases m <;> simp [raisedLine]

section notifiedOut
variable (s : State) (a : Word64)

theorem State.notifiedOut_frame (w : Nat → Prop) :
    Frame w (s.afterChunks a (s.chunksAt a).length) (s.notifiedOut a) := notifyIf_frame w _ .out _

@[simp] theorem State.notifiedOut_cfg : (s.notifiedOut a).cfg = s.cfg := notifyIf_cfg _ _ _
@[simp] theorem State.notifiedOut_mem : (s.notifiedOut a).mem = s.mem := notifyIf_mem _ _ _
@[simp] theorem State.notifiedOut_freeDraws : (s.notifiedOut a).freeDraws = s.freeDraws := notifyIf_freeDraws _ _ _
@[simp] theorem State.notifiedOut_backend : (s.notifiedOut a).backend = s.backend :=
  (s.notifiedOut_frame a fun _ => False).backend
@[simp] theorem State.notifiedOut_arrivals : (s.notifiedOut a).arrivals = s.arrivals :=
  (s.notifiedOut_frame a fun _ => False).arrivals
@[simp] theorem State.notifiedOut_memTurns : (s.notifiedOut a).memTurns =
    s.memTurns.drop ((s.fetchEvents a).length + (s.chunksAt a).length) := notifyIf_memTurns _ _ _

/-- All chunks together are the contents of all buffers (R80, R160). -/
theorem State.notifiedOut_outStream :
    (s.notifiedOut a).outStream = s.outStream ++ s.contentsOf (s.buffersAt a) := by
  rw [State.notifiedOut, notifyIf_outStream, State.afterChunks_outStream, List.take_length, State.chunksAt,
    chunkBytes_chunksFrom]

/-- The flag and the line, as `Notify(Out)` moves them if the header asks (R163, R210). -/
theorem State.notifiedOut_dev : (s.notifiedOut a).dev = { s.dev with
    outPending := s.dev.outPending || decide ((s.headerAt a).notifyFlags &&& s.cfg.notifyMask ≠ 0)
    irqLine := if (s.headerAt a).notifyFlags &&& s.cfg.notifyMask ≠ 0 ∧ s.dev.outPending = false ∧
      s.cfg.irqMode = .level then true else s.dev.irqLine } := by
  have wanted : notifyRequested s.cfg (s.headerAt a).notifyFlags =
      decide ((s.headerAt a).notifyFlags &&& s.cfg.notifyMask ≠ 0) := by
    rw [Bool.eq_iff_iff, notifyRequested_iff, decide_eq_true_iff]
  rw [State.notifiedOut, notifyIf_out_dev, wanted, ite_raisedLine]
  simp only [State.afterChunks_dev, State.afterChunks_cfg, decide_eq_true_iff]

end notifiedOut

/-! ### Completion -/

/-- Settles O23: the machine after the notification, with the header written back. -/
theorem outSubmitCompletes : Obligations.OutSubmitCompletes := by
  intro s a w hq hs hf
  refine ⟨_, congrArg Run.outcome (outSubmit_quiet hq hs hf), s.notifiedOut_outStream a, ?_, s.notifiedOut_dev a,
    s.notifiedOut_cfg a, s.notifiedOut_backend a, s.notifiedOut_arrivals a, s.notifiedOut_freeDraws a⟩
  rw [State.notifiedOut_mem]

/-! ### Where a submission stops after its fetch -/

/-- Chunk `k` is one of the first `k + 1`. -/
theorem mem_take_succ_of_getElem? {α : Type} {l : List α} {k : Nat} {x : α} (h : l[k]? = some x) :
    x ∈ l.take (k + 1) :=
  List.mem_of_getElem? (i := k) (by rw [List.getElem?_take_of_lt k.lt_succ_self, h])

section stop
variable {s : State} {a : Word64} {k : Nat} {c : Chunk} (hs : s.SglFetchable a) (hk : (s.chunksAt a)[k]? = some c)
include hs hk

/-- The backend fails on chunk `k`, which has been read (R165, R243). -/
theorem outSubmit_backend_fails (hf : ∀ c' ∈ (s.chunksAt a).take (k + 1), c'.Fits) (hm : s.MemQuiet)
    {rest : List BeTurn} (hb : s.beTurns = List.replicate k .takes ++ .fails :: rest) :
    ∃ n, n ≤ c.size ∧ outSubmit a s = .aborted { s.afterChunks a k with
      memTurns := s.memTurns.drop ((s.fetchEvents a).length + k + 1)
      beTurns := rest
      freeDraws := s.freeDraws + 1
      history := (s.afterChunks a k).history ++ [.memRead c.address c.size (some (s.chunkBytes c)),
        .beWriteFailed (s.chunkBytes c) n, .report (.backendWriteFailure c.buffer c.offset)] } := by
  have quiet : (s.afterChunks a k).memTurns.headD MemTurn.quiet = MemTurn.quiet :=
    State.MemQuiet.head (s := s.afterChunks a k) fun t ht => hm t (List.mem_of_mem_drop ht)
  have fails : (s.afterChunks a k).beTurns = .fails :: rest := by
    rw [State.afterChunks_beTurns, hb, List.drop_left' List.length_replicate]
  have read := fetch_granted quiet (hf c (mem_take_succ_of_getElem? hk))
  obtain ⟨n, hn, pushed⟩ := push_fails (s := { s.afterChunks a k with
    memTurns := (s.afterChunks a k).memTurns.tail
    history := (s.afterChunks a k).history ++ [.memRead c.address c.size (some (s.chunkBytes c))] })
    fails (s.chunkBytes c) c.buffer c.offset
  refine ⟨n, by simpa [State.chunkBytes] using hn, outSubmit_at hs hk
    (fun c' hc' => hf c' (List.take_subset_take_left _ k.le_succ hc')) (Leading.of_all hm _)
    (hb ▸ Leading.replicate _ _ _) ?_⟩
  rw [read, Run.done_andThen]
  refine pushed.trans ?_
  simp only [State.afterChunks_memTurns, List.tail_drop, List.append_assoc, List.cons_append, List.nil_append,
    State.afterChunks_freeDraws]

/-- `M` refuses the read of chunk `k` (R167, R245). -/
theorem outSubmit_read_refused (hf : ∀ c' ∈ (s.chunksAt a).take (k + 1), c'.Fits)
    (hb : ∀ t ∈ s.beTurns, t = .takes) {u : MemTurn} {rest : List MemTurn}
    (hm : s.memTurns = List.replicate ((s.fetchEvents a).length + k) MemTurn.quiet ++ u :: rest)
    (hu : u.verdict = .refuses) : outSubmit a s = .aborted { s.afterChunks a k with
      memTurns := rest
      mem := s.mem.putStores u.guestStores
      history := (s.afterChunks a k).history ++ [.memRead c.address c.size none,
        .report (.guestAccessFailure c.address c.size)] } := by
  have turn : (s.afterChunks a k).memTurns = u :: rest := by
    rw [State.afterChunks_memTurns, hm, List.drop_left' List.length_replicate]
  refine outSubmit_at hs hk (fun c' hc' => hf c' (List.take_subset_take_left _ k.le_succ hc'))
    (hm ▸ Leading.replicate _ _ _) (Leading.of_all hb _) ?_
  rw [fetch_refused turn hu (hf c (mem_take_succ_of_getElem? hk))]
  rfl

/-- The read of chunk `k` would pass `2^64` and is not attempted (R168 h, R66). -/
theorem outSubmit_read_past (hf : ∀ c' ∈ (s.chunksAt a).take k, c'.Fits) (hc : ¬ c.Fits) (hq : s.Quiet) :
    outSubmit a s = .aborted { s.afterChunks a k with
      history := (s.afterChunks a k).history ++ [.report (.guestAccessFailure c.address c.size)] } := by
  refine outSubmit_at hs hk hf (Leading.of_all hq.1 _) (Leading.of_all hq.2 _) ?_
  rw [fetch_past (Nat.lt_of_not_le hc)]
  rfl

end stop

/-- `M` refuses the header write, after all chunks and the notification (R167, R245). -/
theorem outSubmit_header_refused {s : State} {a : Word64} (hs : s.SglFetchable a) (hf : ∀ c ∈ s.chunksAt a, c.Fits)
    (hb : ∀ t ∈ s.beTurns, t = .takes) {u : MemTurn} {rest : List MemTurn}
    (hm : s.memTurns =
      List.replicate ((s.fetchEvents a).length + (s.chunksAt a).length) MemTurn.quiet ++ u :: rest)
    (hu : u.verdict = .refuses) :
    let bytes := headerBytes s.cfg { s.headerAt a with status := s.cfg.statusDone }
    outSubmit a s = .aborted { s.notifiedOut a with
      memTurns := rest
      mem := (s.mem.putStores u.guestStores).putSome s.freeDraws 0 a.toNat bytes
      freeDraws := s.freeDraws + 1
      history := (s.notifiedOut a).history ++
        [.memWrite a.toNat bytes false, .report (.guestAccessFailure a.toNat s.cfg.hdrBytes)] } := by
  intro bytes
  have turn : (s.notifiedOut a).memTurns = u :: rest := by
    rw [State.notifiedOut_memTurns, hm, List.drop_left' List.length_replicate]
  have size : bytes.length = s.cfg.hdrBytes := length_headerBytes _ _
  rw [outSubmit_drained hs hf (hm ▸ Leading.replicate _ _ _) (Leading.of_all hb _), ← State.notifiedOut, encodeHeader,
    State.notifiedOut_cfg, store_refused turn hu (by rw [size]; exact hs.header_fits), size, State.notifiedOut_mem,
    State.notifiedOut_freeDraws]

/-- Settles O27: the four stops, each from the machine after the chunks that were drained. -/
theorem backendFailureEndsSubmission : Obligations.BackendFailureEndsSubmission := by
  intro s a w hs fetched
  refine ⟨fun k c rest hk hf hm hb => ?_, fun k c u rest hk hf hb hm hu => ?_, fun k c hk hf hc hq => ?_,
    fun u rest hf hb hm hu => ?_⟩
  · obtain ⟨n, hn, ended⟩ := outSubmit_backend_fails hs hk hf hm hb
    exact ⟨n, hn, congrArg Run.outcome ended⟩
  · exact congrArg Run.outcome (outSubmit_read_refused hs hk hf hb hm hu)
  · exact congrArg Run.outcome (outSubmit_read_past hs hk hf hc hq)
  · refine ⟨_, congrArg Run.outcome (outSubmit_header_refused hs hf hb hm hu), s.notifiedOut_outStream a,
      s.notifiedOut_dev a, ?_, fun x hx => ?_, fun hwf j b hj => ?_, s.notifiedOut_cfg a, s.notifiedOut_backend a,
      s.notifiedOut_arrivals a⟩
    · rw [State.notifiedOut_history]
    · exact Memory.byteAt_putSome_other _ (lt_or_le_of_not_inRange (by rw [length_headerBytes]; exact hx))
    · exact Memory.byteAt_putSome (Memory.wf_putStores hwf) _ _ _ (by rw [length_headerBytes]; exact hs.header_fits) hj

end Sys2Proof.Machine
end

section
/-! SUPPORT. Proofs of the statements of spec/43_inbound_engine.md: the registration (R180 to R182), the capacity (R183),
the delivery on quiet ports (R184 to R189) and on others (R190), and the statuses in which bytes are dropped (R184, R191,
R192). -/

namespace Sys2Proof.Machine

/-! ### Registration -/

@[simp] theorem State.length_buffersAt (s : State) (a : Word64) :
    (s.buffersAt a).length = (s.headerAt a).bufferCount.toNat := length_decodeBuffers _ _ _

/-- The descriptor fetch only reads (R67). -/
theorem State.fetchEvents_read {s : State} {a : Word64} :
    ∀ e ∈ s.fetchEvents a, ∃ x n bytes, e = .memRead x n (some bytes) := by
  intro e he
  rcases List.mem_cons.mp he with rfl | he
  · exact ⟨_, _, _, rfl⟩
  · split at he
    · cases he
    · exact ⟨_, _, _, List.mem_singleton.mp he⟩

section countStale
variable (a : Word64) (s : State)
@[simp] theorem countStale_cfg : (countStale a s).cfg = s.cfg := (countStale_frame (fun _ => False) a s).cfg
@[simp] theorem countStale_backend : (countStale a s).backend = s.backend :=
  (countStale_frame (fun _ => False) a s).backend
@[simp] theorem countStale_arrivals : (countStale a s).arrivals = s.arrivals :=
  (countStale_frame (fun _ => False) a s).arrivals
@[simp] theorem countStale_mem : (countStale a s).mem = s.mem := by unfold countStale; split <;> rfl
@[simp] theorem countStale_outStream : (countStale a s).outStream = s.outStream := by unfold countStale; split <;> rfl
theorem countStale_history : (countStale a s).history =
    s.history ++ (if s.dev.live s.cfg then [.report (.staleRegistration s.dev.inDescAddr a)] else []) := by
  unfold countStale; split <;> simp
end countStale

/-- The machine after an `IN_REGISTER` that completes on quiet memory (R180). -/
def State.registeredFrom (s : State) (a : Word64) : State :=
  { countStale a (s.fetched a) with dev := (countStale a (s.fetched a)).dev.install a (s.headerAt a) (s.buffersAt a) }

section registeredFrom
variable (s : State) (a : Word64)
@[simp] theorem State.registeredFrom_dev : (s.registeredFrom a).dev =
    (countedStale s.cfg s.dev).install a (s.headerAt a) (s.buffersAt a) :=
  congrArg (Device.install · a (s.headerAt a) (s.buffersAt a)) (countStale_dev a (s.fetched a))
@[simp] theorem State.registeredFrom_cfg : (s.registeredFrom a).cfg = s.cfg := countStale_cfg a (s.fetched a)
@[simp] theorem State.registeredFrom_backend : (s.registeredFrom a).backend = s.backend :=
  countStale_backend a (s.fetched a)
@[simp] theorem State.registeredFrom_arrivals : (s.registeredFrom a).arrivals = s.arrivals :=
  countStale_arrivals a (s.fetched a)
@[simp] theorem State.registeredFrom_mem : (s.registeredFrom a).mem = s.mem := countStale_mem a (s.fetched a)
@[simp] theorem State.registeredFrom_outStream : (s.registeredFrom a).outStream = s.outStream :=
  countStale_outStream a (s.fetched a)
theorem State.registeredFrom_history : (s.registeredFrom a).history = s.history ++ s.fetchEvents a ++
    (if s.dev.live s.cfg then [.report (.staleRegistration s.dev.inDescAddr a)] else []) :=
  countStale_history a (s.fetched a)
end registeredFrom

/-- The registered buffers are the fetched ones, whatever was registered before (R28). -/
theorem State.registeredFrom_registered {s : State} {a : Word64} (hs : s.SglFetchable a) :
    (s.registeredFrom a).dev.registered = s.buffersAt a :=
  Device.install_registered (s.length_buffersAt a) hs.1

theorem exec_inRegister_quiet {s : State} {a : Word64} (w : AccessWidth) (hm : s.MemQuiet) (hs : s.SglFetchable a) :
    exec (.inRegister a w) s = .next (s.registeredFrom a) := by
  have ran : inRegister a s = .done () (s.registeredFrom a) := by
    rw [inRegister, decodeSGL_granted (Leading.of_all hm _) hs]
    rfl
  exact congrArg Run.outcome ran

/-- Settles O31: the fetched SGL is installed whole; the rest of the device stays, but for the stale count. -/
theorem inRegisterInstalls : Obligations.InRegisterInstalls := by
  intro s a w hq hs stale
  have live : s.dev.live s.cfg = stale := rfl
  have kept : (s.registeredFrom a).dev = { s.dev with
      inValid := true, inDescAddr := a, inHdr := s.headerAt a, inBuf := installBuffers s.dev.inBuf (s.buffersAt a)
      curIdx := 0, curOff := 0, totalCapacity := sumLengths (s.buffersAt a)
      staleCount := (countedStale s.cfg s.dev).staleCount } := by
    rw [State.registeredFrom_dev, countedStale_eq]; rfl
  refine ⟨s.registeredFrom a, s.fetchEvents a, exec_inRegister_quiet w hq.1 hs, rfl, s.registeredFrom_registered hs,
    rfl, rfl, rfl, rfl, rfl, ?_, by rw [kept], by rw [kept], by rw [kept], s.registeredFrom_mem a,
    s.registeredFrom_outStream a, s.registeredFrom_cfg a, s.registeredFrom_backend a, s.registeredFrom_arrivals a, ?_,
    State.fetchEvents_read⟩
  · rw [State.registeredFrom_dev, Device.install_staleCount, countedStale_staleCount, live]
    split <;> rfl
  · rw [State.registeredFrom_history, live]

/-- Settles O32: a registration that completes reports no ending error. -/
theorem rejectedRegistrationChangesNothing : Obligations.RejectedRegistrationChangesNothing := by
  intro s t a w es h hh ended
  cases did_of_next h with
  | registered _ _ _ _ _ logged =>
    obtain ⟨e, he, ends⟩ := ended
    rw [logged.noEnd hh e he] at ends
    cases ends
  | notRegistered _ _ _ _ _ dev => exact dev

/-- Settles O33. -/
theorem inRegisterFrame : Obligations.InRegisterFrame := by
  intro s t a w h
  cases did_of_next h with
  | registered _ _ _ _ frame _ stream _ _ dev =>
    rw [countedStale_eq] at dev
    exact ⟨by rw [dev]; rfl, by rw [dev]; rfl, by rw [dev]; rfl, stream, frame.cfg, frame.backend, frame.arrivals,
      fun still x => frame.bytes still x id⟩
  | notRegistered _ _ frame _ stream dev =>
    exact ⟨by rw [dev], by rw [dev], by rw [dev], stream, frame.cfg, frame.backend, frame.arrivals,
      fun still x => frame.bytes still x id⟩

/-! ### Capacity -/

theorem exec_capq (s : State) :
    exec .capq s = .next { s with history := s.history ++ [.capacityReturned (capacity s.cfg s.dev)] } := rfl

/-- With nothing registered, or a completed registration, the capacity is 0 (R183). -/
theorem capacity_of_closed {p : Params} {d : Device} (h : d.inValid = false ∨ d.inHdr.status = p.statusDone) :
    capacity p d = 0 := if_pos (by simpa using h)

theorem capacity_of_open {p : Params} {d : Device} (hv : d.inValid = true) (hs : d.inHdr.status ≠ p.statusDone) :
    capacity p d = unconsumed (d.registered.drop d.curIdx) d.curOff.toNat := if_neg (by simp [hv, hs])

/-- From the start of a list of buffers, all of it is unconsumed. -/
@[simp] theorem unconsumed_zero (bufs : List Buffer) : unconsumed bufs 0 = sumLengths bufs := by
  cases bufs <;> simp [unconsumed, sumLengths]

theorem unconsumed_drop_of_le {bufs : List Buffer} {i : Nat} (h : bufs.length ≤ i) (off : Nat) :
    unconsumed (bufs.drop i) off = 0 := by
  rw [List.drop_eq_nil_of_le h, unconsumed]

theorem unconsumed_drop_of_getElem? {bufs : List Buffer} {i : Nat} {b : Buffer} (h : bufs[i]? = some b) (off : Nat) :
    unconsumed (bufs.drop i) off = (b.length.toNat - off) + sumLengths (bufs.drop (i + 1)) := by
  obtain ⟨hlt, rfl⟩ := List.getElem?_eq_some_iff.mp h
  rw [List.drop_eq_getElem_cons hlt, unconsumed]

/-- Settles O34: the list of buffers from the cursor onward is empty, or begins with the current buffer. -/
theorem capqAnswersUnconsumedCapacity : Obligations.CapqAnswersUnconsumedCapacity := by
  intro s
  refine ⟨_, exec_capq s, capacity_of_closed, fun hv hs => ?_⟩
  rw [capacity_of_open hv hs]
  exact ⟨fun h => unconsumed_drop_of_le h _, fun b hb => unconsumed_drop_of_getElem? hb _⟩

/-- Settles O35: the cursor stands at the start of the fetched buffers. -/
theorem capqAfterRegistration : Obligations.CapqAfterRegistration := by
  intro s a w hq hs hp hne
  refine ⟨s.registeredFrom a, exec_inRegister_quiet w hq.1 hs, ?_⟩
  have notDone : (s.headerAt a).status ≠ s.cfg.statusDone := by rw [hp]; exact hne
  have full : capacity s.cfg (s.registeredFrom a).dev = (s.registeredFrom a).dev.totalCapacity := by
    rw [capacity_of_open rfl notDone, s.registeredFrom_registered hs]
    simp
  rw [exec_capq, State.registeredFrom_cfg, full]

/-! ### The branches of a delivery -/

/-- The drop guard (R184). -/
theorem deliver_of_not_live {s : State} (h : s.dev.live s.cfg = false) (d : List Byte) : deliver d s = .done () s := by
  simp [deliver, h]

/-- The test of `Precheck` rejects the delivery whole (R187). -/
theorem deliver_of_precheckFails {d : List Byte} {s : State} (hl : s.dev.live s.cfg = true)
    (hc : precheckFails d.length s = true) : deliver d s = raise (.overrun d.length 0) s := by
  simp [deliver, hl, hc]

/-- A live registration takes a delivery that passes the test of `Precheck` (R184). -/
theorem deliver_of_live {d : List Byte} {s : State} (hl : s.dev.live s.cfg = true)
    (hc : precheckFails d.length s = false) : deliver d s =
      (scatter d.length (s.dev.registered.drop s.dev.curIdx) d s).andThen fun _ t => complete d.length t := by
  simp [deliver, hl, hc]

/-! ### Deliveries that are dropped or rejected -/

theorem Device.not_live {p : Params} {d : Device} (h : d.inValid = false ∨ d.inHdr.status ≠ p.statusPending) :
    d.live p = false := by
  rw [← Bool.not_eq_true, Device.live_iff]
  rintro ⟨valid, pending⟩
  rcases h with h | h
  · simp [valid] at h
  · exact h pending

/-- Settles O37. -/
theorem deliveryDroppedWithoutLiveRegistration : Obligations.DeliveryDroppedWithoutLiveRegistration := by
  intro s d h
  exact congrArg Run.outcome (deliver_of_not_live (Device.not_live h) d)

/-- Settles O45. -/
theorem completedRegistrationTakesNoMore : Obligations.CompletedRegistrationTakesNoMore := by
  intro s d hs hne
  refine ⟨?_, deliveryDroppedWithoutLiveRegistration s d (.inr (by rw [hs]; exact hne.symm))⟩
  rw [exec_capq, capacity_of_closed (.inr hs)]

/-- Settles O36. -/
theorem foreignStatusLosesBytes : Obligations.ForeignStatusLosesBytes := by
  intro s hv hp hd
  refine ⟨?_, fun d => deliveryDroppedWithoutLiveRegistration s d (.inr hp), fun a w t h => ?_⟩
  · rw [exec_capq, capacity_of_open hv hd]
  · cases did_of_next h with
    | registered _ _ _ _ _ _ _ _ _ dev =>
      rw [dev, Device.install_staleCount, countedStale_staleCount, Device.not_live (.inr hp)]
      rfl
    | notRegistered _ _ _ _ _ dev => rw [dev]

/-- Settles O40. -/
theorem overrunPrecheckRejectsWhole : Obligations.OverrunPrecheckRejectsWhole := by
  intro s d hv hp hpolicy hlt
  have fails : precheckFails d.length s = true := by simp [precheckFails, hpolicy, hlt]
  exact congrArg Run.outcome (deliver_of_precheckFails (Device.live_iff.mpr ⟨hv, hp⟩) fails)

/-! ### Completion on quiet memory -/

theorem notifyRequested_eq_decide (p : Params) (flags : Word32) :
    notifyRequested p flags = decide (flags &&& p.notifyMask ≠ 0) := by
  rw [Bool.eq_iff_iff, notifyRequested_iff, decide_eq_true_iff]

/-- The cached header that completion leaves (R188). -/
def Header.completed (p : Params) (h : Header) (n : Nat) : Header :=
  { h with status := p.statusDone, actualLength := BitVec.ofNat 64 n }

/-- The machine after the header write of a completion on quiet memory (R188). -/
def State.headerWritten (s : State) (n : Nat) : State :=
  { s with
    dev := { s.dev with inHdr := s.dev.inHdr.completed s.cfg n }
    memTurns := s.memTurns.tail
    mem := s.mem.putBytes s.dev.inDescAddr.toNat (headerBytes s.cfg (s.dev.inHdr.completed s.cfg n))
    history := s.history ++
      [.memWrite s.dev.inDescAddr.toNat (headerBytes s.cfg (s.dev.inHdr.completed s.cfg n)) true] }

/-- The machine after a completion on quiet memory: the header written, then `Notify(In)` done if it asks (R188). -/
def State.notifiedIn (s : State) (n : Nat) : State :=
  notifyIf (notifyRequested s.cfg s.dev.inHdr.notifyFlags) .inn (s.headerWritten n)

theorem complete_eq_notifiedIn {n : Nat} {s : State} (hm : s.MemQuiet)
    (hfit : fitsSpace s.dev.inDescAddr.toNat s.cfg.hdrBytes) : complete n s = .done () (s.notifiedIn n) :=
  complete_quiet hm hfit

section notifiedIn
variable (s : State) (n : Nat)

theorem State.notifiedIn_frame (w : Nat → Prop) : Frame w (s.headerWritten n) (s.notifiedIn n) :=
  notifyIf_frame w _ .inn _

@[simp] theorem State.notifiedIn_cfg : (s.notifiedIn n).cfg = s.cfg := notifyIf_cfg _ _ _
@[simp] theorem State.notifiedIn_backend : (s.notifiedIn n).backend = s.backend :=
  (s.notifiedIn_frame n fun _ => False).backend
@[simp] theorem State.notifiedIn_arrivals : (s.notifiedIn n).arrivals = s.arrivals :=
  (s.notifiedIn_frame n fun _ => False).arrivals
@[simp] theorem State.notifiedIn_outStream : (s.notifiedIn n).outStream = s.outStream := notifyIf_outStream _ _ _
theorem State.notifiedIn_mem : (s.notifiedIn n).mem =
    s.mem.putBytes s.dev.inDescAddr.toNat (headerBytes s.cfg (s.dev.inHdr.completed s.cfg n)) := notifyIf_mem _ _ _

/-- The cached header, and the flag and the line as `Notify(In)` moves them if the header asks (R188, R210). -/
theorem State.notifiedIn_dev : (s.notifiedIn n).dev = { s.dev with
    inHdr := s.dev.inHdr.completed s.cfg n
    inPending := s.dev.inPending || decide (s.dev.inHdr.notifyFlags &&& s.cfg.notifyMask ≠ 0)
    irqLine := if s.dev.inHdr.notifyFlags &&& s.cfg.notifyMask ≠ 0 ∧ s.dev.inPending = false ∧
      s.cfg.irqMode = .level then true else s.dev.irqLine } := by
  rw [State.notifiedIn, notifyIf_inn_dev, notifyRequested_eq_decide, ite_raisedLine]
  simp only [State.headerWritten, decide_eq_true_iff]

/-- The header write, and after it the raise if it is asked for and not coalesced (R188, R210). -/
theorem State.notifiedIn_history : (s.notifiedIn n).history = s.history ++
    [.memWrite s.dev.inDescAddr.toNat (headerBytes s.cfg (s.dev.inHdr.completed s.cfg n)) true] ++
      (if s.dev.inHdr.notifyFlags &&& s.cfg.notifyMask ≠ 0 ∧ s.dev.inPending = false
        then raiseEvents s.cfg.irqMode s.dev.irqLine else []) := by
  rw [State.notifiedIn, notifyIf_history]
  simp only [notifyRequested_iff]
  rfl

end notifiedIn

/-! ### Delivery on quiet ports -/

theorem precheckFails_of_le {n : Nat} {s : State} (h : n ≤ capacity s.cfg s.dev) : precheckFails n s = false := by
  simp [precheckFails, Nat.not_lt.mpr h]

theorem precheckFails_of_fillThenFail {s : State} (h : s.cfg.overrunPolicy = .fillThenFail) (n : Nat) :
    precheckFails n s = false := by
  simp [precheckFails, h]

/-- The unconsumed capacity counts the free slots (R183, R185). -/
theorem Device.CursorInv.length_freeSlots {d : Device} (h : d.CursorInv) :
    d.freeSlots.length = unconsumed (d.registered.drop d.curIdx) d.curOff.toNat := by
  rw [Device.freeSlots_eq, List.length_drop, length_slotsOf]
  cases hreg : d.registered.drop d.curIdx with
  | nil => simp [unconsumed, sumLengths]
  | cons b rest =>
    have off : d.curOff.toNat ≤ b.length.toNat := by
      rcases h.offsetBounded b (getElem?_of_drop hreg) with lt | ⟨zero, -⟩
      · omega
      · simp [zero]
    simp only [unconsumed, sumLengths, List.map_cons, List.sum_cons]
    omega

theorem scatter_nil (n : Nat) (bufs : List Buffer) (s : State) : scatter n bufs [] s = .done () s := by
  cases bufs <;> rfl

theorem Device.sameButCursor.registered {d e : Device} (h : d.sameButCursor e) : e.registered = d.registered := by
  rw [h]; rfl

section scattered
variable {s t : State} {m : Memory} {es : List Event} (h : Scattered s t m es)
include h

theorem Scattered.sameButCursor : s.dev.sameButCursor t.dev := congrArg State.dev h.eq
theorem Scattered.cfg : t.cfg = s.cfg := by rw [h.eq]
theorem Scattered.backend : t.backend = s.backend := by rw [h.eq]
theorem Scattered.arrivals : t.arrivals = s.arrivals := by rw [h.eq]
theorem Scattered.outStream : t.outStream = s.outStream := by rw [h.eq]
theorem Scattered.mem : t.mem = m := congrArg State.mem h.eq
theorem Scattered.history : t.history = s.history ++ es := congrArg State.history h.eq
theorem Scattered.inDescAddr : t.dev.inDescAddr = s.dev.inDescAddr := by rw [h.sameButCursor]
theorem Scattered.inHdr : t.dev.inHdr = s.dev.inHdr := by rw [h.sameButCursor]
theorem Scattered.inPending : t.dev.inPending = s.dev.inPending := by rw [h.sameButCursor]
theorem Scattered.irqLine : t.dev.irqLine = s.dev.irqLine := by rw [h.sameButCursor]

end scattered

theorem WritesInside.quiet {bufs : List Buffer} {es : List Event} (h : WritesInside bufs es) :
    ∀ e ∈ es, e.raisesInterrupt = false := by
  intro e he
  obtain ⟨x, bytes, rfl, -⟩ := h e he
  rfl

/-- Writes inside the buffers from the cursor onward go to addresses the registration owns (R242). -/
theorem WritesInside.owned {d : Device} {n : Nat} {es : List Event} (h : WritesInside (d.registered.drop n) es) :
    ∀ e ∈ es, ∃ x bytes, e = .memWrite x bytes true ∧ ∀ y, inRange x bytes.length y → d.ownsAddress y :=
  h.mono fun _ => List.mem_of_mem_drop

/-- Settles O38: the scatter, and the completion from the state it leaves. -/
theorem deliveryScattersAndCompletes : Obligations.DeliveryScattersAndCompletes := by
  intro s d hi hq hv hp hne hle hspace hfit h wanted
  have room : d.length ≤ capacity s.cfg s.dev := by
    rw [capacity_of_open hv (by rw [hp]; exact hne), ← hi.cursor.length_freeSlots]
    exact hle
  obtain ⟨t, es, ran, inside, sc, position, last⟩ :=
    (scatter_quiet (n := d.length) hq.1 hi.cursor (fun _ => rfl) hspace).1 hle
  have done : deliver d s = .done () (t.notifiedIn d.length) := by
    rw [deliver_of_live (Device.live_iff.mpr ⟨hv, hp⟩) (precheckFails_of_le room), ran, Run.done_andThen]
    exact complete_eq_notifiedIn (State.MemQuiet.of_suffix hq.1 sc.turns) (by rw [sc.inDescAddr, sc.cfg]; exact hfit)
  have header : t.dev.inHdr.completed t.cfg d.length = h := by rw [sc.inHdr, sc.cfg]; rfl
  have dev := t.notifiedIn_dev d.length
  have reg : (t.notifiedIn d.length).dev.registered = t.dev.registered := by rw [dev]; rfl
  have idx : (t.notifiedIn d.length).dev.curIdx = t.dev.curIdx := by rw [dev]
  have off : (t.notifiedIn d.length).dev.curOff = t.dev.curOff := by rw [dev]
  refine ⟨t.notifiedIn d.length, es, congrArg Run.outcome done, ?_, ?_, ?_, fun hd => ?_, ?_, inside.quiet, ?_, ?_, ?_, ?_⟩
  · rw [State.notifiedIn_mem, header, sc.mem, sc.inDescAddr, sc.cfg]
  · rw [idx, off, dev, header, sc.inHdr, sc.inPending, sc.irqLine, sc.cfg, sc.sameButCursor]
  · rw [Device.cursorPosition, reg, idx, off]
    exact position
  · rw [Device.CursorAtLastByte, reg, idx, off]
    exact last hd
  · rw [State.notifiedIn_history, header, sc.history, sc.inDescAddr, sc.inHdr, sc.inPending, sc.irqLine, sc.cfg]
  · rw [State.notifiedIn_outStream, sc.outStream]
  · rw [State.notifiedIn_cfg, sc.cfg]
  · rw [State.notifiedIn_backend, sc.backend]
  · rw [State.notifiedIn_arrivals, sc.arrivals]

/-- Settles O39: the scatter ends in E2. -/
theorem overrunFillsThenFails : Obligations.OverrunFillsThenFails := by
  intro s d hi hq hv hp hpolicy hlt hspace
  obtain ⟨t, es, ran, inside, sc, idx, off⟩ := (scatter_quiet (n := d.length) hq.1 hi.cursor (fun _ => rfl)
    fun x hx => hspace x (List.mem_of_mem_take hx)).2 hlt
  have ended : deliver d s = .aborted t := by
    rw [deliver_of_live (Device.live_iff.mpr ⟨hv, hp⟩) (precheckFails_of_fillThenFail hpolicy _), ran, Run.aborted_andThen]
  refine ⟨t, es, congrArg Run.outcome ended, ?_, sc.mem, ?_, inside.owned, sc.outStream, sc.cfg, sc.backend, sc.arrivals⟩
  · rw [sc.sameButCursor, idx, off]
  · rw [sc.history, ← List.append_assoc, Nat.sub_sub_self (Nat.le_of_lt hlt)]

/-- Settles O41: the scatter of no bytes does nothing, and no capacity is too small for them. -/
theorem emptyDeliveryCompletes : Obligations.EmptyDeliveryCompletes := by
  intro s hq hv hp hfit h
  have done : deliver [] s = .done () (s.notifiedIn 0) := by
    rw [deliver_of_live (Device.live_iff.mpr ⟨hv, hp⟩) (precheckFails_of_le (Nat.zero_le _)), scatter_nil, Run.done_andThen]
    exact complete_eq_notifiedIn hq.1 hfit
  have dev := s.notifiedIn_dev 0
  exact ⟨s.notifiedIn 0, congrArg Run.outcome done, by rw [dev]; rfl, by rw [dev], by rw [dev], s.notifiedIn_mem 0,
    by rw [dev]⟩

/-! ### Delivery, whatever the ports answer -/

/-- What a delivery may change, the cached header's fields apart (R184, R188). -/
theorem deliveredDev.frame_fields {p : Params} {d e : Device} {n : Nat} (h : deliveredDev p d e n) : e = { d with
    curIdx := e.curIdx
    curOff := e.curOff
    inHdr := { d.inHdr with status := e.inHdr.status, actualLength := e.inHdr.actualLength }
    inPending := e.inPending
    irqLine := e.irqLine } := by
  have header : e.inHdr = { d.inHdr with status := e.inHdr.status, actualLength := e.inHdr.actualLength } := by
    rcases h.inHdr with hh | hh <;> rw [hh]
  rw [← header]
  exact h.frame

/-- Settles O44: dropped, completed or ended by an error, the device is within one frame. -/
theorem deliveryFrame : Obligations.DeliveryFrame := by
  intro s t d h
  cases did_of_next h with
  | delivered _ frame _ stream dev =>
    exact ⟨dev.frame_fields, stream, frame.cfg, frame.backend, frame.arrivals⟩
  | notDelivered _ frame _ stream dev =>
    exact ⟨dev.delivered.frame_fields, stream, frame.cfg, frame.backend, frame.arrivals⟩

/-- A completion that does not notify changes the cached header only (R190). -/
theorem completedDev_false (p : Params) (d : Device) (n : Nat) :
    completedDev p d n false = { d with inHdr := d.inHdr.completed p n } := by
  simp [completedDev, Header.completed]

/-- What was added is determined by the two records. -/
theorem Wrote.events_eq {s t : State} {v : List Byte} {es fs : List Event} (h : Wrote s t v es)
    (hh : t.history = s.history ++ fs) : fs = es := List.append_cancel_left (hh.symm.trans h.history)

/-- A report stores nothing. -/
theorem Wrote.stored_before {s t : State} {v : List Byte} {es : List Event} {r : Report}
    (h : Wrote s t v (es ++ [.report r])) : es.flatMap Event.stored = v := by
  simpa [Event.stored] using h.stored

/-- A command that reports an access failure was ended by it, and by no overrun (R253). -/
theorem EndsIn.not_overrun {s t : State} {es : List Event} (h : EndsIn s t) (hh : t.history = s.history ++ es)
    {x n : Nat} (hr : .report (.guestAccessFailure x n) ∈ es) : ¬ EndedByOverrun s t := by
  rintro ⟨fs, m, k, ho⟩
  obtain ⟨gs, r, hg, before, -⟩ := h.one hh
  have eq : gs ++ [.report r] = fs ++ [.report (.overrun m k)] := by
    rw [← hg]
    exact List.append_cancel_left (hh.symm.trans ho)
  obtain ⟨-, last⟩ := List.append_inj' eq rfl
  rw [hg, last] at hr
  rcases List.mem_append.mp hr with hr | hr
  · cases before _ hr
  · cases List.mem_singleton.mp hr

/-- A delivery that reports an access failure was ended by a payload write or by the header write (R190). -/
theorem deliver_failed {s t : State} {d : List Byte} {es : List Event} (h : exec (.deliver d) s = .next t)
    (hh : t.history = s.history ++ es) {x n : Nat} (hr : .report (.guestAccessFailure x n) ∈ es) :
    PayloadFailed s t d ∨ HeaderFailed s t d := by
  rcases ((deliver_ended d s).both (deliver_goesOn d s)).of_next h with ⟨-, goesOn⟩ | ⟨ended, endsIn⟩
  · cases goesOn.noEnd hh _ hr
  · rcases ended with failed | overrun | failed
    · exact .inl failed
    · exact absurd overrun (endsIn.not_overrun hh hr)
    · exact .inr failed

/-- Settles O42. -/
theorem accessFailureInDelivery : Obligations.AccessFailureInDelivery := by
  intro s t d es h hh ⟨x, n, hr⟩
  obtain ⟨-, stream, -⟩ := deliveryFrame s t d h
  rcases deliver_failed h hh hr with ⟨b, w, fs, current, lt, off, same, position, wrote⟩ |
    ⟨fs, c, same, position, dev, wrote⟩
  · obtain rfl := wrote.events_eq hh
    exact ⟨wrote.quiet, stream, .inl ⟨b, w, fs, same.registered ▸ current, lt, off, rfl, same, position,
      wrote.stored_before⟩⟩
  · obtain rfl := wrote.events_eq hh
    rw [completedDev_false] at dev
    refine ⟨wrote.quiet, stream, .inr ⟨fs, rfl, ?_, ?_, wrote.stored_before⟩⟩
    · rw [dev, same]; rfl
    · rw [dev]; exact position

end Sys2Proof.Machine
end

section
/-! SUPPORT. Proofs of the statements of spec/44_notification.md: which flag an acknowledge clears, the level it leaves
on the line (R213 to R215, R218), and that it raises nothing (R216). -/

namespace Sys2Proof.Machine

/-! ### The level of the line after an acknowledge -/

/-- In `Message` mode the line stays (R214). -/
theorem acknowledge_irqLine_of_message {s : State} (hm : s.cfg.irqMode = .message) (dir : Direction) :
    (acknowledge dir s).dev.irqLine = s.dev.irqLine := by
  rw [acknowledge_dev]
  cases dir <;> simp [ackedLine, hm, Device.setPending]

/-- In `Level` mode the line model gives the level (R214, R215). -/
theorem acknowledge_irqLine_of_level {s : State} (hm : s.cfg.irqMode = .level) (dir : Direction) :
    (acknowledge dir s).dev.irqLine =
      lineLevelAfterAck s.cfg.lineModel dir (s.dev.pending dir) (s.dev.setPending dir false) := by
  rw [acknowledge_dev]
  simp only [ackedLine, hm]

section line
variable {s : State} (hm : s.cfg.irqMode = .level)
include hm

theorem acknowledge_out_irqLine_of_or (hl : s.cfg.lineModel = .perDirectionOr) :
    (acknowledge .out s).dev.irqLine = s.dev.inPending := by
  rw [acknowledge_irqLine_of_level hm, hl]
  exact Bool.false_or _

theorem acknowledge_inn_irqLine_of_or (hl : s.cfg.lineModel = .perDirectionOr) :
    (acknowledge .inn s).dev.irqLine = s.dev.outPending := by
  rw [acknowledge_irqLine_of_level hm, hl]
  exact Bool.or_false _

theorem acknowledge_out_irqLine_of_latch (hl : s.cfg.lineModel = .singleLatchLiteral) :
    (acknowledge .out s).dev.irqLine = if s.dev.outPending then false else s.dev.irqLine := by
  rw [acknowledge_irqLine_of_level hm, hl]
  cases h : s.dev.outPending <;> simp [lineLevelAfterAck, Device.pending, Device.setPending, h]

theorem acknowledge_inn_irqLine_of_latch (hl : s.cfg.lineModel = .singleLatchLiteral) :
    (acknowledge .inn s).dev.irqLine = s.dev.irqLine := by
  rw [acknowledge_irqLine_of_level hm, hl]
  rfl

end line

/-! ### Which flag is cleared -/

/-- Settles O20: `ACK` did one of three things, each of which meets one clause and the premises of no other. -/
theorem ackClearsFirstMatch : Obligations.AckClearsFirstMatch := by
  intro s v w
  obtain ⟨t, h⟩ := exec_ack_next v w s
  refine ⟨t, h, ?_⟩
  cases did_of_next h with
  | ackedOut _ _ h0 =>
    rw [h0]
    exact ⟨fun _ => ⟨by rw [acknowledge_dev]; rfl, fun hm => acknowledge_irqLine_of_message hm .out,
        acknowledge_out_irqLine_of_or, acknowledge_out_irqLine_of_latch⟩,
      nofun, nofun, acknowledge_eq .out s⟩
  | ackedIn _ _ h0 h1 =>
    rw [h0, h1]
    exact ⟨nofun,
      fun _ _ => ⟨by rw [acknowledge_dev]; rfl, fun hm => acknowledge_irqLine_of_message hm .inn,
        acknowledge_inn_irqLine_of_or, acknowledge_inn_irqLine_of_latch⟩,
      nofun, acknowledge_eq .inn s⟩
  | ackedNone _ _ h0 h1 =>
    rw [h0, h1]
    exact ⟨nofun, nofun, fun _ _ => rfl, rfl⟩

/-- Settles O21: the flag acknowledged is low, the other stays, and the line is the other. -/
theorem ackTruthTable : Obligations.AckTruthTable := by
  intro s v w hm hl _
  obtain ⟨t, ht, out, inn, neither, -⟩ := ackClearsFirstMatch s v w
  refine ⟨t, ht, ?_⟩
  cases h0 : v.getLsbD 0 with
  | true =>
    obtain ⟨dev, -, line, -⟩ := out h0
    rw [dev, line hm hl]
    cases v.getLsbD 1 <;> cases s.dev.outPending <;> cases s.dev.inPending <;> rfl
  | false =>
    cases h1 : v.getLsbD 1 with
    | true =>
      obtain ⟨dev, -, line, -⟩ := inn h0 h1
      rw [dev, line hm hl]
      cases s.dev.outPending <;> cases s.dev.inPending <;> rfl
    | false => rw [neither h0 h1]

/-! ### An acknowledge raises nothing -/

/-- Where the line follows the flags it was high with either of them (R42 g), so clearing one cannot raise it; the other
line model and `Message` mode never raise it. -/
theorem irqLine_high_of_acknowledge {s : State} (h : LineInv s.cfg s.dev) {dir : Direction}
    (high : (acknowledge dir s).dev.irqLine = true) : s.dev.irqLine = true := by
  cases hm : s.cfg.irqMode with
  | message => rwa [acknowledge_irqLine_of_message hm] at high
  | level =>
    cases hl : s.cfg.lineModel with
    | perDirectionOr =>
      rw [h.levelIsOr hm hl]
      cases dir with
      | out => rw [← acknowledge_out_irqLine_of_or hm hl, high, Bool.or_true]
      | inn => rw [← acknowledge_inn_irqLine_of_or hm hl, high, Bool.true_or]
    | singleLatchLiteral =>
      cases dir with
      | out =>
        rw [acknowledge_out_irqLine_of_latch hm hl] at high
        split at high
        · cases high
        · exact high
      | inn => rwa [acknowledge_inn_irqLine_of_latch hm hl] at high

/-- The record gains no message, and an edge only to a level that the line did not have. -/
theorem acknowledge_raises_nothing {s : State} (h : LineInv s.cfg s.dev) (dir : Direction) :
    ∃ es, (acknowledge dir s).history = s.history ++ es ∧ ∀ e ∈ es, e.raisesInterrupt = false := by
  obtain ⟨es, record, edges⟩ := acknowledge_history dir s
  refine ⟨es, record, fun e he => ?_⟩
  obtain ⟨level, rfl, after, changed⟩ := edges e he
  cases level with
  | false => rfl
  | true => exact absurd (irqLine_high_of_acknowledge h after.symm).symm changed

/-- Settles O22. -/
theorem ackNeverRaises : Obligations.AckNeverRaises := by
  intro s t v w hi h
  cases did_of_next h with
  | ackedOut | ackedIn => exact ⟨acknowledge_raises_nothing hi.line _, irqLine_high_of_acknowledge hi.line⟩
  | ackedNone => exact ⟨⟨[], (List.append_nil _).symm, nofun⟩, id⟩

end Sys2Proof.Machine
end

section
/-! SUPPORT. Proofs of the statements of spec/45_tag_register.md: what a tag read returns (R230), and that the
configuration and the backend change by `CONSTRUCT` alone (R231, R281). -/

namespace Sys2Proof.Machine

/-! ### The rows of `TAG_READ` -/

/-- The third row of the window starts at the tag index 0x30 (R230). -/
theorem exec_tagReadHigh (index : BitVec 4) (w : AccessWidth) (s : State) :
    exec (.tagReadHigh index w) s = .next (returnRead (tagByte s.cfg (0x30 + index.toNat)) s) := by
  have start : s.cfg.tagWindow.val - 0x10 = 0x30 := by simp only [Given.val_eq, Config.tagWindow, Nat.reduceSub]
  rw [← start]
  rfl

/-- Settles O15: in the window and on each row the answer is the tag byte at the index R230 gives, and `tagByte_eq` says
that byte as R230 writes it. -/
theorem tagReadReturnsOneByte : Obligations.TagReadReturnsOneByte := by
  intro s w answer
  have answer_eq (i : Nat) : answer i = .next (returnRead (tagByte s.cfg i) s) := by rw [tagByte_eq]; rfl
  simp only [answer_eq]
  refine ⟨fun offset low high => ?_, fun _ => rfl, fun _ => rfl, fun i => exec_tagReadHigh i w s⟩
  rw [exec_decodeRead, readValue_inside ⟨low, high⟩]

/-! ### The configuration and the backend -/

/-- Settles O53: the engines' commands keep both by their frame, an acknowledge changes the device and the record, and
the other commands the record, the device or nothing. -/
theorem configurationIsConstant : Obligations.ConfigurationIsConstant := by
  intro i s t h notConstruct
  cases did_of_next h with
  | outSubmit _ _ _ frame | registered _ _ _ _ frame | notRegistered _ _ frame | delivered _ frame
  | notDelivered _ frame => exact ⟨frame.cfg, frame.backend⟩
  | ackedOut | ackedIn => exact ⟨acknowledge_cfg _ s, acknowledge_backend _ s⟩
  | ackedNone | nopWr | tagReadLow | tagReadMid | tagReadHigh | rdZero | capacity | reset => exact ⟨rfl, rfl⟩
  | constructed | notConstructed => exact absurd rfl (notConstruct _ _ _)

end Sys2Proof.Machine
end

section
/-! SUPPORT. Proofs of the statements of spec/60_exceptions.md: where a delivery may write, however it ends (R242), and
how many errors end one command (R253). -/

namespace Sys2Proof.Machine

/-! ### The bounds of a delivery -/

/-- A delivery writes guest memory in `deliveryRange` only, dropped, completed or ended by an error (R242). -/
theorem exec_deliver_frame {s t : State} {d : List Byte} (h : exec (.deliver d) s = .next t) :
    Frame (deliveryRange s) s t := by
  cases did_of_next h with
  | delivered _ frame | notDelivered _ frame => exact frame

/-- Settles O43: an address that is in no registered buffer and not in the registered header is outside the delivery's
range. -/
theorem deliveryStaysInBounds : Obligations.DeliveryStaysInBounds := by
  intro s t d still h x notOwned notHeader
  exact (exec_deliver_frame h).bytes still x (not_or.mpr ⟨notOwned, notHeader⟩)

/-! ### The errors that end a command -/

theorem filter_endsCommand_eq_nil {es : List Event} (h : ∀ e ∈ es, e.endsCommand = false) :
    es.filter Event.endsCommand = [] :=
  List.filter_eq_nil_iff.mpr fun e he => Bool.eq_false_iff.mp (h e he)

/-- A command that went on reports no ending error, and one that was ended reports it once, as its last event. -/
theorem length_endsCommand_le_one {s t : State} {es : List Event} (h : GoesOn s t ∨ EndsIn s t)
    (hh : t.history = s.history ++ es) : (es.filter Event.endsCommand).length ≤ 1 := by
  rcases h with goesOn | endsIn
  · rw [filter_endsCommand_eq_nil (goesOn.noEnd hh)]
    exact Nat.zero_le 1
  · obtain ⟨before, r, rfl, noEnd, -⟩ := endsIn.one hh
    rw [List.filter_append, filter_endsCommand_eq_nil noEnd, List.nil_append]
    exact List.length_filter_le _ [Event.report r]

/-- An acknowledge records a change of the line at most, which is no error (R213). -/
theorem acknowledge_goesOn (dir : Direction) (s : State) : GoesOn s (acknowledge dir s) := by
  obtain ⟨es, logged⟩ := acknowledge_logged dir s
  obtain ⟨fs, hh, edges⟩ := acknowledge_history dir s
  obtain rfl : es = fs := List.append_cancel_left (logged.1.symm.trans hh)
  refine ⟨es, logged, fun e he => ?_⟩
  obtain ⟨b, rfl, -⟩ := edges e he
  rfl

/-- Every command went on to its end, or was ended by an error that is its last event (R247, R253). -/
theorem Did.goesOn_or_endsIn {i : Instr} {s t : State} (h : Did i s t) : GoesOn s t ∨ EndsIn s t := by
  cases h with
  | outSubmit _ _ _ _ logged => exact logged
  | registered _ _ _ _ _ logged | delivered _ _ logged => exact .inl logged
  | notRegistered _ _ _ logged | notDelivered _ _ logged => exact .inr logged
  | ackedOut | ackedIn => exact .inl (acknowledge_goesOn _ s)
  | ackedNone | nopWr | reset | constructed => exact .inl ((GoesOn.refl s).congr rfl rfl)
  | tagReadLow | tagReadMid | tagReadHigh | rdZero | capacity | notConstructed =>
    exact .inl (GoesOn.event rfl rfl rfl rfl)

/-- Settles O55. -/
theorem atMostOneEndingError : Obligations.AtMostOneEndingError := by
  intro i s t es h hh
  exact length_endsCommand_le_one (did_of_next h).goesOn_or_endsIn hh

end Sys2Proof.Machine
end

section
/-! SUPPORT. Proofs of the statements of spec/70_reset_and_hazards.md: what `RESET` clears (R280, R281), and what
`CONSTRUCT` fixes and when it is let in (R282). -/

namespace Sys2Proof.Machine

/-! ### The reset values -/

/-- R43's table of reset values, but for the entries of `in_buf`, which it leaves unspecified. -/
theorem Device.reset_values : Device.reset.outPending = false ∧ Device.reset.inPending = false ∧
    Device.reset.irqLine = false ∧ Device.reset.inValid = false ∧ Device.reset.inDescAddr = 0 ∧
    Device.reset.inHdr = ⟨0, 0, 0, 0⟩ ∧ Device.reset.curIdx = 0 ∧ Device.reset.curOff = 0 ∧
    Device.reset.totalCapacity = 0 ∧ Device.reset.staleCount = 0 :=
  ⟨rfl, rfl, rfl, rfl, rfl, rfl, rfl, rfl, rfl, rfl⟩

theorem resetDevice_eq (s : State) : resetDevice s = { s with dev := Device.reset } := rfl

theorem exec_reset (s : State) : exec .reset s = .next (resetDevice s) := rfl

/-- Settles O46: the next state is the machine with its device at the reset values. -/
theorem resetClearsDeviceOnly : Obligations.ResetClearsDeviceOnly := by
  intro s
  refine ⟨resetDevice s, exec_reset s, ?_⟩
  simp [Device.reset_values, resetDevice_eq]

/-! ### Construction -/

theorem exec_construct_some (tag : List Byte) (mode : IrqMode) (b : Endpoint) (s : State) :
    exec (.construct tag mode (some b)) s =
      .next (resetDevice { s with cfg := { s.cfg with tag := tag, irqMode := mode }, backend := some b }) := rfl

theorem exec_construct_none (tag : List Byte) (mode : IrqMode) (s : State) :
    exec (.construct tag mode none) s = .next ({ s with backend := none }.record .constructionFailed) := rfl

/-- A second construction is not let in (log 15). -/
theorem notLetIn_construct_of_backend {s : State} {b : Endpoint} (h : s.backend = some b) (tag : List Byte)
    (mode : IrqMode) (e : Option Endpoint) : notLetIn s (.construct tag mode e) = some .alreadyConstructed := by
  simp only [notLetIn, h]

/-- No other command is let in before construction (log 15). -/
theorem notLetIn_of_no_backend {s : State} {i : Instr} (h : s.backend = none) (hi : ∀ x y z, i ≠ .construct x y z) :
    notLetIn s i = some .noDevice := by
  cases i with
  | construct x y z => exact absurd rfl (hi x y z)
  | _ => simp only [notLetIn, h]

/-- Settles O47: the state after a construction with a backend and without one, and the two refusals. -/
theorem constructFixesConfiguration : Obligations.ConstructFixesConfiguration := by
  intro s tag mode
  refine ⟨fun b => ⟨_, exec_construct_some tag mode b s, ?_⟩, exec_construct_none tag mode s,
    fun b h => notLetIn_construct_of_backend h tag mode, fun h i => notLetIn_of_no_backend h⟩
  simp [Device.reset_values, resetDevice_eq]

end Sys2Proof.Machine
end
